-- ==== Sys2Proof/Word.lean ====
section
/-! DEFINITION. The word types of the SWD engine: data words (00_scope.md R7 `WORD`), bytes, request
headers (R90) and the call words with which the caller names an operation (notes/assumptions/3.md). -/

namespace Sys2Proof

/-- A data word: "a 32-bit unsigned value" (R7, R69). -/
abbrev Word := BitVec 32

/-- A byte of the target's memory (R60 c). -/
abbrev Byte := BitVec 8

/-- A request header: the 8 bits that open every read and write, bit 0 first on the wire (R90). -/
abbrev Header := BitVec 8

/-- A call word: how the model writes one operation of the caller as bits. DESIGN CHOICE, safe
(notes/assumptions/3.md): the block fetches no instructions (R78), so the spec gives no such word. -/
abbrev CallWord := BitVec 48

end Sys2Proof
end

