-- ==== Sys2Proof/Config.lean ====
section
/-! DEFINITION. What an implementation fixes (00_scope.md R7) and the free values: the bits and words the
spec leaves open (93_implementation_defined.md), as constants without a body. -/

namespace Sys2Proof

/-- `RX_SAMPLE_OFFSET`: how many cycles a receive sample lags the wire (R7, R101). -/
inductive RxOffset where
  /-- 0: sample `j` is the line in its own cycle. -/
  | same
  /-- 1: sample `j` is the line as it was one cycle before. -/
  | late
  deriving DecidableEq, Repr

/-- The parameters R7 lets an implementation choose. Every operation that depends on one takes it as an
argument (R8); `exec` passes this hardware's. -/
structure Params where
  /-- `N_PRE`: leading one-bits of a line reset. -/
  nPre     : Nat
  /-- `N_POST`: one-bits after the magic. -/
  nPost    : Nat
  /-- `N_IDLE`: idle bits that end a line reset. -/
  nIdle    : Nat
  /-- `RX_SAMPLE_OFFSET`. -/
  rxOffset : RxOffset
  deriving DecidableEq, Repr

/-- The bounds of R7: what a choice of the parameters must meet. -/
abbrev Params.Valid (p : Params) : Prop :=
  152 ≤ p.nPre ∧ p.nPre % 8 = 0 ∧ 150 ≤ p.nPost ∧ p.nPost % 8 = 0 ∧ 2 ≤ p.nIdle ∧ p.nIdle % 8 = 0

/-- This hardware's parameters (R7; the spec's decisions D3 and D4). -/
def Config.hw : Params := { nPre := 152, nPost := 152, nIdle := 8, rxOffset := .late }

/-- `APSEL`: the Access Port selected (R7, R45; D15). -/
def Config.apSel : BitVec 8 := 0

/-- The level sampled in a released cycle that no side drives (R40, U1), one for each draw. Free value
(notes/assumptions/5.md). -/
opaque Config.freeLevel : Nat → Bool

/-- The sample taken before cycle `c0` when `RX_SAMPLE_OFFSET = 1` (R101, U2), one for each draw. Free value
(notes/assumptions/6.md). -/
opaque Config.freeEarly : Nat → Bool

/-- A word of the target that the spec does not give (U18 to U20, U24; R302): the `k`-th of a draw. A draw is used in
one place only, and in it 0 is a word read or stored, 1 the TAR after it, 2 and 3 the same of a posted write performed
then, 4 a buffer that was lost. Free value (notes/assumptions/5.md, 11.md). -/
opaque Config.freeWord : Nat → Nat → Word

end Sys2Proof
end

