-- ==== Sys2Proof/Machine/Bits.lean ====
section
/-! DEFINITION. Bits in wire order (00_scope.md R9, R10) and the parity function (41_line_protocol.md R160). -/

namespace Sys2Proof.Machine

/-- The first `n` bits of a value, bit 0 first: the order in which they cross the wire (R10). -/
def bitsOf (n v : Nat) : List Bool := (List.range n).map v.testBit

/-- The value whose bits, bit 0 first, are the list (R10): the inverse of `bitsOf`. -/
def valueOf : List Bool → Nat
  | [] => 0
  | b :: l => b.toNat + 2 * valueOf l

/-- The 32-bit word with these bits, bit 0 first; bits past the 32nd are dropped. -/
def wordOf (l : List Bool) : Word := BitVec.ofNat 32 (valueOf l)

/-- The number of one bits of a value (R9). -/
def popcount {n : Nat} (v : BitVec n) : Nat := (bitsOf n v.toNat).count true

/-- "Parity = population count of the word, taken mod 2" (R160), as the bit that is sent. -/
def parity {n : Nat} (v : BitVec n) : Bool := popcount v % 2 == 1

end Sys2Proof.Machine
end

