-- ==== Sys2Proof/Syntax.lean ====
section
/-! DEFINITION. The operations a caller can call: one constructor of `Instr` for each row of
spec/opcode_table.json (30_encoding.md R106, R107; 42_dp_ap.md R200 to R220; 40_transport.md R131 to R138). -/

namespace Sys2Proof

/-- Which register space a reference names: the header's APnDP bit (R27, R90). -/
inductive Port where
  /-- Debug Port, APnDP = 0. -/
  | dp
  /-- Access Port, APnDP = 1. -/
  | ap
  deriving DecidableEq, Repr

/-- The direction of a transaction: the header's RnW bit (R27, R90). -/
inductive Dir where
  /-- RnW = 0. -/
  | write
  /-- RnW = 1. -/
  | read
  deriving DecidableEq, Repr

/-- A register slot: the "2-bit register address" `A[3:2]` (R61, R106 `slot`). -/
inductive Slot where
  | a0 | a1 | a2 | a3
  deriving DecidableEq, Repr

/-- A register reference `(APnDP, RnW, A[3:2])` (R12, R27). -/
structure RegRef where
  port : Port
  dir  : Dir
  slot : Slot
  deriving DecidableEq, Repr

/-- The operations, in the order of spec/opcode_table.json. -/
inductive Instr where
  /-- `RD DP.DPIDR` (R200). -/
  | rdDpDpidr
  /-- `RD DP.STAT` (R201). -/
  | rdDpStat
  /-- `RD DP.RESEND` (R202). -/
  | rdDpResend
  /-- `RD DP.RDBUFF` (R203). -/
  | rdDpRdbuff
  /-- `WR DP.ABORT, v` (R204). -/
  | wrDpAbort (v : Word)
  /-- `WR DP.STAT, v` (R205). -/
  | wrDpStat (v : Word)
  /-- `WR DP.SELECT, v` (R206). -/
  | wrDpSelect (v : Word)
  /-- `WR DP.A3, v` (R207). -/
  | wrDpA3 (v : Word)
  /-- `RD AP.A0` (R208). -/
  | rdApA0
  /-- `RD AP.A1` (R209). -/
  | rdApA1
  /-- `RD AP.A2` (R210). -/
  | rdApA2
  /-- `RD AP.A3` (R211). -/
  | rdApA3
  /-- `WR AP.A0, v` (R212). -/
  | wrApA0 (v : Word)
  /-- `WR AP.A1, v` (R213). -/
  | wrApA1 (v : Word)
  /-- `WR AP.A2, v` (R214). -/
  | wrApA2 (v : Word)
  /-- `WR AP.A3, v` (R215). -/
  | wrApA3 (v : Word)
  /-- `RD ref` for any read reference (R176). -/
  | rdRef (ref : RegRef)
  /-- `WR ref, v` for any write reference (R185). -/
  | wrRef (ref : RegRef) (v : Word)
  /-- `LINERESET` (R170). -/
  | lineReset
  /-- `RDAP apreg`: `RD apreg ; RD DP.RDBUFF` (R107). -/
  | rdap (ref : RegRef)
  /-- `DPINIT` (R220). -/
  | dpInit
  /-- `INIT` (R131). -/
  | init
  /-- `ENGAGE` (R137). -/
  | engage
  /-- `DISENGAGE` (R138). -/
  | disengage
  deriving DecidableEq, Repr

end Sys2Proof
end

