-- ==== Sys2Proof/WellFormed.lean ====
section
/-! DEFINITION. When an operation is well formed: the direction and the port its rule gives its register
reference (R106, R107, R176, R185). Every other operation is well formed by its type. -/

namespace Sys2Proof

/-- Why an operation is ill formed. -/
inductive IllFormed where
  /-- `RD ref` needs `RnW = 1` (R176). -/
  | readNeedsReadRef
  /-- `WR ref, v` needs `RnW = 0` (R185). -/
  | writeNeedsWriteRef
  /-- `RDAP apreg` reads: `RnW = 1` (R107). -/
  | rdapNeedsReadRef
  /-- `RDAP apreg` names an AP register: `APnDP = 1` (R106, R107). -/
  | rdapNeedsApRef
  deriving DecidableEq, Repr

/-- The first thing wrong with an operation, if any. -/
def Instr.illFormed (i : Instr) : Option IllFormed :=
  match i with
  | .rdRef ref => if ref.dir = .read then none else some .readNeedsReadRef
  | .wrRef ref _ => if ref.dir = .write then none else some .writeNeedsWriteRef
  | .rdap ref =>
    if ref.dir = .read then
      if ref.port = .ap then none else some .rdapNeedsApRef
    else some .rdapNeedsReadRef
  | .rdDpDpidr | .rdDpStat | .rdDpResend | .rdDpRdbuff
  | .wrDpAbort _ | .wrDpStat _ | .wrDpSelect _ | .wrDpA3 _
  | .rdApA0 | .rdApA1 | .rdApA2 | .rdApA3
  | .wrApA0 _ | .wrApA1 _ | .wrApA2 _ | .wrApA3 _
  | .lineReset | .dpInit | .init | .engage | .disengage => none

/-- An operation is well formed when nothing is wrong with it. -/
abbrev WellFormed (i : Instr) : Prop := i.illFormed = none

end Sys2Proof
end

