-- ==== Sys2Proof/Decode.lean ====
section
/-! DEFINITION. The request header (30_encoding.md R90 to R93, R108) and the call words of the model
(notes/assumptions/3.md): decoding, total, rejecting by name, and after it the encoder. -/

namespace Sys2Proof

/-- The APnDP bit (R90). -/
def Port.bit : Port → Bool
  | .dp => false
  | .ap => true

/-- The RnW bit (R90). -/
def Dir.bit : Dir → Bool
  | .write => false
  | .read => true

/-- `A[3:2]` bit 0, the header's A2 (R90). -/
def Slot.bit0 : Slot → Bool
  | .a0 | .a2 => false
  | .a1 | .a3 => true

/-- `A[3:2]` bit 1, the header's A3 (R90). -/
def Slot.bit1 : Slot → Bool
  | .a0 | .a1 => false
  | .a2 | .a3 => true

/-- The slot with these two address bits. -/
def Slot.ofBits (b1 b0 : Bool) : Slot :=
  match b1, b0 with
  | false, false => .a0
  | false, true => .a1
  | true, false => .a2
  | true, true => .a3

/-- The four variable bits of a header, `{APnDP, RnW, A3, A2}` (R91). -/
def RegRef.variableBits (r : RegRef) : BitVec 4 :=
  BitVec.ofNat 4 (Machine.valueOf [r.slot.bit0, r.slot.bit1, r.dir.bit, r.port.bit])

/-- `req(APnDP, RnW, A)`: Start, APnDP, RnW, A2, A3, Parity, Stop, Park, bit 0 first (R90). -/
def req (r : RegRef) : Header :=
  BitVec.ofNat 8 (Machine.valueOf
    [true, r.port.bit, r.dir.bit, r.slot.bit0, r.slot.bit1, Machine.parity r.variableBits, false, true])

/-- The second construction of R92: a skeleton constant for each direction, with the bits of APnDP, A2 and A3, each
with the parity bit it flips, XORed in. The constants are the model's: "Only the resulting byte is the contract". -/
def reqBySkeleton (r : RegRef) : Header :=
  let skeleton : Header :=
    match r.dir with
    | .write => 0x81
    | .read => 0xA5
  skeleton ^^^ (if r.port.bit then 0x22 else 0) ^^^ (if r.slot.bit0 then 0x28 else 0)
    ^^^ (if r.slot.bit1 then 0x30 else 0)

/-- The reference whose header a byte is; none for a byte that is no header (R108: Start ≠ 1, Stop ≠ 0,
Park ≠ 1 or wrong parity). -/
def headerRef (b : Header) : Option RegRef :=
  let r : RegRef :=
    { port := if b.getLsbD 1 then .ap else .dp
      dir  := if b.getLsbD 2 then .read else .write
      slot := Slot.ofBits (b.getLsbD 4) (b.getLsbD 3) }
  if req r = b then some r else none

/-- Why a call word names no operation. -/
inductive Reject where
  /-- Its first byte is neither one of the 16 headers of R93 nor what its form asks for (R108). -/
  | noSuchHeader
  /-- Its form byte is none the model gives a meaning, or none for this first byte. -/
  | noSuchForm
  /-- Its operand bits are not zero although the operation has no operand word. -/
  | strayOperand
  deriving DecidableEq, Repr

/-- The byte with which a line reset opens on the wire, which the opcode table gives `LINERESET` and
`DPINIT` (R100; spec/opcode_table.json). -/
def resetByte : Header := 0xFF

/-- How the first byte of a call word is to be read: the row of the table that has the byte alone, the general
`RD ref`/`WR ref, v`, `RDAP`, `DPINIT`, or one of the calls that put nothing on the wire. The numbers are the
model's (notes/assumptions/3.md). -/
inductive Form where
  | plain | general | rdap | dpInit | init | engage | disengage
  deriving DecidableEq, Repr

/-- The form byte of each form. -/
def Form.byte : Form → BitVec 8
  | .plain => 0
  | .general => 1
  | .rdap => 2
  | .dpInit => 3
  | .init => 4
  | .engage => 5
  | .disengage => 6

/-- The form a form byte names. -/
def formOf (b : BitVec 8) : Option Form :=
  [Form.plain, .general, .rdap, .dpInit, .init, .engage, .disengage].find? (fun f => f.byte == b)

/-- A call word: the first wire byte in bits 7:0, the form byte in bits 15:8, the operand word in bits 47:16. -/
def callWord (first : Header) (form : Form) (v : Word) : CallWord := v ++ form.byte ++ first

/-- The register-access form that a header has a row of its own for (R93, R200 to R215). -/
def accessForm (r : RegRef) (v : Word) : Instr :=
  match r.port, r.dir, r.slot with
  | .dp, .read, .a0 => .rdDpDpidr
  | .dp, .read, .a1 => .rdDpStat
  | .dp, .read, .a2 => .rdDpResend
  | .dp, .read, .a3 => .rdDpRdbuff
  | .dp, .write, .a0 => .wrDpAbort v
  | .dp, .write, .a1 => .wrDpStat v
  | .dp, .write, .a2 => .wrDpSelect v
  | .dp, .write, .a3 => .wrDpA3 v
  | .ap, .read, .a0 => .rdApA0
  | .ap, .read, .a1 => .rdApA1
  | .ap, .read, .a2 => .rdApA2
  | .ap, .read, .a3 => .rdApA3
  | .ap, .write, .a0 => .wrApA0 v
  | .ap, .write, .a1 => .wrApA1 v
  | .ap, .write, .a2 => .wrApA2 v
  | .ap, .write, .a3 => .wrApA3 v

/-- An operation without an operand word: the operand bits must be zero. -/
def noOperand (v : Word) (i : Instr) : Except Reject Instr :=
  if v = 0 then .ok i else .error .strayOperand

/-- What a first byte, a form and an operand word name together. -/
def decodeFields (first : Header) (form : Form) (v : Word) : Except Reject Instr :=
  match form with
  | .plain =>
    if first = resetByte then noOperand v .lineReset
    else match headerRef first with
      | none => .error .noSuchHeader
      | some r => if r.dir = .read then noOperand v (accessForm r v) else .ok (accessForm r v)
  | .general =>
    match headerRef first with
    | none => .error .noSuchHeader
    | some r => if r.dir = .read then noOperand v (.rdRef r) else .ok (.wrRef r v)
  | .rdap =>
    match headerRef first with
    | none => .error .noSuchHeader
    | some r => if r.port = .ap ∧ r.dir = .read then noOperand v (.rdap r) else .error .noSuchForm
  | .dpInit => if first = resetByte then noOperand v .dpInit else .error .noSuchForm
  | .init => if first = 0 then noOperand v .init else .error .noSuchForm
  | .engage => if first = 0 then noOperand v .engage else .error .noSuchForm
  | .disengage => if first = 0 then noOperand v .disengage else .error .noSuchForm

/-- The first wire byte of a call word. -/
def CallWord.first (c : CallWord) : Header := c.extractLsb' 0 8

/-- The form byte of a call word. -/
def CallWord.form (c : CallWord) : BitVec 8 := c.extractLsb' 8 8

/-- The operand word of a call word. -/
def CallWord.operand (c : CallWord) : Word := c.extractLsb' 16 32

/-- The operation a call word names. -/
def decode (c : CallWord) : Except Reject Instr :=
  match formOf (CallWord.form c) with
  | none => .error .noSuchForm
  | some f => decodeFields (CallWord.first c) f (CallWord.operand c)

/-- The reference of `(APnDP, RnW, A[3:2])` written in this order (R12). -/
def mkRef (p : Port) (d : Dir) (a : Slot) : RegRef := { port := p, dir := d, slot := a }

/-- The call word of an operation. -/
def encode (i : Instr) : CallWord :=
  match i with
  | .rdDpDpidr => callWord (req (mkRef .dp .read .a0)) .plain 0
  | .rdDpStat => callWord (req (mkRef .dp .read .a1)) .plain 0
  | .rdDpResend => callWord (req (mkRef .dp .read .a2)) .plain 0
  | .rdDpRdbuff => callWord (req (mkRef .dp .read .a3)) .plain 0
  | .wrDpAbort v => callWord (req (mkRef .dp .write .a0)) .plain v
  | .wrDpStat v => callWord (req (mkRef .dp .write .a1)) .plain v
  | .wrDpSelect v => callWord (req (mkRef .dp .write .a2)) .plain v
  | .wrDpA3 v => callWord (req (mkRef .dp .write .a3)) .plain v
  | .rdApA0 => callWord (req (mkRef .ap .read .a0)) .plain 0
  | .rdApA1 => callWord (req (mkRef .ap .read .a1)) .plain 0
  | .rdApA2 => callWord (req (mkRef .ap .read .a2)) .plain 0
  | .rdApA3 => callWord (req (mkRef .ap .read .a3)) .plain 0
  | .wrApA0 v => callWord (req (mkRef .ap .write .a0)) .plain v
  | .wrApA1 v => callWord (req (mkRef .ap .write .a1)) .plain v
  | .wrApA2 v => callWord (req (mkRef .ap .write .a2)) .plain v
  | .wrApA3 v => callWord (req (mkRef .ap .write .a3)) .plain v
  | .rdRef r => callWord (req r) .general 0
  | .wrRef r v => callWord (req r) .general v
  | .lineReset => callWord resetByte .plain 0
  | .rdap r => callWord (req r) .rdap 0
  | .dpInit => callWord resetByte .dpInit 0
  | .init => callWord 0 .init 0
  | .engage => callWord 0 .engage 0
  | .disengage => callWord 0 .disengage 0

/-- The call word whose bits are those of an opcode-table word of `nbits` bits, every bit above them zero. -/
def tableWord (nbits w : Nat) : CallWord := BitVec.ofNat 48 (w % 2 ^ nbits)

/-- The operation the decoder reads from the bits of an opcode-table word. -/
def decodeTableWord (nbits w : Nat) : Option Instr :=
  match decode (tableWord nbits w) with
  | .ok i => some i
  | .error _ => none

end Sys2Proof
end

