-- ==== Sys2Proof/Machine/State.lean ====
section
/-! DEFINITION. The state of the machine (10_state.md R21 to R39), of the target at the far end of the wire
(R40 to R57, 20_memory.md R64, R67), of the caller and of the ready signals, as plain data; the faults and the
refusals; the state at power-on. -/

namespace Sys2Proof.Machine

/-- The transport session phase (R22). -/
inductive Phase where
  /-- The peripheral is not clocked. -/
  | off
  /-- "peripheral clocked, pins as line-idle input". -/
  | released
  /-- "pins switched to driven output mode". -/
  | engaged
  deriving DecidableEq, Repr

/-- The frame widths of the transport: 5, 8 or 11 bits (R7 `FRAME_WIDTHS`, R23). -/
inductive Width where
  | w5 | w8 | w11
  deriving DecidableEq, Repr

/-- A decoded acknowledgement (R30, R95). -/
inductive AckCode where
  | ok | wait | fault | noAck
  deriving DecidableEq, Repr

/-- The result codes (R29, R250); symbols, with no number (D30). -/
inductive Result where
  | ok | wait | fault | noAck | parity
  /-- Never produced by this block (R252). -/
  | timeout
  deriving DecidableEq, Repr

/-- One wire cycle of the trace (R38). -/
inductive Cycle where
  /-- `H(b)`: the host drove bit `b`. -/
  | h (b : Bool)
  /-- `T(s)`: the host released SWDIO and the line was at level `s` (notes/assumptions/14.md). -/
  | t (s : Bool)
  deriving DecidableEq, Repr

/-- The state of the `dp_init` state machine (R33, R221). -/
inductive InitState where
  | idle
  | s1Reset | s2SelBank15
  | s3ReadStat | s3WriteStat
  | s4ApReadIdr | s4ReadBuf
  | s5SelBank0
  | s6ApReadCsw | s6ReadBuf | s6WriteCsw
  | s7ReadStat | s7WriteStat
  | done | failed
  deriving DecidableEq, Repr

/-- A position: the name of an operation and the index of its next step in its rule's step list (R28). The
position inside `dp_init` is `initState` (R33). -/
inductive Pos where
  | read (step : Nat)
  | write (step : Nat)
  | lineReset (step : Nat)
  | dpInit
  deriving DecidableEq, Repr

/-- What a conforming target is free to choose in one transaction (notes/assumptions/7.md to 10.md, 27.md,
28.md). -/
structure Choice where
  /-- The acknowledgement it gives, but where R259 and R204 fix it (`Target.ackFor`). -/
  ack        : AckCode
  /-- A line error flips the parity bit of the data phase: a read's as the engine receives it (R178), a write's as
  the target receives it (R187; notes/assumptions/9.md). -/
  flipParity : Bool
  /-- Its power and reset controllers acknowledge the requests in STAT before it answers (R43, R267). -/
  powerAck   : Bool
  /-- It holds an AP write it accepts, to perform it later (R67). -/
  post       : Bool
  /-- Its debug domain is without power as long as CDBGPWRUPACK is clear (R303). -/
  unpowered  : Bool
  /-- A DPIDR or STAT read loses an unread buffer, as R302 says of "any other transaction"; else such a read has "no
  side effect", as R72 says (notes/assumptions/27.md). -/
  dropsUnread : Bool
  deriving DecidableEq, Repr

/-- What the target does in one transaction (R40). -/
inductive Reply where
  /-- It drives exactly these levels in the released cycles, `c0` first; `none` and every cycle past the list are
  undriven. Every target is one of these. -/
  | raw (levels : List (Option Bool))
  /-- It does what the target contract gives (R41 to R72, R259), with this choice. -/
  | conforming (c : Choice)
  deriving DecidableEq, Repr

/-- An AP write accepted and not yet performed (R67): the bank and AP it was addressed to, its slot and word. -/
structure PostedWrite where
  select : Word
  slot   : Slot
  word   : Word
  deriving DecidableEq, Repr

/-- The target's memory: cells (address, byte) in strictly rising order of address, none of them holding what an
unlisted address reads as (R60 c, R52). -/
abbrev Memory := List Host.Cell

/-- The target (R40): its coming replies, what it is driving, and the registers of the target contract. -/
structure Target where
  /-- What it will do in the coming transactions, the next first. -/
  script : List Reply
  /-- What it does in the transactions after those, over and over, for ever; when there is none of these either,
  nothing is known of it. -/
  again  : List Reply
  /-- The levels it drives in the coming released cycles of the present transaction. -/
  out    : List (Option Bool)
  /-- The write whose data phase it is about to take, with the choice it made. -/
  taking : Option (RegRef × Choice)
  /-- DPIDR (R42). -/
  dpidr  : Word
  /-- STAT, ARM's CTRL/STAT (R43). -/
  stat   : Word
  /-- SELECT (R45, R63). -/
  select : Word
  /-- The buffer that an AP read loads and RDBUFF returns (R48, R64). -/
  buf    : Word
  /-- The buffer holds the word of an AP read that no RDBUFF read has fetched yet (R65, R302). -/
  unread : Bool
  /-- The value returned by the last AP read or RDBUFF read, which RESEND sends again (R47). -/
  resent : Word
  /-- CSW (R50). -/
  csw    : Word
  /-- TAR (R51). -/
  tar    : Word
  /-- CFG (R53). -/
  cfg    : Word
  /-- BASE (R54). -/
  base   : Word
  /-- IDR (R55). -/
  idr    : Word
  /-- A posted AP write (R67). -/
  posted : Option PostedWrite
  /-- The target's memory space (R52, R60 c). -/
  mem    : Memory
  deriving DecidableEq, Repr

/-- The whole state: the engine's registers (R21), its observable output (R38), and the caller, the peripheral's
ready signals, the counter of free values and the target. -/
structure State where
  /-- R22. -/
  phase     : Phase
  /-- R23. -/
  width     : Width
  /-- R24. -/
  rxEn      : Bool
  /-- `seq` (R28): empty for `Idle`, else the position of the operation running, the innermost first. -/
  seq       : List Pos
  /-- `op.ref` (R27). -/
  opRef     : RegRef
  /-- `op.wdata` (R27). -/
  opWdata   : Word
  /-- `value`: 32 bits or none (R31). -/
  value     : Option Word
  /-- `result`; none while no operation has ended (R29, R39). -/
  result    : Option Result
  /-- `ack`; none outside a transaction's ack and data phases (R30). -/
  ack       : Option (BitVec 3)
  /-- `rx[0..3]`: the receive samples of the present transaction, each bit 0 first (R32). -/
  rx        : List (List Bool)
  /-- R33. -/
  initState : InitState
  /-- `idr`: 32 bits or none (R34). -/
  idr       : Option Word
  /-- The ghost `selShadow` (R35). -/
  selShadow : Option Word
  /-- The wire trace, the oldest cycle first (R38). -/
  trace     : List Cycle
  /-- The `(value, result)` of each operation that has ended, the oldest first (R38). -/
  outputs   : List (Option Word × Option Result)
  /-- The calls the caller will make, the next first (R20 c). -/
  calls     : List CallWord
  /-- How many more ready signals the peripheral gives; none for no limit (R262). -/
  signals   : Option Nat
  /-- The counter with which free values are drawn. -/
  draws     : Nat
  /-- R20 b, R40. -/
  target    : Target
  deriving DecidableEq, Repr

/-- Why the machine stops with a fault. -/
inductive Fault where
  /-- `value` was read and is none: "A model must make a read of `none` a fault, never a number" (R31). Raised by
  `withValue`. Safe: the run stops. -/
  | valueIsNone
  /-- `result` was read before any operation ended (R39). Raised by `withResult`. Safe: the run stops. -/
  | resultIsNone
  deriving DecidableEq, Repr

/-- Why a call has no step: the closed list of R258, and the model's own two. Every one is safe: the run stops. -/
inductive Refusal where
  /-- An operation without a meaning yet; raised by no arm of `exec`. -/
  | notModelled (mnemonic : String)
  /-- A call word that names no operation (`decode`); the encoding is the model's (notes/assumptions/3.md). -/
  | noSuchCall
  /-- `INIT` outside `Off` (R131). -/
  | initNotOff
  /-- A call that needs `Engaged`, in another phase (R161, R132 to R136). -/
  | notEngaged
  /-- A call while another operation runs (R161). -/
  | busy
  /-- `SetWidth(n)` with n outside 5, 8 and 11 (R132). -/
  | badWidth
  /-- `TxFrame` with the receive path on (R134). -/
  | txWhileRx
  /-- `TxFrame(v)` with v not below 2^width (R134). -/
  | txValueTooWide
  /-- `XchgFrame` with the receive path off (R136). -/
  | rxDisabled
  /-- `ENGAGE` outside `Released` (R137). -/
  | engageNotReleased
  /-- `DISENGAGE` outside `Engaged` or while an operation runs (R138). -/
  | disengageNotEngaged
  deriving DecidableEq, Repr

/-- The target before anything has been written to it. DESIGN CHOICE, unsafe (notes/assumptions/7.md): the spec
gives no reset value of a target register (R56); the model's are zero, no AP read is unread and no reply is scripted. -/
def Target.reset : Target :=
  { script := [], again := [], out := [], taking := none
    dpidr := 0, stat := 0, select := 0, buf := 0, unread := false, resent := 0
    csw := 0, tar := 0, cfg := 0, base := 0, idr := 0
    posted := none, mem := [] }

/-- The machine at power-on, before the first `INIT` (R39, R291): no call is pending. `width`, `rxEn`, `op.ref` and
`op.wdata` are unspecified by the spec there; the model's values are DESIGN CHOICE, unsafe
(notes/assumptions/1.md, 2.md). -/
def State.reset : State :=
  { phase := .off, width := .w8, rxEn := false, seq := []
    opRef := { port := .dp, dir := .write, slot := .a0 }, opWdata := 0
    value := none, result := none, ack := none, rx := []
    initState := .idle, idr := none, selShadow := none
    trace := [], outputs := [], calls := []
    signals := none, draws := 0, target := Target.reset }

end Sys2Proof.Machine
end

