-- ==== Sys2Proof/Machine/Flags.lean ====
section
/-! DEFINITION. The block's only flags are its result codes (10_state.md R29): how an acknowledgement is decoded
(R94, R95), which result it gives (R162) and when a read answers Parity (R178). -/

namespace Sys2Proof.Machine

/-- `ack = ACK0 | ACK1 << 1 | ACK2 << 2` from the three acknowledgement bits, ACK0 first (R94). -/
def ackOf (l : List Bool) : BitVec 3 := BitVec.ofNat 3 (valueOf l)

/-- The acknowledgement decode (R95): every pattern but ARM's three is NoAck (D6). -/
def ackCode (ack : BitVec 3) : AckCode :=
  if ack = 0b001 then .ok
  else if ack = 0b010 then .wait
  else if ack = 0b100 then .fault
  else .noAck

/-- The three bits a target drives to answer with a code, ACK0 first (R94, R95); a target that does not answer
drives none of them. -/
def ackLevels : AckCode → List (Option Bool)
  | .ok => [some true, some false, some false]
  | .wait => [some false, some true, some false]
  | .fault => [some false, some false, some true]
  | .noAck => [none, none, none]

/-- "every ack value (including WAIT) is returned verbatim to the caller" (R162). -/
def resultOf : AckCode → Result
  | .ok => .ok
  | .wait => .wait
  | .fault => .fault
  | .noAck => .noAck

/-- The result of a read whose ack is OK: "compares to the received parity bit" (R178). -/
def readResult (w : Word) (p : Bool) : Result :=
  if p = parity w then .ok else .parity

end Sys2Proof.Machine
end

