-- ==== Sys2Proof/Machine/Operands.lean ====
section
/-! DEFINITION. Operands: the register names and what they name (10_state.md R41, R49; 30_encoding.md R106), the
fields of the registers the engine and the target contract use (R42 to R55), and how a word is laid out in
transport frames (R102, R103, R105, R177, R186). -/

namespace Sys2Proof.Machine

/-! ### Register names -/

/-- The DP register names of the operation syntax (R106 `dpreg`). -/
inductive DpName where
  | dpidr | abort | stat | select | resend | rdbuff
  /-- `DP.A<n>`: the slot, in either direction. -/
  | a (slot : Slot)
  deriving DecidableEq, Repr

/-- The slot a DP name names in a direction; none where the name is not legal there (R41, R106). -/
def DpName.slot (n : DpName) (d : Dir) : Option Slot :=
  match n, d with
  | .dpidr, .read => some .a0
  | .dpidr, .write => none
  | .abort, .write => some .a0
  | .abort, .read => none
  | .stat, _ => some .a1
  | .resend, .read => some .a2
  | .resend, .write => none
  | .select, .write => some .a2
  | .select, .read => none
  | .rdbuff, .read => some .a3
  | .rdbuff, .write => none
  | .a s, _ => some s

/-- The AP register names of the operation syntax (R106 `apreg`). -/
inductive ApName where
  | csw | tar | drw | cfg | base | idr
  /-- `AP.A<n>`: the slot. -/
  | a (slot : Slot)
  deriving DecidableEq, Repr

/-- "The AP names are aliases of slots and carry no bank" (R106). -/
def ApName.slot : ApName → Slot
  | .csw => .a0
  | .tar => .a1
  | .drw => .a3
  | .cfg => .a1
  | .base => .a2
  | .idr => .a3
  | .a s => s

/-- The six AP registers the source names (R49). -/
inductive ApReg where
  | csw | tar | drw | cfg | base | idr
  deriving DecidableEq, Repr

/-- The Access Port register map (R49): what a slot of a bank names; none where the source names nothing. -/
def apRegAt (bank : BitVec 4) (slot : Slot) : Option ApReg :=
  if bank = 0x0 then
    match slot with
    | .a0 => some .csw
    | .a1 => some .tar
    | .a2 => none
    | .a3 => some .drw
  else if bank = 0xF then
    match slot with
    | .a0 => none
    | .a1 => some .cfg
    | .a2 => some .base
    | .a3 => some .idr
  else none

/-- The byte address of a slot inside its bank: `{A[3:2], 0b00}`, word aligned (R41, R61). -/
def slotAddress : Slot → Nat
  | .a0 => 0x0
  | .a1 => 0x4
  | .a2 => 0x8
  | .a3 => 0xC

/-- The byte address of an AP slot: `{APBANKSEL[3:0], A[3:2], 0b00}` (R60 b). -/
def apByteAddress (bank : BitVec 4) (slot : Slot) : Nat := bank.toNat * 16 + slotAddress slot

/-! ### Register fields -/

/-- SELECT.APSEL (R45). -/
def apSel (select : Word) : BitVec 8 := select.extractLsb' 24 8

/-- SELECT.APBANKSEL (R45). -/
def apBankSel (select : Word) : BitVec 4 := select.extractLsb' 4 4

/-- SELECT.DPBANKSEL (R45). -/
def dpBankSel (select : Word) : BitVec 4 := select.extractLsb' 0 4

/-- A SELECT word: APSEL, 16 reserved bits written 0, APBANKSEL, DPBANKSEL (R45). -/
def selectWord (ap : BitVec 8) (apBank dpBank : BitVec 4) : Word :=
  ap ++ (0 : BitVec 16) ++ apBank ++ dpBank

/-- "SELECT = APBANKSEL 0xF ..., DPBANKSEL 0" (R45, R220 S2). -/
def selectBank15 : Word := selectWord Config.apSel 0xF 0x0

/-- "SELECT back to APBANKSEL 0" (R45, R220 S5). -/
def selectBank0 : Word := selectWord Config.apSel 0x0 0x0

/-- `STAT_KEEP`: the three request bits 30, 28 and 26 (R44). -/
def statKeep : Word := 0x54000000

/-- CDBGPWRUPREQ (R43, R44). -/
def cdbgPwrUpReq : Word := 0x10000000

/-- CSYSPWRUPREQ (R43, R44). -/
def csysPwrUpReq : Word := 0x40000000

/-- `statWrite(s, req) = (s & STAT_KEEP) | req` (R44). -/
def statWrite (s request : Word) : Word := (s &&& statKeep) ||| request

/-- The step-3 exit test: CDBGPWRUPACK set, TRNCNT, MASKLANE, TRNMODE and ORUNDETECT all clear (R223). -/
def debugPowered (s : Word) : Bool :=
  s.getLsbD 29 && s.extractLsb' 12 12 == 0 && s.extractLsb' 8 4 == 0 && s.extractLsb' 2 2 == 0 && !s.getLsbD 0

/-- The step-7 exit test: CSYSPWRUPACK set (R225). -/
def systemPowered (s : Word) : Bool := s.getLsbD 31

/-- CSW.Size and CSW.AddrInc, the bits the step-6 test looks at (R224). -/
def cswMask : Word := 0x37

/-- The step-6 exit test: Size word, AddrInc off (R224). -/
def cswConfigured (c : Word) : Bool := c &&& cswMask == 0x02

/-- The step-6 rewrite: Size word, AddrInc off, "every other bit as read" (R224). -/
def cswRewrite (c : Word) : Word := (c &&& 0xFFFFFFC8) ||| 0x02

/-- CSW.Size `[2:0]` (R50). -/
def cswSize (c : Word) : BitVec 3 := c.extractLsb' 0 3

/-- CSW.AddrInc `[5:4]` (R50). -/
def cswAddrInc (c : Word) : BitVec 2 := c.extractLsb' 4 2

/-! ### Words in frames -/

/-- Bits `hi:lo` of a word as a frame value: `n` bits from bit `lo` (R9). -/
def slice (w : Word) (lo n : Nat) : Nat := w.toNat / 2 ^ lo % 2 ^ n

/-- The first half of a write's double frame: `wdata[10:0]` (R105). -/
def txData0 (w : Word) : Nat := slice w 0 11

/-- The second half of a write's double frame: `wdata[21:11]` (R105). -/
def txData1 (w : Word) : Nat := slice w 11 11

/-- A write's last frame: `wdata[31:22] | parity << 10` (R105). -/
def txData2 (w : Word) : Nat := slice w 22 10 + (parity w).toNat * 2 ^ 10

/-- The acknowledgement bits of the ack-frame sample: `s[4:2]`, or `s[3:1]` under offset 0 (R102). -/
def ackSample (p : Params) (s0 : List Bool) : BitVec 3 :=
  match p.rxOffset with
  | .late => ackOf ((s0.drop 2).take 3)
  | .same => ackOf ((s0.drop 1).take 3)

/-- The word reassembled from the samples of a read (R103, R177). -/
def rxWord (p : Params) (s0 f0 f1 f2 : List Bool) : Word :=
  match p.rxOffset with
  | .late => wordOf f0 ||| (wordOf f1 <<< 11) ||| (wordOf (f2.take 10) <<< 22)
  | .same =>
    wordOf ((s0.drop 4).take 1) ||| (wordOf f0 <<< 1) ||| (wordOf f1 <<< 12) ||| (wordOf (f2.take 9) <<< 23)

/-- The received parity bit: `f2[10]`, or `f2[9]` under offset 0 (R103, R177). -/
def rxParity (p : Params) (f2 : List Bool) : Bool :=
  match p.rxOffset with
  | .late => f2.getD 10 false
  | .same => f2.getD 9 false

end Sys2Proof.Machine
end

