-- ==== Sys2Proof/Machine/Ops.lean ====
section
/-! DEFINITION. The shared operations: how an operation goes on, waits for ever, faults or is refused; the
target's memory (10_state.md R52); the transport primitives (40_transport.md R132 to R142); reading the outputs
(R31); and the error exit, this block's counterpart of taking an exception (60_exceptions.md R256, R257). -/

namespace Sys2Proof.Machine

/-! ### Running an operation -/

/-- How far an operation has come. -/
inductive Run where
  /-- It goes on from this state, or has ended in it. -/
  | done (s : State)
  /-- It waits, in this state, for a ready signal that never comes (R262). -/
  | hung (s : State)
  | fault (r : Fault)
  | refused (r : Refusal)

/-- The next steps of an operation, where the steps before went through. -/
def Run.andThen (r : Run) (f : State → Run) : Run :=
  match r with
  | .done s => f s
  | .hung s => .hung s
  | .fault e => .fault e
  | .refused e => .refused e

/-- What a step of the machine answers: an engine that waits for ever is in a next state, from which it makes no
further move (R262). -/
def Run.outcome (r : Run) : Host.Outcome State Fault Refusal :=
  match r with
  | .done s => .next s
  | .hung s => .next s
  | .fault e => .fault e
  | .refused e => .refused e

/-- Wait for one ready signal of the peripheral (R134, R136, R139). It comes, at a time the model does not
record, unless the peripheral has given its last (R262). -/
def awaitSignal (s : State) : Run :=
  match s.signals with
  | none => .done s
  | some 0 => .hung s
  | some (n + 1) => .done { s with signals := some n }

/-- The engine goes to a step of the operation that runs innermost (R28). -/
def State.goto (s : State) (p : Pos) : State := { s with seq := p :: s.seq.tail }

/-! ### The target's memory -/

/-- What a byte of target memory that nothing has written reads as. DESIGN CHOICE, unsafe
(notes/assumptions/13.md). -/
def Memory.unlisted : Byte := 0

/-- One byte of memory. -/
def Memory.read (m : Memory) (a : Nat) : Byte :=
  match m with
  | [] => Memory.unlisted
  | (x, c) :: m => if x = a then c else Memory.read m a

/-- Put a cell before the cells of greater address; a byte that an unlisted address reads as is not listed. -/
def Memory.cons (a : Nat) (b : Byte) (m : Memory) : Memory :=
  if b = Memory.unlisted then m else (a, b) :: m

/-- Write one byte of memory, keeping the canonical form. -/
def Memory.write (m : Memory) (a : Nat) (b : Byte) : Memory :=
  match m with
  | [] => Memory.cons a b []
  | (x, c) :: m =>
    if a < x then Memory.cons a b ((x, c) :: m)
    else if x = a then Memory.cons a b m
    else (x, c) :: Memory.write m a b

/-- The canonical form: addresses strictly rising, no cell equal to what an unlisted address reads as. -/
abbrev Memory.wf (m : Memory) : Prop :=
  (m.map Prod.fst).Pairwise (· < ·) ∧ ∀ c ∈ m, c.2 ≠ Memory.unlisted

/-- Byte `k` of a word, `k = 0` the least significant. -/
def byteOf (w : Word) (k : Nat) : Byte := w.extractLsb' (8 * k) 8

/-- The place of byte `k` of a word in memory: CFG.BE chooses the byte order (R53; notes/assumptions/12.md). -/
def byteAddress (bigEndian : Bool) (a k : Nat) : Nat := if bigEndian then a + (3 - k) else a + k

/-- The word at an aligned address. -/
def Memory.readWord (m : Memory) (bigEndian : Bool) (a : Nat) : Word :=
  m.read (byteAddress bigEndian a 3) ++ m.read (byteAddress bigEndian a 2)
    ++ m.read (byteAddress bigEndian a 1) ++ m.read (byteAddress bigEndian a 0)

/-- Store a word at an aligned address. -/
def Memory.writeWord (m : Memory) (bigEndian : Bool) (a : Nat) (w : Word) : Memory :=
  (((m.write (byteAddress bigEndian a 0) (byteOf w 0)).write (byteAddress bigEndian a 1) (byteOf w 1)).write
    (byteAddress bigEndian a 2) (byteOf w 2)).write (byteAddress bigEndian a 3) (byteOf w 3)

/-! ### The transport primitives -/

/-- The number of wire cycles of one frame (R23). -/
def Width.bits : Width → Nat
  | .w5 => 5
  | .w8 => 8
  | .w11 => 11

/-- The width with this number of cycles, if the channel offers it (R109). -/
def Width.ofBits (n : Nat) : Option Width :=
  if n = 5 then some .w5 else if n = 8 then some .w8 else if n = 11 then some .w11 else none

/-- "the host drives SWDIO exactly when `phase = Engaged` and `rxEn = false`" (R25). -/
def State.drivesData (s : State) : Bool := s.phase == .engaged && !s.rxEn

/-- "The host drives SWCLK exactly when `phase = Engaged`" (R26). -/
def State.drivesClock (s : State) : Bool := s.phase == .engaged

/-- `SetWidth(n)` (R132). -/
def setWidth (n : Nat) (s : State) : Run :=
  if s.phase = .engaged then
    match Width.ofBits n with
    | some w => .done { s with width := w }
    | none => .refused .badWidth
  else .refused .notEngaged

/-- `RxEnable()` (R133). -/
def rxEnable (s : State) : Run :=
  if s.phase = .engaged then .done { s with rxEn := true } else .refused .notEngaged

/-- `RxDisable()` (R133). -/
def rxDisable (s : State) : Run :=
  if s.phase = .engaged then .done { s with rxEn := false } else .refused .notEngaged

/-- Drive the cycles of one frame, bit 0 first (R134). -/
def State.drive (s : State) (v : Nat) : State :=
  { s with trace := s.trace ++ (bitsOf s.width.bits v).map Cycle.h }

/-- `TxFrame(v)` (R134): wait until the transmitter is ready, drive the frame, wait until it is out. -/
def txFrame (v : Nat) (s : State) : Run :=
  if s.phase = .engaged then
    if s.rxEn = false then
      if v < 2 ^ s.width.bits then
        (awaitSignal s).andThen fun s => awaitSignal (s.drive v)
      else .refused .txValueTooWide
    else .refused .txWhileRx
  else .refused .notEngaged

/-- `TxDouble(v1, v2)` (R135). -/
def txDouble (v1 v2 : Nat) (s : State) : Run := (txFrame v1 s).andThen (txFrame v2)

/-- The level of the line in the `k`-th released cycle from now: what the target drives, or, in a cycle no side
drives, an unconstrained bit (R40). -/
def State.level (s : State) (k : Nat) : Bool :=
  (s.target.out.getD k none).getD (Config.freeLevel (s.draws + k))

/-- The levels of the line in the next `n` released cycles, the first first. -/
def State.levels (s : State) (n : Nat) : List Bool := (List.range n).map s.level

/-- What a receiver that lags one cycle samples first in a frame: the line in the cycle before, if the host had
released it, else (before `c0`) an unconstrained bit (R101). -/
def State.lateSample (s : State) : Bool :=
  match s.trace.getLast? with
  | some (.t b) => b
  | _ => Config.freeEarly s.draws

/-- The receive samples of a frame of `n` released cycles (R101). -/
def State.samples (s : State) (p : Params) (n : Nat) : List Bool :=
  match p.rxOffset with
  | .same => s.levels n
  | .late => (s.lateSample :: s.levels n).take n

/-- Release the line for one frame of `n` cycles (R136). -/
def State.release (s : State) (n : Nat) : State :=
  { s with
    trace := s.trace ++ (s.levels n).map Cycle.t
    draws := s.draws + n
    target := { s.target with out := s.target.out.drop n } }

/-- The samples of a frame become the next `rx[k]` of the transaction (R32, R136). -/
def State.sampled (s : State) (l : List Bool) : State := { s with rx := s.rx ++ [l] }

/-- `XchgFrame()` (R136): the sample taken is the last of `rx`. It is there only after the wait for RxDataReady, the
order of the rule's pseudocode; where that signal never comes `rx` has no such sample, though the cycles are on the
trace (notes/assumptions/17.md). -/
def xchgFrame (p : Params) (s : State) : Run :=
  if s.phase = .engaged then
    if s.rxEn = true then
      (awaitSignal s).andThen fun s =>
      let l := s.samples p s.width.bits
      (awaitSignal (s.release s.width.bits)).andThen fun s => .done (s.sampled l)
    else .refused .rxDisabled
  else .refused .notEngaged

/-- The `k`-th sample of the present transaction (R32). -/
def State.sample (s : State) (k : Nat) : List Bool := s.rx.getD k []

/-! ### Outputs and the ends of an operation -/

/-- Read the `value` output: none is a fault, never a number (R31). -/
def withValue (s : State) (f : Word → Run) : Run :=
  match s.value with
  | some w => f w
  | none => .fault .valueIsNone

/-- Read the `result` output; before any operation has ended there is none to read (R39). -/
def withResult (s : State) (f : Result → Run) : Run :=
  match s.result with
  | some r => f r
  | none => .fault .resultIsNone

/-- `return (v, r)` from a transaction: the outputs are written, the ack and the samples are discarded
(R30, R32), and the engine is where the transaction was called from (R28). -/
def State.returns (s : State) (v : Option Word) (r : Result) : State :=
  { s with value := v, result := some r, ack := none, rx := [], seq := s.seq.tail }

/-- The error exit of a transaction whose ack is not OK, this block's counterpart of trap entry (R256): the
transport is restored and `(none, result)` returned; nothing is saved, no handler runs, no mode changes. After it
the engine accepts the next call (R257). The two arguments are the steps at which the operation does so. -/
def errorExit (at1 at2 : Pos) (code : AckCode) (s : State) : Run :=
  (setWidth 8 (s.goto at1)).andThen fun s =>
  (rxDisable (s.goto at2)).andThen fun s =>
  .done (s.returns none (resultOf code))

/-- The `(value, result)` of an operation that has ended becomes an output of the engine (R38). -/
def State.reports (s : State) : State := { s with outputs := s.outputs ++ [(s.value, s.result)] }

/-- A caller's call of an operation on the wire: the precondition of R161, then the operation. -/
def callOnWire (body : State → Run) (s : State) : Run :=
  if s.phase = .engaged then
    if s.seq = [] then body s else .refused .busy
  else .refused .notEngaged

end Sys2Proof.Machine
end

