-- ==== Sys2Proof/Machine/Target.lean ====
section
/-! DEFINITION. The target at the far end of the wire (10_state.md R40 to R57; 20_memory.md R60 to R72;
60_exceptions.md R259): an oracle whose coming replies are `Target.script`, then `Target.again` for ever. A raw reply
is any target whatever. A conforming reply does what the target contract gives, "what an ARM SW-DP is expected to do";
the engine checks none of it (R40), and no definition of the engine reads these registers. -/

namespace Sys2Proof.Machine

/-! ### Registers of the contract -/

/-- STAT's read-write fields: CSYSPWRUPREQ, CDBGPWRUPREQ, CDBGRSTREQ, TRNCNT, MASKLANE, TRNMODE, ORUNDETECT
(R43). -/
def statWritable : Word := 0x54FFFF0D

/-- STAT's three acknowledge bits 31, 29 and 27 (R43). -/
def statAcks : Word := 0xA8000000

/-- STAT's sticky errors, "cleared by ABORT": WDATAERR, STICKYERR, STICKYCMP, STICKYORUN (R43). -/
def statSticky : Word := 0x000000B2

/-- STAT's reserved bits 25:24, RES0 (R43). -/
def statReserved : Word := 0x03000000

/-- CSW's read-only fields SPIDEN, TrInProg and DeviceEn (R50, R212). -/
def cswReadOnly : Word := 0x008000C0

/-- `old` with the bits of `mask` taken from `new`. -/
def merge (mask old new : Word) : Word := (old &&& ~~~mask) ||| (new &&& mask)

/-- Every power-up and reset request is acknowledged, and every acknowledge without its request withdrawn: each
acknowledge bit is the request bit below it (R43; notes/assumptions/8.md). -/
def Target.acknowledgePower (t : Target) : Target :=
  { t with stat := merge statAcks t.stat (t.stat <<< 1) }

/-- Whether a sticky error is set (R259). -/
def Target.sticky (t : Target) : Bool := t.stat &&& statSticky != 0

/-- The ABORT bits STKCMPCLR, STKERRCLR, WDERRCLR and ORUNERRCLR, moved to the STAT bits they clear (R46, R43). -/
def abortClears (v : Word) : Word :=
  ((v &&& 0x02) <<< 3) ||| ((v &&& 0x04) <<< 3) ||| ((v &&& 0x08) <<< 4) ||| ((v &&& 0x10) >>> 3)

/-- ABORT.DAPABORT (R46). -/
def dapAbort (v : Word) : Bool := v.getLsbD 0

/-- STAT as it is read (R43). -/
def Target.statRead (t : Target) : Word := t.stat &&& ~~~statReserved

/-- DPIDR as it is read: bit 0 reads as 1 (R42). -/
def Target.dpidrRead (t : Target) : Word := t.dpidr ||| 1

/-- Whether a DRW access is one the spec gives an effect: Size word at an aligned TAR (R69, R70, U24). R50 names
DbgSwEnable, Prot, SPIDEN, Mode, TrInProg and DeviceEn and gives them no effect; that neither a DRW nor another AP access
depends on what they hold is the model's choice (notes/assumptions/12.md). -/
def Target.plainDrw (t : Target) : Bool := cswSize t.csw == 2 && t.tar.extractLsb' 0 2 == 0

/-- CFG.BE (R53). -/
def Target.bigEndian (t : Target) : Bool := t.cfg.getLsbD 0

/-- The address of the aligned word that TAR lies in (R51, R70). -/
def Target.drwAddress (t : Target) : Nat := (t.tar &&& ~~~(0x3 : Word)).toNat

/-- TAR after a DRW access: the same with AddrInc off; with AddrInc single, Size word and TAR aligned the next word;
else a word the spec does not give (R50, R211, U24). That it is the same with AddrInc off whatever Size and alignment,
and the next word by 4, is the model's choice (notes/assumptions/12.md). -/
def Target.advance (fresh : Nat → Word) (t : Target) : Target :=
  if cswAddrInc t.csw = 0 then t
  else if cswAddrInc t.csw = 1 ∧ t.plainDrw = true then { t with tar := t.tar + 4 }
  else { t with tar := fresh 1 }

/-- What a read of an AP slot loads into the buffer (R49, R64): the register that the selected bank of AP 0 names
there; elsewhere, and for a DRW read the spec gives no value (U24), a free word. -/
def Target.apRead (fresh : Nat → Word) (slot : Slot) (t : Target) : Word × Target :=
  if apSel t.select = Config.apSel then
    match apRegAt (apBankSel t.select) slot with
    | some .csw => (t.csw, t)
    | some .tar => (t.tar, t)
    | some .drw =>
      (if t.plainDrw then t.mem.readWord t.bigEndian t.drwAddress else fresh 0, t.advance fresh)
    | some .cfg => (t.cfg, t)
    | some .base => (t.base, t)
    | some .idr => (t.idr, t)
    | none => (fresh 0, t)
  else (fresh 0, t)

/-- Perform a write of an AP slot (R49 to R55): read-only and unnamed slots keep what they hold
(notes/assumptions/11.md). A DRW write the spec gives no value (U24) leaves a free word in the word it falls in. -/
def Target.apWrite (fresh : Nat → Word) (p : PostedWrite) (t : Target) : Target :=
  if apSel p.select = Config.apSel then
    match apRegAt (apBankSel p.select) p.slot with
    | some .csw => { t with csw := merge (~~~cswReadOnly) t.csw p.word }
    | some .tar => { t with tar := p.word }
    | some .drw =>
      Target.advance fresh
        { t with mem := t.mem.writeWord t.bigEndian t.drwAddress (if t.plainDrw then p.word else fresh 0) }
    | some .cfg | some .base | some .idr | none => t
  else t

/-- Perform the posted AP write, if there is one (R67, R308). Its free words are other ones than those of the access
it is performed before (`Config.freeWord`; notes/assumptions/5.md). -/
def Target.performPosted (fresh : Nat → Word) (t : Target) : Target :=
  match t.posted with
  | none => t
  | some p => Target.apWrite (fun k => fresh (k + 2)) p { t with posted := none }

/-- The transactions that lose no unread buffer: the RDBUFF read (R64, R65), and the DPIDR and STAT reads of a target
in which they have "no side effect" (R72). R302 speaks of any other transaction between the two, so which of the rules
holds of those reads is the reply's choice (notes/assumptions/27.md). -/
abbrev Choice.spares (c : Choice) (r : RegRef) : Prop :=
  r = mkRef .dp .read .a3 ∨ c.dropsUnread = false ∧ (r = mkRef .dp .read .a0 ∨ r = mkRef .dp .read .a1)

/-- A transaction that comes between an AP read and its RDBUFF read "loses or replaces the buffered value" (R302): of
the buffer nothing is known then. An AP read that is performed replaces the buffer itself (`Target.readWord`). The
conditions are the model's reading (notes/assumptions/27.md). -/
def Target.losesBuffer (fresh : Nat → Word) (c : Choice) (r : RegRef) (t : Target) : Target :=
  if t.unread = true ∧ ¬ c.spares r then { t with buf := fresh 4, unread := false } else t

/-- Whether an AP access takes effect: CDBGPWRUPACK is set, or the debug domain, which "may be unpowered" without it,
has power all the same (R303; notes/assumptions/28.md). It does not depend on CSW (notes/assumptions/12.md). -/
def Target.apReached (c : Choice) (t : Target) : Bool := t.stat.getLsbD 29 || !c.unpowered

/-! ### Answering a transaction -/

/-- The acknowledgement a conforming target gives: its choice, but FAULT for an AP access while a sticky error is
set (R259, R307); "DPIDR reads and ABORT writes still answer" where the choice is FAULT (R259, R200), and an ABORT
write also where it is WAIT (R204; notes/assumptions/9.md). -/
def Target.ackFor (c : Choice) (r : RegRef) (t : Target) : AckCode :=
  if r.port = .ap ∧ t.sticky = true then .fault
  else if r.port = .dp ∧ r.slot = .a0 then
    match c.ack, r.dir with
    | .fault, _ => .ok
    | .wait, .write => .ok
    | a, _ => a
  else c.ack

/-- The word a conforming target sends for a read answered OK, and the target after it (R41, R47, R48, R64): an
AP read "returns old buf ; buf <- AP[bank, a]", an RDBUFF read leaves the buffer unchanged. An AP read that has no
effect for want of power (R303) sends a word the spec does not give (notes/assumptions/28.md). -/
def Target.readWord (fresh : Nat → Word) (c : Choice) (r : RegRef) (t : Target) : Word × Target :=
  match r.port with
  | .dp =>
    match r.slot with
    | .a0 => (t.dpidrRead, t.losesBuffer fresh c r)
    | .a1 => (if dpBankSel t.select = 0 then t.statRead else fresh 0, t.losesBuffer fresh c r)
    | .a2 => (t.resent, t.losesBuffer fresh c r)
    | .a3 => (t.buf, { t with resent := t.buf, unread := false })
  | .ap =>
    if t.apReached c then
      let (w, u) := t.apRead fresh r.slot
      (t.buf, { u with buf := w, unread := true, resent := t.buf })
    else (fresh 0, { t.losesBuffer fresh c r with resent := fresh 0 })

/-- The data phase of a read as the target drives it: D0..D31, then P (R96). -/
def dataLevels (w : Word) (p : Bool) : List (Option Bool) :=
  ((bitsOf 32 w.toNat) ++ [p]).map some

/-- A conforming target answers a header (R94 to R98): it drives nothing in `c0`, then its acknowledgement; when
that is OK and the transaction a read, the data phase; when it is OK and a write, it will take the data. A posted
AP write is performed before a transaction answered OK (R308), but for an ABORT write, which may abort it. An AP access
answered FAULT with no sticky error set sets STICKYERR (R250, R259); a WAIT "had no effect" (R72), nor has a transaction
that is not answered (notes/assumptions/9.md, 27.md). That nothing ever sets STICKYCMP or STICKYORUN (R43 does not say
when they are set), and that TRNCNT, MASKLANE, TRNMODE and ORUNDETECT change no answer, is the model's choice
(notes/assumptions/9.md, 25.md). -/
def Target.answer (fresh : Nat → Word) (c : Choice) (r : RegRef) (t : Target) : Target :=
  match t.ackFor c r with
  | .ok =>
    match r.dir with
    | .read =>
      let (w, u) := (t.performPosted fresh).readWord fresh c r
      { u with out := none :: ackLevels .ok ++ dataLevels w (parity w ^^ c.flipParity) }
    | .write =>
      let t := if r.port = .dp ∧ r.slot = .a0 then t else t.performPosted fresh
      { t.losesBuffer fresh c r with out := none :: ackLevels .ok, taking := some (r, c) }
  | .fault =>
    { t.losesBuffer fresh c r with
      out := none :: ackLevels .fault
      stat := if r.port = .ap ∧ t.sticky = false then t.stat ||| 0x20 else t.stat }
  | .wait => { t with out := none :: ackLevels .wait }
  | .noAck => { t with out := [] }

/-- The replies to come: the script, or, once that is at its end, `again` from its beginning (R227, R262). -/
def Target.coming (t : Target) : List Reply :=
  match t.script with
  | [] => t.again
  | r :: rest => r :: rest

/-- The target hears a header: it takes the next of its replies. With none left, and for a byte that is no
header (R108), nothing is known of what it drives. -/
def Target.hears (fresh : Nat → Word) (b : Header) (t : Target) : Target :=
  match t.coming with
  | [] => { t with out := [], taking := none }
  | .raw levels :: rest => { t with script := rest, out := levels, taking := none }
  | .conforming c :: rest =>
    let t := { t with script := rest, out := [], taking := none }
    match headerRef b with
    | none => t
    | some r => Target.answer fresh c r (if c.powerAck then t.acknowledgePower else t)

/-- Perform a write of a DP slot (R41 to R46): the slot the source names nothing for keeps what it holds, and so
does slot 1 of a DP bank other than 0 (notes/assumptions/11.md). A STAT write stores TRNCNT, MASKLANE, TRNMODE and
ORUNDETECT; R43 gives them no effect, and that they change no later access is the model's choice
(notes/assumptions/25.md). -/
def Target.dpWrite (fresh : Nat → Word) (slot : Slot) (w : Word) (t : Target) : Target :=
  match slot with
  | .a0 =>
    Target.performPosted fresh
      { t with stat := t.stat &&& ~~~(abortClears w), posted := if dapAbort w then none else t.posted }
  | .a1 => if dpBankSel t.select = 0 then { t with stat := merge statWritable t.stat w } else t
  | .a2 => { t with select := w }
  | .a3 => t

/-- Take the word of an AP write: it is performed at once or posted (R67), or has no effect for want of power (R303). -/
def Target.apTakes (fresh : Nat → Word) (c : Choice) (slot : Slot) (w : Word) (t : Target) : Target :=
  let p : PostedWrite := { select := t.select, slot := slot, word := w }
  if t.apReached c then
    if c.post then { t with posted := some p } else Target.apWrite fresh p t
  else t

/-- A conforming target takes the data phase of a write it acknowledged: the word and the parity bit the host drove,
the bit flipped on the line where the reply says so. A wrong parity bit sets WDATAERR and nothing is written (R187);
the posted write that an ABORT write came before is performed (R308). That the line flips the parity bit alone is the
model's choice (notes/assumptions/9.md): the word is dropped whichever bit is wrong. -/
def Target.takes (fresh : Nat → Word) (w : Word) (p : Bool) (t : Target) : Target :=
  match t.taking with
  | none => t
  | some (r, c) =>
    let t := { t with taking := none }
    if (p ^^ c.flipParity) = parity w then
      match r.port with
      | .dp => t.dpWrite fresh r.slot w
      | .ap => t.apTakes fresh c r.slot w
    else Target.performPosted fresh { t with stat := t.stat ||| 0x80 }

/-! ### The target in the state -/

/-- The target hears a header the engine has driven. -/
def State.targetHears (s : State) (b : Header) : State :=
  { s with target := s.target.hears (Config.freeWord s.draws) b }

/-- The last `n` cycles of the trace, as the bits the target took in them; a released cycle gives none. -/
def State.lastDriven (s : State) (n : Nat) : List Bool :=
  (s.trace.drop (s.trace.length - n)).filterMap fun c =>
    match c with
    | .h b => some b
    | .t _ => none

/-- The target takes the data phase of a write: the 33 bits the host drove last, D0 first, P last (R97, R186). A
line error is the reply's (`Choice.flipParity`; notes/assumptions/9.md). The draw it may use is not drawn again. -/
def State.targetTakes (s : State) : State :=
  let l := s.lastDriven 33
  { s with
    target := s.target.takes (Config.freeWord s.draws) (wordOf (l.take 32)) (l.getD 32 false)
    draws := s.draws + 1 }

end Sys2Proof.Machine
end

