-- ==== Sys2Proof/Machine/Line.lean ====
section
/-! DEFINITION. The line protocol (41_line_protocol.md): one read transaction (R176), one write transaction (R185)
and the line-reset sequence (R170), step by step over the transport primitives, with the parameters of R7 as an
argument. Each is entered from an operation that has checked its precondition (R161). The step numbers are the
position `seq` (R28), counted in the order of the rule's pseudocode, the error branch first. -/

namespace Sys2Proof.Machine

/-- Enter a transaction: it owns `op.ref`, and its ack and samples do not exist yet (R27, R30, R32). -/
def State.opens (s : State) (p : Pos) (r : RegRef) : State :=
  { s with seq := p :: s.seq, opRef := r, ack := none, rx := [] }

/-- The acknowledgement sampled in the ack frame (R30, R102). -/
def State.acked (s : State) (p : Params) : State := { s with ack := some (ackSample p (s.sample 0)) }

/-- The decoded acknowledgement of the present transaction (R95). -/
def State.ackCode (s : State) (p : Params) : AckCode := Machine.ackCode (ackSample p (s.sample 0))

/-- The header and ack phases, which every transaction opens with (R104, R105): `TxFrame(req)`, the receive path
on, width 5, one `XchgFrame`. `step` names the operation's step. That the target has heard the header only after the
wait for FrameComplete (R134), and not where that signal never comes, is the model's choice (notes/assumptions/17.md). -/
def requestPhase (p : Params) (step : Nat → Pos) (r : RegRef) (s : State) : Run :=
  (txFrame (req r).toNat (s.opens (step 0) r)).andThen fun s =>
  (rxEnable ((s.targetHears (req r)).goto (step 1))).andThen fun s =>
  (setWidth 5 (s.goto (step 2))).andThen fun s =>
  (xchgFrame p (s.goto (step 3))).andThen fun s =>
  .done (s.acked p)

/-- The data phase of a read (R96, R103, R176): three 11-bit frames, then the transport restored. -/
def readData (p : Params) (s : State) : Run :=
  (setWidth 11 (s.goto (.read 6))).andThen fun s =>
  (xchgFrame p (s.goto (.read 7))).andThen fun s =>
  (xchgFrame p (s.goto (.read 8))).andThen fun s =>
  (xchgFrame p (s.goto (.read 9))).andThen fun s =>
  let w := rxWord p (s.sample 0) (s.sample 1) (s.sample 2) (s.sample 3)
  let r := readResult w (rxParity p (s.sample 3))
  (setWidth 8 (s.goto (.read 10))).andThen fun s =>
  (rxDisable (s.goto (.read 11))).andThen fun s =>
  .done (s.returns (some w) r)

/-- `RD ref` as a transaction (R176 to R179). -/
def readTransaction (p : Params) (port : Port) (slot : Slot) (s : State) : Run :=
  (requestPhase p .read (mkRef port .read slot) s).andThen fun s =>
  match s.ackCode p with
  | .ok => readData p s
  | .wait => errorExit (.read 4) (.read 5) .wait s
  | .fault => errorExit (.read 4) (.read 5) .fault s
  | .noAck => errorExit (.read 4) (.read 5) .noAck s

/-- The data phase of a write (R97, R105, R185): the word and its parity bit in a double and a single frame, then
the width restored. That the target takes the word only after the last wait for FrameComplete (R134), and not where
that signal never comes, is the model's choice (notes/assumptions/17.md). -/
def writeData (v : Word) (s : State) : Run :=
  (rxDisable (s.goto (.write 6))).andThen fun s =>
  (setWidth 11 (s.goto (.write 7))).andThen fun s =>
  (txDouble (txData0 v) (txData1 v) (s.goto (.write 8))).andThen fun s =>
  (txFrame (txData2 v) (s.goto (.write 9))).andThen fun s =>
  (setWidth 8 (s.targetTakes.goto (.write 10))).andThen fun s =>
  .done (s.returns none .ok)

/-- The ghost after a write answered OK: set by a write of SELECT, else unchanged (R35). -/
def State.shadows (s : State) (port : Port) (slot : Slot) (v : Word) : State :=
  if port = .dp ∧ slot = .a2 then { s with selShadow := some v } else s

/-- `WR ref, v` as a transaction (R185 to R187). -/
def writeTransaction (p : Params) (port : Port) (slot : Slot) (v : Word) (s : State) : Run :=
  (requestPhase p .write (mkRef port .write slot) { s with opWdata := v }).andThen fun s =>
  match s.ackCode p with
  | .ok => (writeData v s).andThen fun s => .done (s.shadows port slot v)
  | .wait => errorExit (.write 4) (.write 5) .wait s
  | .fault => errorExit (.write 4) (.write 5) .fault s
  | .noAck => errorExit (.write 4) (.write 5) .noAck s

/-- The frames of a line reset before its DPIDR read (R100, R170). -/
def lineResetFrames (p : Params) : List Nat :=
  List.replicate (p.nPre / 8) 0xFF ++ [0x9E, 0xE7] ++ List.replicate (p.nPost / 8) 0xFF
    ++ List.replicate (p.nIdle / 8) 0x00

/-- Transmit frames one after the other, the first of them being step `k` of the line reset (R170). -/
def sendFrames (k : Nat) (l : List Nat) (s : State) : Run :=
  match l with
  | [] => .done (s.goto (.lineReset k))
  | v :: l => (txFrame v (s.goto (.lineReset k))).andThen (sendFrames (k + 1) l)

/-- The line reset: its frames, then the DPIDR read, whose outputs are its own (R170). -/
def lineResetTransaction (p : Params) (s : State) : Run :=
  (sendFrames 0 (lineResetFrames p) { s with seq := .lineReset 0 :: s.seq }).andThen fun s =>
  (readTransaction p .dp .a0 s).andThen fun s =>
  .done { s with seq := s.seq.tail }

/-- A caller's `RD` (R161, R176). -/
def callRead (port : Port) (slot : Slot) (s : State) : Host.Outcome State Fault Refusal :=
  (callOnWire (fun s => (readTransaction Config.hw port slot s).andThen fun s => .done s.reports) s).outcome

/-- A caller's `WR` (R161, R185). -/
def callWrite (port : Port) (slot : Slot) (v : Word) (s : State) : Host.Outcome State Fault Refusal :=
  (callOnWire (fun s => (writeTransaction Config.hw port slot v s).andThen fun s => .done s.reports) s).outcome

end Sys2Proof.Machine
end

