-- ==== Sys2Proof/Machine/Access.lean ====
section
/-! DEFINITION. The register-access forms (42_dp_ap.md R200 to R215), the general `RD ref` and `WR ref, v`
(41_line_protocol.md R176, R185), `RDAP apreg` (30_encoding.md R107) and `LINERESET` (R170). Every form is a `RD` or
a `WR` with a fixed reference. -/

namespace Sys2Proof.Machine

/-- `RD DP.DPIDR`: `return RD(0, 0b00)` (R200). -/
def execRdDpDpidr (s : State) : Host.Outcome State Fault Refusal := callRead .dp .a0 s

/-- `RD DP.STAT`: `return RD(0, 0b01)` (R201). -/
def execRdDpStat (s : State) : Host.Outcome State Fault Refusal := callRead .dp .a1 s

/-- `RD DP.RESEND`: `return RD(0, 0b10)` (R202). -/
def execRdDpResend (s : State) : Host.Outcome State Fault Refusal := callRead .dp .a2 s

/-- `RD DP.RDBUFF`: `return RD(0, 0b11)` (R203). -/
def execRdDpRdbuff (s : State) : Host.Outcome State Fault Refusal := callRead .dp .a3 s

/-- `WR DP.ABORT, v`: `return WR(0, 0b00, v)` (R204). -/
def execWrDpAbort (v : Word) (s : State) : Host.Outcome State Fault Refusal := callWrite .dp .a0 v s

/-- `WR DP.STAT, v`: `return WR(0, 0b01, v)` (R205). -/
def execWrDpStat (v : Word) (s : State) : Host.Outcome State Fault Refusal := callWrite .dp .a1 v s

/-- `WR DP.SELECT, v`: `r <- WR(0, 0b10, v); if r = OK: selShadow <- v; return r` (R206). -/
def execWrDpSelect (v : Word) (s : State) : Host.Outcome State Fault Refusal := callWrite .dp .a2 v s

/-- `WR DP.A3, v`: `return WR(0, 0b11, v)` (R207). -/
def execWrDpA3 (v : Word) (s : State) : Host.Outcome State Fault Refusal := callWrite .dp .a3 v s

/-- `RD AP.A0`: `return RD(1, 0b00)` (R208). -/
def execRdApA0 (s : State) : Host.Outcome State Fault Refusal := callRead .ap .a0 s

/-- `RD AP.A1`: `return RD(1, 0b01)` (R209). -/
def execRdApA1 (s : State) : Host.Outcome State Fault Refusal := callRead .ap .a1 s

/-- `RD AP.A2`: `return RD(1, 0b10)` (R210). -/
def execRdApA2 (s : State) : Host.Outcome State Fault Refusal := callRead .ap .a2 s

/-- `RD AP.A3`: `return RD(1, 0b11)` (R211). -/
def execRdApA3 (s : State) : Host.Outcome State Fault Refusal := callRead .ap .a3 s

/-- `WR AP.A0, v`: `return WR(1, 0b00, v)` (R212). -/
def execWrApA0 (v : Word) (s : State) : Host.Outcome State Fault Refusal := callWrite .ap .a0 v s

/-- `WR AP.A1, v`: `return WR(1, 0b01, v)` (R213). -/
def execWrApA1 (v : Word) (s : State) : Host.Outcome State Fault Refusal := callWrite .ap .a1 v s

/-- `WR AP.A2, v`: `return WR(1, 0b10, v)` (R214). -/
def execWrApA2 (v : Word) (s : State) : Host.Outcome State Fault Refusal := callWrite .ap .a2 v s

/-- `WR AP.A3, v`: `return WR(1, 0b11, v)` (R215). -/
def execWrApA3 (v : Word) (s : State) : Host.Outcome State Fault Refusal := callWrite .ap .a3 v s

/-- `RD ref` (R176): the header is `req(APnDP, 1, A)`, whatever direction the reference is written with. -/
def execRdRef (ref : RegRef) (s : State) : Host.Outcome State Fault Refusal := callRead ref.port ref.slot s

/-- `WR ref, v` (R185): the header is `req(APnDP, 0, A)`, whatever direction the reference is written with. -/
def execWrRef (ref : RegRef) (v : Word) (s : State) : Host.Outcome State Fault Refusal :=
  callWrite ref.port ref.slot v s

/-- `RDAP apreg`: `RD apreg ; RD DP.RDBUFF`, "where the second is issued only if the first ends with
`result = OK`" (R107). -/
def rdapTransactions (p : Params) (slot : Slot) (s : State) : Run :=
  (readTransaction p .ap slot s).andThen fun s =>
  withResult s fun r =>
  match r with
  | .ok => (readTransaction p .dp .a3 s.reports).andThen fun s => .done s.reports
  | .wait | .fault | .noAck | .parity | .timeout => .done s.reports

/-- `RDAP apreg` (R107). -/
def execRdap (ref : RegRef) (s : State) : Host.Outcome State Fault Refusal :=
  (callOnWire (rdapTransactions Config.hw ref.slot) s).outcome

/-- `LINERESET` (R170). -/
def execLineReset (s : State) : Host.Outcome State Fault Refusal :=
  (callOnWire (fun s => (lineResetTransaction Config.hw s).andThen fun s => .done s.reports) s).outcome

end Sys2Proof.Machine
end

