-- ==== Sys2Proof/Machine/Link.lean ====
section
/-! DEFINITION. The link initialisation `DPINIT` (42_dp_ap.md R220 to R228). The call starts the state machine of
R221; each later step of the machine runs one transaction of it (in S1 the line reset) and moves `initState`. The
three loops have no bound (R227), so no single step could be the whole operation (notes/assumptions/16.md). -/

namespace Sys2Proof.Machine

/-- Start the state machine: `Idle → S1_Reset` on the call (R221); `idr` is "set to `none` at entry" (R220). -/
def State.startsInit (s : State) : State :=
  { s with seq := [.dpInit], initState := .s1Reset, idr := none }

/-- `DPINIT` (R220): the precondition of R161, then the state machine starts. -/
def execDpInit (s : State) : Host.Outcome State Fault Refusal :=
  (callOnWire (fun s => .done s.startsInit) s).outcome

/-- Where the state machine goes when the transaction of a state is answered OK, and, for a read whose word is
tested, with this word (R221, R223 to R225). -/
def initNextOk (i : InitState) (w : Word) : InitState :=
  match i with
  | .s1Reset => .s2SelBank15
  | .s2SelBank15 => .s3ReadStat
  | .s3ReadStat => if debugPowered w then .s4ApReadIdr else .s3WriteStat
  | .s3WriteStat => .s3ReadStat
  | .s4ApReadIdr => .s4ReadBuf
  | .s4ReadBuf => .s5SelBank0
  | .s5SelBank0 => .s6ApReadCsw
  | .s6ApReadCsw => .s6ReadBuf
  | .s6ReadBuf => if cswConfigured w then .s7ReadStat else .s6WriteCsw
  | .s6WriteCsw => .s6ApReadCsw
  | .s7ReadStat => if systemPowered w then .done else .s7WriteStat
  | .s7WriteStat => .s7ReadStat
  | .idle | .done | .failed => i

/-- "A Wait result of any transaction inside the step-3, step-6 or step-7 loop restarts that loop at its first
transaction"; anywhere else it ends the call (R222). -/
def initNextWait (i : InitState) : InitState :=
  match i with
  | .s3ReadStat | .s3WriteStat => .s3ReadStat
  | .s6ApReadCsw | .s6ReadBuf | .s6WriteCsw => .s6ApReadCsw
  | .s7ReadStat | .s7WriteStat => .s7ReadStat
  | .s1Reset | .s2SelBank15 | .s4ApReadIdr | .s4ReadBuf | .s5SelBank0 => .failed
  | .idle | .done | .failed => i

/-- Whether the word that a state's transaction returns is used: the tests of steps 3, 6 and 7, and the IDR
(R220). The words of the two AP reads are thrown away (R226). -/
def usesWord (i : InitState) : Bool :=
  match i with
  | .s3ReadStat | .s4ReadBuf | .s6ReadBuf | .s7ReadStat => true
  | .idle | .s1Reset | .s2SelBank15 | .s3WriteStat | .s4ApReadIdr | .s5SelBank0 | .s6ApReadCsw | .s6WriteCsw
  | .s7WriteStat | .done | .failed => false

/-- Take the word of the step-4 RDBUFF read as the AP IDR (R34, R220 S4). -/
def State.takesIdr (s : State) (w : Word) : State :=
  if s.initState = .s4ReadBuf then { s with idr := some w } else s

/-- After a transaction of `dp_init`: move the state machine by its result (R221, R222). -/
def initAdvance (s : State) : Run :=
  withResult s fun r =>
  match r with
  | .ok =>
    if usesWord s.initState then
      withValue s fun w => .done { s.takesIdr w with initState := initNextOk s.initState w }
    else .done { s with initState := initNextOk s.initState 0 }
  | .wait => .done { s with initState := initNextWait s.initState }
  | .fault | .noAck | .parity | .timeout => .done { s with initState := .failed }

/-- "`Done` and `Failed` end the call and return `initState` to `Idle`" (R221): the outputs are written (R31, R220)
and become an output of the engine. -/
def State.endsInit (s : State) (v : Option Word) (r : Option Result) : State :=
  { s with value := v, result := r, initState := .idle, seq := [] }.reports

/-- One step of `dp_init` (R220): the transaction of the state the machine is in, or the end of the call. The word
a STAT or CSW write is made from is the one the read before it returned (R44, R224). -/
def initStep (p : Params) (s : State) : Run :=
  match s.initState with
  | .idle => .done s
  | .s1Reset => (lineResetTransaction p s).andThen initAdvance
  | .s2SelBank15 => (writeTransaction p .dp .a2 selectBank15 s).andThen initAdvance
  | .s3ReadStat => (readTransaction p .dp .a1 s).andThen initAdvance
  | .s3WriteStat =>
    withValue s fun w => (writeTransaction p .dp .a1 (statWrite w cdbgPwrUpReq) s).andThen initAdvance
  | .s4ApReadIdr => (readTransaction p .ap .a3 s).andThen initAdvance
  | .s4ReadBuf => (readTransaction p .dp .a3 s).andThen initAdvance
  | .s5SelBank0 => (writeTransaction p .dp .a2 selectBank0 s).andThen initAdvance
  | .s6ApReadCsw => (readTransaction p .ap .a0 s).andThen initAdvance
  | .s6ReadBuf => (readTransaction p .dp .a3 s).andThen initAdvance
  | .s6WriteCsw => withValue s fun w => (writeTransaction p .ap .a0 (cswRewrite w) s).andThen initAdvance
  | .s7ReadStat => (readTransaction p .dp .a1 s).andThen initAdvance
  | .s7WriteStat =>
    withValue s fun w => (writeTransaction p .dp .a1 (statWrite w csysPwrUpReq) s).andThen initAdvance
  | .done => .done (s.endsInit s.idr (some .ok))
  | .failed => .done (s.endsInit none s.result)

end Sys2Proof.Machine
end

