-- ==== Sys2Proof/Machine/Session.lean ====
section
/-! DEFINITION. The session operations `INIT`, `ENGAGE` and `DISENGAGE` (40_transport.md R131, R137, R138;
70_reset_and_hazards.md R290). None clocks a wire cycle; what drives the pins is a function of the phase
(R25, R26). -/

namespace Sys2Proof.Machine

/-- The engine's reset (R290): the state of R39's table "after `init`". `op.ref` and `op.wdata` are unspecified
there and keep what they hold (notes/assumptions/2.md). -/
def State.initialised (s : State) : State :=
  { s with
    phase := .released, width := .w8, rxEn := false, seq := []
    value := none, result := none, ack := none, rx := []
    initState := .idle, idr := none, selShadow := none }

/-- `INIT` (R131, R290). -/
def execInit (s : State) : Host.Outcome State Fault Refusal :=
  if s.phase = .off then .next s.initialised else .refused .initNotOff

/-- `ENGAGE` (R137). -/
def execEngage (s : State) : Host.Outcome State Fault Refusal :=
  if s.phase = .released then .next { s with phase := .engaged } else .refused .engageNotReleased

/-- `DISENGAGE` (R138). -/
def execDisengage (s : State) : Host.Outcome State Fault Refusal :=
  if s.phase = .engaged ∧ s.seq = [] then .next { s with phase := .released } else .refused .disengageNotEngaged

end Sys2Proof.Machine
end

