-- ==== Sys2Proof/Machine/Dispatch.lean ====
section
/-! DEFINITION. One arm for each operation of spec/opcode_table.json. -/

namespace Sys2Proof.Machine

/-- What an operation does when a caller calls it. -/
def exec (i : Instr) (s : State) : Host.Outcome State Fault Refusal :=
  match i with
  | .rdDpDpidr => Sys2Proof.Machine.execRdDpDpidr s
  | .rdDpStat => Sys2Proof.Machine.execRdDpStat s
  | .rdDpResend => Sys2Proof.Machine.execRdDpResend s
  | .rdDpRdbuff => Sys2Proof.Machine.execRdDpRdbuff s
  | .wrDpAbort v => Sys2Proof.Machine.execWrDpAbort v s
  | .wrDpStat v => Sys2Proof.Machine.execWrDpStat v s
  | .wrDpSelect v => Sys2Proof.Machine.execWrDpSelect v s
  | .wrDpA3 v => Sys2Proof.Machine.execWrDpA3 v s
  | .rdApA0 => Sys2Proof.Machine.execRdApA0 s
  | .rdApA1 => Sys2Proof.Machine.execRdApA1 s
  | .rdApA2 => Sys2Proof.Machine.execRdApA2 s
  | .rdApA3 => Sys2Proof.Machine.execRdApA3 s
  | .wrApA0 v => Sys2Proof.Machine.execWrApA0 v s
  | .wrApA1 v => Sys2Proof.Machine.execWrApA1 v s
  | .wrApA2 v => Sys2Proof.Machine.execWrApA2 v s
  | .wrApA3 v => Sys2Proof.Machine.execWrApA3 v s
  | .rdRef ref => Sys2Proof.Machine.execRdRef ref s
  | .wrRef ref v => Sys2Proof.Machine.execWrRef ref v s
  | .lineReset => Sys2Proof.Machine.execLineReset s
  | .rdap ref => Sys2Proof.Machine.execRdap ref s
  | .dpInit => Sys2Proof.Machine.execDpInit s
  | .init => Sys2Proof.Machine.execInit s
  | .engage => Sys2Proof.Machine.execEngage s
  | .disengage => Sys2Proof.Machine.execDisengage s

end Sys2Proof.Machine
end

