-- ==== Sys2Proof/Machine/Fetch.lean ====
section
/-! DEFINITION. What a step takes up: the next call of the caller (10_state.md R20 c) while the engine is Idle, or
the operation in progress (R28, R75). -/

namespace Sys2Proof.Machine

/-- The next call and the state without it; none when the caller makes no call. -/
def State.nextCall (s : State) : Option (CallWord × State) :=
  match s.calls with
  | [] => none
  | c :: rest => some (c, { s with calls := rest })

/-- Put a call word before the caller's other calls. -/
def State.placeCall (s : State) (c : CallWord) : State := { s with calls := c :: s.calls }

/-- An operation in progress goes on: `dp_init` between two transactions takes its next step; any other position is
that of an operation that waits for a ready signal that never comes, and stays there (R262). -/
def resume (p : Params) (s : State) : Run :=
  if s.seq = [.dpInit] then initStep p s else .hung s

end Sys2Proof.Machine
end

