-- ==== Sys2Proof/Machine/Step.lean ====
section
/-! DEFINITION. One step of the machine: while the engine is Idle, the caller's next call is decoded and executed; an
operation in progress goes on first (10_state.md R20, R28; 20_memory.md R75). -/

namespace Sys2Proof.Machine

/-- One step. With no call pending the engine "waits for a call" (20_memory.md R73): nothing changes. -/
def step (s : State) : Host.Outcome State Fault Refusal :=
  if s.seq = [] then
    match s.nextCall with
    | none => .next s
    | some (c, t) =>
      match decode c with
      | .ok i => exec i t
      | .error _ => .refused .noSuchCall
  else (resume Config.hw s).outcome

/-- The state with the operation of an opcode-table word as the caller's next call. -/
def State.withFetchWord (s : State) (nbits w : Nat) : State := s.placeCall (tableWord nbits w)

end Sys2Proof.Machine
end

