-- ==== Sys2Proof/Machine/Asm.lean ====
section
/-! DEFINITION. The operation syntax (30_encoding.md R106): reading a written operation and writing one. What the
rule leaves open (blanks between words, the case of a hexadecimal digit) is notes/assumptions/26.md. -/

namespace Sys2Proof.Machine

/-- A written word: the characters between two blanks. -/
abbrev Written := List Char

/-- The words of a line: characters up to the next blank; a comma is a word of its own. The second argument is the
word read so far, its last character first. -/
def wordsFrom : List Char → Written → List Written
  | [], w => if w = [] then [] else [w.reverse]
  | c :: l, w =>
    let before := if w = [] then [] else [w.reverse]
    if c = ' ' then before ++ wordsFrom l []
    else if c = ',' then before ++ [','] :: wordsFrom l []
    else wordsFrom l (c :: w)

/-- `slot` (R106). -/
def slotOf (w : Written) : Option Slot :=
  match w with
  | ['0'] => some .a0
  | ['1'] => some .a1
  | ['2'] => some .a2
  | ['3'] => some .a3
  | _ => none

/-- `dpreg` (R106). -/
def dpNameOf (w : Written) : Option DpName :=
  match w with
  | 'D' :: 'P' :: '.' :: rest =>
    if rest = ['D', 'P', 'I', 'D', 'R'] then some .dpidr
    else if rest = ['A', 'B', 'O', 'R', 'T'] then some .abort
    else if rest = ['S', 'T', 'A', 'T'] then some .stat
    else if rest = ['S', 'E', 'L', 'E', 'C', 'T'] then some .select
    else if rest = ['R', 'E', 'S', 'E', 'N', 'D'] then some .resend
    else if rest = ['R', 'D', 'B', 'U', 'F', 'F'] then some .rdbuff
    else
      match rest with
      | 'A' :: slot => (slotOf slot).map DpName.a
      | _ => none
  | _ => none

/-- `apreg` (R106). -/
def apNameOf (w : Written) : Option ApName :=
  match w with
  | 'A' :: 'P' :: '.' :: rest =>
    if rest = ['C', 'S', 'W'] then some .csw
    else if rest = ['T', 'A', 'R'] then some .tar
    else if rest = ['D', 'R', 'W'] then some .drw
    else if rest = ['C', 'F', 'G'] then some .cfg
    else if rest = ['B', 'A', 'S', 'E'] then some .base
    else if rest = ['I', 'D', 'R'] then some .idr
    else
      match rest with
      | 'A' :: slot => (slotOf slot).map ApName.a
      | _ => none
  | _ => none

/-- The sixteen hexadecimal digits. -/
def hexDigits : List Char := ['0', '1', '2', '3', '4', '5', '6', '7', '8', '9', 'A', 'B', 'C', 'D', 'E', 'F']

/-- The value of a hexadecimal digit, of either case. -/
def hexValue (c : Char) : Option Nat := hexDigits.findIdx? (fun d => d == c || d.toLower == c)

/-- The value of a word of hexadecimal digits, `n` being that of the digits before it. -/
def hexFrom : Written → Nat → Option Nat
  | [], n => some n
  | c :: w, n =>
    match hexValue c with
    | some d => hexFrom w (n * 16 + d)
    | none => none

/-- `imm32`: "0x" followed by 1 to 8 hexadecimal digits, zero-extended (R106). -/
def imm32Of (w : Written) : Option Word :=
  match w with
  | '0' :: 'x' :: digits =>
    if 1 ≤ digits.length ∧ digits.length ≤ 8 then (hexFrom digits 0).map (BitVec.ofNat 32) else none
  | _ => none

/-- The reference a register name stands for in a direction; none where the name is not legal there (R106). -/
def refOf (d : Dir) (w : Written) : Option RegRef :=
  match dpNameOf w, apNameOf w with
  | some n, _ => (n.slot d).map (mkRef .dp d)
  | none, some n => some (mkRef .ap d n.slot)
  | none, none => none

/-- `op` (R106), from its words. -/
def opOf (l : List Written) : Option Instr :=
  match l with
  | [['I', 'N', 'I', 'T']] => some .init
  | [['E', 'N', 'G', 'A', 'G', 'E']] => some .engage
  | [['D', 'I', 'S', 'E', 'N', 'G', 'A', 'G', 'E']] => some .disengage
  | [['D', 'P', 'I', 'N', 'I', 'T']] => some .dpInit
  | [['L', 'I', 'N', 'E', 'R', 'E', 'S', 'E', 'T']] => some .lineReset
  | [['R', 'D'], r] => (refOf .read r).map fun r => accessForm r 0
  | [['R', 'D', 'A', 'P'], r] => (apNameOf r).map fun n => .rdap (mkRef .ap .read n.slot)
  | [['W', 'R'], r, [','], v] =>
    match refOf .write r, imm32Of v with
    | some r, some v => some (accessForm r v)
    | _, _ => none
  | _ => none

/-- The operation a line of the operation syntax names; none for a line that is no `op` (R106). -/
def assemble (l : List Char) : Option Instr := opOf (wordsFrom l [])

/-! ### Writing an operation -/

/-- The eight hexadecimal digits of a word, the most significant first. -/
def hexOf (v : Word) : Written :=
  [7, 6, 5, 4, 3, 2, 1, 0].map fun k => hexDigits.getD (v.toNat / 16 ^ k % 16) '0'

/-- The name that a slot has in either direction and in every bank (R106). -/
def slotName : Slot → Written
  | .a0 => ['A', '0']
  | .a1 => ['A', '1']
  | .a2 => ['A', '2']
  | .a3 => ['A', '3']

/-- The name of a port's slot. -/
def portSlotName (p : Port) (s : Slot) : Written :=
  match p with
  | .dp => 'D' :: 'P' :: '.' :: slotName s
  | .ap => 'A' :: 'P' :: '.' :: slotName s

/-- A DP register name as it is written (R106). -/
def DpName.written : DpName → Written
  | .dpidr => ['D', 'P', '.', 'D', 'P', 'I', 'D', 'R']
  | .abort => ['D', 'P', '.', 'A', 'B', 'O', 'R', 'T']
  | .stat => ['D', 'P', '.', 'S', 'T', 'A', 'T']
  | .select => ['D', 'P', '.', 'S', 'E', 'L', 'E', 'C', 'T']
  | .resend => ['D', 'P', '.', 'R', 'E', 'S', 'E', 'N', 'D']
  | .rdbuff => ['D', 'P', '.', 'R', 'D', 'B', 'U', 'F', 'F']
  | .a s => portSlotName .dp s

/-- An AP register name as it is written (R106). -/
def ApName.written : ApName → Written
  | .csw => ['A', 'P', '.', 'C', 'S', 'W']
  | .tar => ['A', 'P', '.', 'T', 'A', 'R']
  | .drw => ['A', 'P', '.', 'D', 'R', 'W']
  | .cfg => ['A', 'P', '.', 'C', 'F', 'G']
  | .base => ['A', 'P', '.', 'B', 'A', 'S', 'E']
  | .idr => ['A', 'P', '.', 'I', 'D', 'R']
  | .a s => portSlotName .ap s

/-- `RD` of a written register name. -/
def readLine (r : Written) : List Char := 'R' :: 'D' :: ' ' :: r

/-- `RDAP` of a written register name. -/
def rdapLine (r : Written) : List Char := 'R' :: 'D' :: 'A' :: 'P' :: ' ' :: r

/-- `WR` of a word to a written register name. -/
def writeLine (r : Written) (v : Word) : List Char :=
  'W' :: 'R' :: ' ' :: (r ++ ',' :: ' ' :: '0' :: 'x' :: hexOf v)

/-- `RD` of a slot. -/
def writtenRead (p : Port) (s : Slot) : List Char := readLine (portSlotName p s)

/-- `WR` of a slot. -/
def writtenWrite (p : Port) (s : Slot) (v : Word) : List Char := writeLine (portSlotName p s) v

/-- An operation in the operation syntax, its registers named by their slots (R106). -/
def written (i : Instr) : List Char :=
  match i with
  | .rdDpDpidr => writtenRead .dp .a0
  | .rdDpStat => writtenRead .dp .a1
  | .rdDpResend => writtenRead .dp .a2
  | .rdDpRdbuff => writtenRead .dp .a3
  | .wrDpAbort v => writtenWrite .dp .a0 v
  | .wrDpStat v => writtenWrite .dp .a1 v
  | .wrDpSelect v => writtenWrite .dp .a2 v
  | .wrDpA3 v => writtenWrite .dp .a3 v
  | .rdApA0 => writtenRead .ap .a0
  | .rdApA1 => writtenRead .ap .a1
  | .rdApA2 => writtenRead .ap .a2
  | .rdApA3 => writtenRead .ap .a3
  | .wrApA0 v => writtenWrite .ap .a0 v
  | .wrApA1 v => writtenWrite .ap .a1 v
  | .wrApA2 v => writtenWrite .ap .a2 v
  | .wrApA3 v => writtenWrite .ap .a3 v
  | .rdRef r => writtenRead r.port r.slot
  | .wrRef r v => writtenWrite r.port r.slot v
  | .lineReset => ['L', 'I', 'N', 'E', 'R', 'E', 'S', 'E', 'T']
  | .rdap r => rdapLine (portSlotName .ap r.slot)
  | .dpInit => ['D', 'P', 'I', 'N', 'I', 'T']
  | .init => ['I', 'N', 'I', 'T']
  | .engage => ['E', 'N', 'G', 'A', 'G', 'E']
  | .disengage => ['D', 'I', 'S', 'E', 'N', 'G', 'A', 'G', 'E']

end Sys2Proof.Machine
end

