-- ==== Sys2Proof/Safety.lean ====
section
/-! DEFINITION. The terms claims are stated in: when an operation can run to its end, what a whole transaction leaves
(41_line_protocol.md R176 to R178, R185; 30_encoding.md R99), the invariant of every step, and what a safe run is. -/

namespace Sys2Proof.Machine

/-! ### When an operation runs to its end -/

/-- "At entry `width = 8` and `rxEn = false`" (R161, R37), the session engaged, and the peripheral giving its ready
signals (R262). -/
structure Ready (s : State) : Prop where
  phase   : s.phase = .engaged
  width   : s.width = .w8
  rxEn    : s.rxEn = false
  signals : s.signals = none

/-- Ready, and no operation in progress: the precondition of R161. -/
structure ReadyIdle (s : State) : Prop extends Ready s where
  seq : s.seq = []

/-! ### What the line carries in a transaction -/

/-- The levels of the line in cycles `c0`, `c1`, ... of a transaction that opens in `s` with the header of `r`
(R99). -/
def lineLevels (s : State) (r : RegRef) (n : Nat) : List Bool := (s.targetHears (req r)).levels n

/-- The acknowledgement in cycles `c1` to `c3` (R94, R95, R99). -/
def answered (s : State) (r : RegRef) : AckCode := ackCode (ackOf ((lineLevels s r 4).drop 1))

/-- The word in cycles `c4` to `c35` of a read (R96, R177). -/
def answeredWord (s : State) (r : RegRef) : Word := wordOf ((lineLevels s r 36).drop 4)

/-- The parity bit in cycle `c36` of a read (R96, R177). -/
def answeredParity (s : State) (r : RegRef) : Bool := (s.targetHears (req r)).level 36

/-- The header on the wire: cycles `q0` to `q7` (R99). -/
def headerCycles (r : RegRef) : List Cycle := (bitsOf 8 (req r).toNat).map Cycle.h

/-- The released cycles `c0` to `c(n-1)` (R99). -/
def releasedCycles (s : State) (r : RegRef) (n : Nat) : List Cycle := (lineLevels s r n).map Cycle.t

/-- The data phase of a write on the wire: D0 to D31, then the parity bit (R97, R99). -/
def dataCycles (v : Word) : List Cycle := (bitsOf 32 v.toNat ++ [parity v]).map Cycle.h

/-- After the header and `n` released cycles. -/
def State.afterCycles (s : State) (r : RegRef) (n : Nat) : State :=
  { s with
    opRef := r, ack := none, rx := []
    trace := s.trace ++ headerCycles r ++ releasedCycles s r n
    draws := s.draws + n
    target :=
      { (s.targetHears (req r)).target with out := (s.targetHears (req r)).target.out.drop n } }

/-- What a whole `RD` leaves (R99, R176, R178), by the levels the line had. -/
def State.readEnds (s : State) (port : Port) (slot : Slot) : State :=
  let r := mkRef port .read slot
  if answered s r = .ok then
    { s.afterCycles r 38 with
      value := some (answeredWord s r)
      result := some (readResult (answeredWord s r) (answeredParity s r)) }
  else { s.afterCycles r 5 with value := none, result := some (resultOf (answered s r)) }

/-- The target after it has taken the word of a write that opened with the header of `r`. -/
def takenBy (s : State) (r : RegRef) (v : Word) : Target :=
  (s.afterCycles r 5).target.takes (Config.freeWord (s.draws + 5)) v (parity v)

/-- What a whole `WR` leaves (R99, R185), by the levels the line had. -/
def State.writeEnds (s : State) (port : Port) (slot : Slot) (v : Word) : State :=
  let r := mkRef port .write slot
  if answered s r = .ok then
    { s.afterCycles r 5 with
      opWdata := v, value := none, result := some .ok
      trace := s.trace ++ headerCycles r ++ releasedCycles s r 5 ++ dataCycles v
      draws := s.draws + 5 + 1
      target := takenBy s r v }.shadows port slot v
  else { s.afterCycles r 5 with opWdata := v, value := none, result := some (resultOf (answered s r)) }

/-- The wire cycles of a line reset before its DPIDR read (R100). -/
def lineResetCycles (p : Params) : List Cycle :=
  List.replicate p.nPre (Cycle.h true)
    ++ (bitsOf 8 0x9E ++ bitsOf 8 0xE7).map Cycle.h
    ++ List.replicate p.nPost (Cycle.h true) ++ List.replicate p.nIdle (Cycle.h false)

/-- What a whole line reset leaves (R170): its cycles, then the DPIDR read. -/
def State.lineResetEnds (s : State) (p : Params) : State :=
  { s with trace := s.trace ++ lineResetCycles p }.readEnds .dp .a0

/-! ### The forms of R200 to R215, R176 and R185 -/

/-- The read forms: the port and the slot each of them reads (R176, R200 to R203, R208 to R211). That an ill-formed
`RD ref` reads too is the model's choice (notes/assumptions/22.md). -/
def readForm (i : Instr) : Option (Port × Slot) :=
  match i with
  | .rdDpDpidr => some (.dp, .a0)
  | .rdDpStat => some (.dp, .a1)
  | .rdDpResend => some (.dp, .a2)
  | .rdDpRdbuff => some (.dp, .a3)
  | .rdApA0 => some (.ap, .a0)
  | .rdApA1 => some (.ap, .a1)
  | .rdApA2 => some (.ap, .a2)
  | .rdApA3 => some (.ap, .a3)
  | .rdRef r => some (r.port, r.slot)
  | .wrDpAbort _ | .wrDpStat _ | .wrDpSelect _ | .wrDpA3 _ | .wrApA0 _ | .wrApA1 _ | .wrApA2 _ | .wrApA3 _
  | .wrRef _ _ | .lineReset | .rdap _ | .dpInit | .init | .engage | .disengage => none

/-- The write forms: the port, the slot and the word each of them writes (R185, R204 to R207, R212 to R215). That an
ill-formed `WR ref, v` writes too is the model's choice (notes/assumptions/22.md). -/
def writeForm (i : Instr) : Option (Port × Slot × Word) :=
  match i with
  | .wrDpAbort v => some (.dp, .a0, v)
  | .wrDpStat v => some (.dp, .a1, v)
  | .wrDpSelect v => some (.dp, .a2, v)
  | .wrDpA3 v => some (.dp, .a3, v)
  | .wrApA0 v => some (.ap, .a0, v)
  | .wrApA1 v => some (.ap, .a1, v)
  | .wrApA2 v => some (.ap, .a2, v)
  | .wrApA3 v => some (.ap, .a3, v)
  | .wrRef r v => some (r.port, r.slot, v)
  | .rdDpDpidr | .rdDpStat | .rdDpResend | .rdDpRdbuff | .rdApA0 | .rdApA1 | .rdApA2 | .rdApA3 | .rdRef _
  | .lineReset | .rdap _ | .dpInit | .init | .engage | .disengage => none

/-- The operations that R161 (for `DPINIT`, R220) lets run only while engaged and Idle: all but the session
operations. -/
def onWire (i : Instr) : Bool :=
  match i with
  | .init | .engage | .disengage => false
  | .rdDpDpidr | .rdDpStat | .rdDpResend | .rdDpRdbuff | .wrDpAbort _ | .wrDpStat _ | .wrDpSelect _ | .wrDpA3 _
  | .rdApA0 | .rdApA1 | .rdApA2 | .rdApA3 | .wrApA0 _ | .wrApA1 _ | .wrApA2 _ | .wrApA3 _
  | .rdRef _ | .wrRef _ _ | .lineReset | .rdap _ | .dpInit => true

/-! ### Where the target's memory can change -/

/-- The address an AP write stores a word to when it is performed: that of the word TAR lies in, for a write of DRW
(R51, R52); none for any other. -/
def storeAddress (p : PostedWrite) (t : Target) : Option Nat :=
  if apSel p.select = Config.apSel ∧ apRegAt (apBankSel p.select) p.slot = some .drw then some t.drwAddress else none

/-- The address the posted write of a target, if it has one, stores to (R67). -/
def postedAddress (t : Target) : Option Nat :=
  match t.posted with
  | none => none
  | some p => storeAddress p t

/-- The address a write form stores to itself: for a write of an AP slot, that of the target as it takes the word
(after any posted write it performed when it answered). -/
def writeAddress (s : State) (port : Port) (slot : Slot) (v : Word) : Option Nat :=
  match port with
  | .dp => none
  | .ap =>
    let t := (s.targetHears (req (mkRef port .write slot))).target
    storeAddress { select := t.select, slot := slot, word := v } t

/-- A byte address outside the word stored at an address, if one is. -/
def outside (o : Option Nat) (x : Nat) : Prop := ∀ a, o = some a → x < a ∨ a + 4 ≤ x

/-- The bytes of memory, each read by its address. -/
def State.byte (s : State) (x : Nat) : Byte := s.target.mem.read x

/-! ### The target contract, as statements name it -/

/-- The word in a named AP register (R49 to R55): for DRW that of the memory word TAR lies in. -/
def Target.named (reg : ApReg) (t : Target) : Word :=
  match reg with
  | .csw => t.csw
  | .tar => t.tar
  | .drw => t.mem.readWord t.bigEndian t.drwAddress
  | .cfg => t.cfg
  | .base => t.base
  | .idr => t.idr

/-- The AP register a slot names now: that of the selected bank of AP 0 (R49, R62). -/
def Target.slotNames (t : Target) (slot : Slot) : Option ApReg :=
  if apSel t.select = Config.apSel then apRegAt (apBankSel t.select) slot else none

/-- The target as it meets a header: it has taken a conforming reply, leaving these for later, and acknowledged the power-up
requests if that is its choice (R43). -/
def Target.meets (t : Target) (c : Choice) (rest : List Reply) : Target :=
  let t := { t with script := rest, out := [], taking := none }
  if c.powerAck then t.acknowledgePower else t

/-- A reply of a conforming target that answers OK, sends the right parity bit, acknowledges the power-up requests,
performs every write at once and lets no AP access take effect before CDBGPWRUPACK is set. -/
def promptReply : Reply :=
  .conforming
    { ack := .ok, flipParity := false, powerAck := true, post := false, unpowered := true, dropsUnread := true }

/-- A reply of any target that answers WAIT. -/
def waitReply : Reply := .raw (none :: ackLevels .wait)

/-- A reply of any target that answers OK and drives this word. -/
def echoReply (w : Word) : Reply := .raw (none :: ackLevels .ok ++ dataLevels w (parity w))

/-- `dp_init` is between two of its transactions and can go on (R28, R33). -/
structure ReadyInit (s : State) : Prop extends Ready s where
  seq : s.seq = [.dpInit]

/-! ### The invariant -/

/-- Between two transactions: no operation in progress, or `dp_init` about to take its next step. -/
abbrev State.atRest (s : State) : Prop := s.seq = [] ∨ s.seq = [.dpInit]

/-- The states of `dp_init` that write a word made from the word read last (R220). -/
def writesReadWord (i : InitState) : Bool := i == .s3WriteStat || i == .s6WriteCsw || i == .s7WriteStat

/-- What every step keeps. -/
structure Invariant (s : State) : Prop where
  /-- R37, and R138 in `Released`: the transport is at width 8 with the receive path off. -/
  transport : s.phase ≠ .off → s.atRest → s.width = .w8 ∧ s.rxEn = false
  /-- An operation runs only while engaged (R161, R263). -/
  engaged   : s.seq ≠ [] → s.phase = .engaged
  /-- An engine stopped inside a transaction waits for a signal that does not come (R262). -/
  waiting   : ¬ s.atRest → s.signals = some 0
  /-- "It is `Idle` except while `dp_init` runs" (R33). -/
  initIdle  : s.initState = .idle ↔ .dpInit ∉ s.seq
  /-- `ack` and the samples are transient (R30, R32). -/
  transient : s.atRest → s.ack = none ∧ s.rx = []
  /-- The word a STAT or CSW write is made from has been read (R220). -/
  wordRead  : writesReadWord s.initState = true → s.value.isSome = true
  /-- The target's memory is in canonical form. -/
  memory    : s.target.mem.wf

/-! ### Safe runs -/

/-- A run of `n` steps from `s` is safe when it does not end in a fault: no output that does not exist is read
(R31). -/
def SafeRun (n : Nat) (s : State) : Prop := ∀ e, Host.Core.run core n s ≠ .fault e

end Sys2Proof.Machine
end

