-- ==== Sys2Proof/Certificates/Slice0/Obligations.lean ====
section
/-! DEFINITION. The statements for the provers, from the numbered rules of spec/. Each docstring names the rule; a
statement that rests on a choice of the model says so and names the log entry. -/

open Sys2Proof Sys2Proof.Machine

/-! ### Encodings (30_encoding.md) -/

/-- R93: the 16 header bytes. -/
def Obligations.RequestByteTable : Prop :=
  req (mkRef .dp .read .a0) = 0xA5 ∧ req (mkRef .dp .read .a1) = 0x8D ∧
  req (mkRef .dp .read .a2) = 0x95 ∧ req (mkRef .dp .read .a3) = 0xBD ∧
  req (mkRef .dp .write .a0) = 0x81 ∧ req (mkRef .dp .write .a1) = 0xA9 ∧
  req (mkRef .dp .write .a2) = 0xB1 ∧ req (mkRef .dp .write .a3) = 0x99 ∧
  req (mkRef .ap .read .a0) = 0x87 ∧ req (mkRef .ap .read .a1) = 0xAF ∧
  req (mkRef .ap .read .a2) = 0xB7 ∧ req (mkRef .ap .read .a3) = 0x9F ∧
  req (mkRef .ap .write .a0) = 0xA3 ∧ req (mkRef .ap .write .a1) = 0x8B ∧
  req (mkRef .ap .write .a2) = 0x93 ∧ req (mkRef .ap .write .a3) = 0xBB

/-- R90, R91: Start, APnDP, RnW, A2, A3, Parity, Stop, Park, each at its bit; the five bits 1 to 5 hold an even number
of ones. -/
def Obligations.HeaderFieldPositions : Prop :=
  ∀ r : RegRef,
    (req r).getLsbD 0 = true ∧
    ((req r).getLsbD 1 = true ↔ r.port = .ap) ∧
    ((req r).getLsbD 2 = true ↔ r.dir = .read) ∧
    ((req r).getLsbD 3 = true ↔ r.slot = .a1 ∨ r.slot = .a3) ∧
    ((req r).getLsbD 4 = true ↔ r.slot = .a2 ∨ r.slot = .a3) ∧
    (req r).getLsbD 5 =
      ((req r).getLsbD 1 ^^ (req r).getLsbD 2 ^^ (req r).getLsbD 3 ^^ (req r).getLsbD 4) ∧
    (req r).getLsbD 6 = false ∧
    (req r).getLsbD 7 = true ∧
    popcount ((req r).extractLsb' 1 5) % 2 = 0

/-- R108: a byte is a header exactly when Start = 1, Stop = 0, Park = 1 and its parity is right; it then has one
reference. R92: the XOR construction yields the byte of R90 for all 16 references; its skeleton constants are the
model's. -/
def Obligations.HeaderBytesAreExactly : Prop :=
  (∀ r : RegRef, reqBySkeleton r = req r) ∧
  ∀ b : Header,
    (headerRef b = none ↔
      b.getLsbD 0 = false ∨ b.getLsbD 6 = true ∨ b.getLsbD 7 = false ∨
        b.getLsbD 5 ≠ (b.getLsbD 1 ^^ b.getLsbD 2 ^^ b.getLsbD 3 ^^ b.getLsbD 4)) ∧
    ∀ r : RegRef, headerRef b = some r ↔ req r = b

/-- Decoding the call word of a well-formed operation gives it back. The call words are the model's
(notes/assumptions/3.md); their first byte is R93's header or R100's first byte. -/
def Obligations.DecodeOfEncode : Prop := ∀ i : Instr, WellFormed i → decode (encode i) = .ok i

/-- A call word that decodes names a well-formed operation whose call word it is: no two words name one operation
(notes/assumptions/3.md). -/
def Obligations.EncodeOfDecode : Prop := ∀ (c : CallWord) (i : Instr), decode c = .ok i → WellFormed i ∧ encode i = c

/-- Words written out from R93's bytes (the operand and form bytes above them are the model's,
notes/assumptions/3.md): a form of each family, and a byte with the wrong parity bit. -/
def Obligations.SampleWordsDecode : Prop :=
  decode 0x0000000000A5 = .ok .rdDpDpidr ∧
  decode 0x0000000000BD = .ok .rdDpRdbuff ∧
  decode 0x000000F000B1 = .ok (.wrDpSelect 0x000000F0) ∧
  decode 0x0000001E0081 = .ok (.wrDpAbort 0x1E) ∧
  decode 0x00000000009F = .ok .rdApA3 ∧
  decode 0xDEADBEEF00BB = .ok (.wrApA3 0xDEADBEEF) ∧
  decode 0x000000000187 = .ok (.rdRef (mkRef .ap .read .a0)) ∧
  decode 0x20000000018B = .ok (.wrRef (mkRef .ap .write .a1) 0x20000000) ∧
  decode 0x00000000029F = .ok (.rdap (mkRef .ap .read .a3)) ∧
  decode 0x0000000000FF = .ok .lineReset ∧
  decode 0x0000000003FF = .ok .dpInit ∧
  decode 0x000000000400 = .ok .init ∧
  decode 0x000000000500 = .ok .engage ∧
  decode 0x000000000600 = .ok .disengage ∧
  decode 0x000000000085 = .error .noSuchHeader ∧
  decodeTableWord 8 0xA5 = some .rdDpDpidr

/-- R106: an operation written in the operation syntax, its registers by their slot names, reads back; a general `RD`
or `WR` as the form its reference has. The six DP names and six AP names, as they are spelt, name their slots in the
directions where they are legal and are refused in the others; `RDAP` takes every AP name. How blanks and digits are
read is the model's (notes/assumptions/26.md). -/
def Obligations.WrittenOperationReadsBack : Prop :=
  (∀ i : Instr, WellFormed i →
    assemble (written i) =
      some (match i with
        | .rdRef r => accessForm r 0
        | .wrRef r v => accessForm r v
        | i => i)) ∧
  (DpName.dpidr.written = "DP.DPIDR".toList ∧ DpName.abort.written = "DP.ABORT".toList ∧
    DpName.stat.written = "DP.STAT".toList ∧ DpName.select.written = "DP.SELECT".toList ∧
    DpName.resend.written = "DP.RESEND".toList ∧ DpName.rdbuff.written = "DP.RDBUFF".toList ∧
    ApName.csw.written = "AP.CSW".toList ∧ ApName.tar.written = "AP.TAR".toList ∧
    ApName.drw.written = "AP.DRW".toList ∧ ApName.cfg.written = "AP.CFG".toList ∧
    ApName.base.written = "AP.BASE".toList ∧ ApName.idr.written = "AP.IDR".toList) ∧
  (assemble (readLine DpName.dpidr.written) = some .rdDpDpidr ∧ assemble (readLine DpName.abort.written) = none ∧
    assemble (readLine DpName.stat.written) = some .rdDpStat ∧ assemble (readLine DpName.select.written) = none ∧
    assemble (readLine DpName.resend.written) = some .rdDpResend ∧
    assemble (readLine DpName.rdbuff.written) = some .rdDpRdbuff) ∧
  (∀ v : Word,
    assemble (writeLine DpName.dpidr.written v) = none ∧
    assemble (writeLine DpName.abort.written v) = some (.wrDpAbort v) ∧
    assemble (writeLine DpName.stat.written v) = some (.wrDpStat v) ∧
    assemble (writeLine DpName.select.written v) = some (.wrDpSelect v) ∧
    assemble (writeLine DpName.resend.written v) = none ∧ assemble (writeLine DpName.rdbuff.written v) = none) ∧
  ∀ (n : ApName) (slot : Slot) (v : Word),
    (slot = .a0 ∧ n = .csw ∨ slot = .a1 ∧ n = .tar ∨ slot = .a3 ∧ n = .drw ∨ slot = .a1 ∧ n = .cfg ∨
      slot = .a2 ∧ n = .base ∨ slot = .a3 ∧ n = .idr) →
    assemble (readLine n.written) = some (accessForm (mkRef .ap .read slot) 0) ∧
    assemble (writeLine n.written v) = some (accessForm (mkRef .ap .write slot) v) ∧
    assemble (rdapLine n.written) = some (.rdap (mkRef .ap .read slot))

/-! ### Power-on and the session operations (40_transport.md, 70_reset_and_hazards.md) -/

/-- R291: at power-on the phase is Off, the host drives no line, every operation but `INIT` is refused; no step leads
back to Off, and a second `INIT` is refused. -/
def Obligations.PowerOnState : Prop :=
  State.reset.phase = .off ∧ State.reset.drivesData = false ∧ State.reset.drivesClock = false ∧
  (∀ i : Instr, i ≠ .init → ∃ e, exec i State.reset = .refused e) ∧
  (∀ s t : State, step s = .next t → s.phase ≠ .off → t.phase ≠ .off) ∧
  ∀ s : State, s.phase ≠ .off → exec .init s = .refused .initNotOff

/-- R39: the table of reset values, its column "at power-on" for `State.reset` and its column "after `init`" for the
state `INIT` leaves; the unspecified entries are not stated. -/
def Obligations.ResetTable : Prop :=
  (State.reset.phase = .off ∧ State.reset.seq = [] ∧ State.reset.value = none ∧ State.reset.result = none ∧
    State.reset.ack = none ∧ State.reset.rx = [] ∧ State.reset.initState = .idle ∧ State.reset.idr = none ∧
    State.reset.selShadow = none) ∧
  ∀ s : State, s.phase = .off → ∃ t, exec .init s = .next t ∧
    t.phase = .released ∧ t.width = .w8 ∧ t.rxEn = false ∧ t.seq = [] ∧ t.value = none ∧ t.result = none ∧
    t.ack = none ∧ t.rx = [] ∧ t.initState = .idle ∧ t.idr = none ∧ t.selShadow = none

/-- R131: `INIT` from Off; no wire cycle, so the target is left alone; refused outside Off. -/
def Obligations.InitOperation : Prop :=
  (∀ s : State, s.phase = .off → ∃ t, exec .init s = .next t ∧
    t.phase = .released ∧ t.width = .w8 ∧ t.rxEn = false ∧ t.seq = [] ∧
    t.value = none ∧ t.idr = none ∧ t.selShadow = none ∧ t.initState = .idle ∧ t.trace = s.trace ∧
    t.outputs = s.outputs ∧ t.target = s.target) ∧
  ∀ s : State, s.phase ≠ .off → exec .init s = .refused .initNotOff

/-- R137: `ENGAGE` from Released changes the phase and nothing else; SWDIO and SWCLK are then driven; refused from Off
and Engaged. -/
def Obligations.EngageOperation : Prop :=
  (∀ s : State, s.phase = .released → exec .engage s = .next { s with phase := .engaged }) ∧
  (∀ s : State, s.rxEn = false → State.drivesData { s with phase := .engaged } = true) ∧
  (∀ s : State, State.drivesClock { s with phase := .engaged } = true) ∧
  ∀ s : State, s.phase ≠ .released → exec .engage s = .refused .engageNotReleased

/-- R138: `DISENGAGE` from Engaged and Idle changes the phase and nothing else, so width stays 8, the receive path off
and the target as it is; `DISENGAGE ; ENGAGE` resumes in the same state; refused from Off, Released and while an
operation runs. -/
def Obligations.DisengageOperation : Prop :=
  (∀ s : State, s.phase = .engaged → s.seq = [] → exec .disengage s = .next { s with phase := .released }) ∧
  (∀ s : State, s.phase = .engaged → exec .engage { s with phase := .released } = .next s) ∧
  ∀ s : State, (s.phase ≠ .engaged ∨ s.seq ≠ []) → exec .disengage s = .refused .disengageNotEngaged

/-- R161: every operation on the wire is refused outside Engaged and while another runs; at entry, in a state with the
invariant of the machine, the width is 8 and the receive path off. -/
def Obligations.WirePrecondition : Prop :=
  ∀ (i : Instr) (s : State), onWire i = true →
    (s.phase ≠ .engaged → exec i s = .refused .notEngaged) ∧
    (s.phase = .engaged → s.seq ≠ [] → exec i s = .refused .busy) ∧
    (Invariant s → s.phase = .engaged → s.seq = [] → s.width = .w8 ∧ s.rxEn = false)

/-! ### The transport primitives (40_transport.md) -/

/-- R132 and R109: `SetWidth`. -/
def Obligations.SetWidthPrimitive : Prop :=
  (∀ (w : Width) (s : State), s.phase = .engaged → setWidth w.bits s = .done { s with width := w }) ∧
  (∀ (n : Nat) (s : State), s.phase = .engaged → n ≠ 5 → n ≠ 8 → n ≠ 11 → setWidth n s = .refused .badWidth) ∧
  (∀ (n : Nat) (s : State), s.phase ≠ .engaged → setWidth n s = .refused .notEngaged) ∧
  Width.w5.bits = 5 ∧ Width.w8.bits = 8 ∧ Width.w11.bits = 11

/-- R133 with R25: `RxEnable` and `RxDisable`; the host drives SWDIO exactly while the receive path is off. -/
def Obligations.ReceivePathSwitch : Prop :=
  ∀ s : State,
    (s.phase = .engaged →
      rxEnable s = .done { s with rxEn := true } ∧ rxDisable s = .done { s with rxEn := false } ∧
      State.drivesData { s with rxEn := true } = false ∧ State.drivesData { s with rxEn := false } = true) ∧
    (s.phase ≠ .engaged → rxEnable s = .refused .notEngaged ∧ rxDisable s = .refused .notEngaged)

/-- R134: `TxFrame(v)`: `width` driven cycles, bit 0 first, and nothing else; its three refusals, in their order; and
with no ready signal to come it waits for ever. -/
def Obligations.TxFramePrimitive : Prop :=
  ∀ (v : Nat) (s : State),
    (s.phase = .engaged → s.rxEn = false → v < 2 ^ s.width.bits → s.signals = none →
      txFrame v s =
        .done { s with trace := s.trace ++ (List.range s.width.bits).map fun i => Cycle.h (v.testBit i) }) ∧
    (s.phase ≠ .engaged → txFrame v s = .refused .notEngaged) ∧
    (s.phase = .engaged → s.rxEn = true → txFrame v s = .refused .txWhileRx) ∧
    (s.phase = .engaged → s.rxEn = false → 2 ^ s.width.bits ≤ v → txFrame v s = .refused .txValueTooWide) ∧
    (s.phase = .engaged → s.rxEn = false → v < 2 ^ s.width.bits → s.signals = some 0 → txFrame v s = .hung s)

/-- R135: `TxDouble(v1, v2)`: `2 * width` cycles, `v1` first; the requirements of `TxFrame`. -/
def Obligations.TxDoublePrimitive : Prop :=
  ∀ (v1 v2 : Nat) (s : State),
    (s.phase = .engaged → s.rxEn = false → v1 < 2 ^ s.width.bits → v2 < 2 ^ s.width.bits → s.signals = none →
      txDouble v1 v2 s =
        .done { s with trace := s.trace ++ (bitsOf s.width.bits v1 ++ bitsOf s.width.bits v2).map Cycle.h }) ∧
    (s.phase ≠ .engaged → txDouble v1 v2 s = .refused .notEngaged) ∧
    (s.phase = .engaged → s.rxEn = true → txDouble v1 v2 s = .refused .txWhileRx) ∧
    (s.phase = .engaged → s.rxEn = false → 2 ^ s.width.bits ≤ v1 → txDouble v1 v2 s = .refused .txValueTooWide) ∧
    (s.phase = .engaged → s.rxEn = false → v1 < 2 ^ s.width.bits → 2 ^ s.width.bits ≤ v2 → s.signals = none →
      txDouble v1 v2 s = .refused .txValueTooWide)

/-- R136 with R101: `XchgFrame`: `width` released cycles; under offset 0 sample `j` is the line in cycle `j` of the
frame, under offset 1 that of the cycle before; its refusals; no ready signal, no end. -/
def Obligations.XchgFramePrimitive : Prop :=
  ∀ (p : Params) (s : State),
    (s.phase = .engaged → s.rxEn = true → s.signals = none →
      ∃ t, xchgFrame p s = .done t ∧
        t.trace = s.trace ++ (List.range s.width.bits).map (fun j => Cycle.t (s.level j)) ∧
        (∃ l, t.rx = s.rx ++ [l] ∧ l.length = s.width.bits ∧
          (p.rxOffset = .same → ∀ j, j < s.width.bits → l[j]? = some (s.level j)) ∧
          (p.rxOffset = .late → ∀ j, j + 1 < s.width.bits → l[j + 1]? = some (s.level j)) ∧
          (p.rxOffset = .late → ∀ b, s.trace.getLast? = some (Cycle.t b) → l[0]? = some b)) ∧
        t.phase = s.phase ∧ t.width = s.width ∧ t.rxEn = s.rxEn ∧ t.value = s.value ∧ t.result = s.result ∧
        (∀ k, t.level k = s.level (s.width.bits + k))) ∧
    (s.phase ≠ .engaged → xchgFrame p s = .refused .notEngaged) ∧
    (s.phase = .engaged → s.rxEn = false → xchgFrame p s = .refused .rxDisabled) ∧
    (s.phase = .engaged → s.rxEn = true → s.signals = some 0 → xchgFrame p s = .hung s)

/-! ### Parity and acknowledgements -/

/-- R160: parity is the population count mod 2; a word and its parity bit hold an even number of ones; the source's
two values; the header's parity bit is the same function of its four variable bits. -/
def Obligations.ParityIsEven : Prop :=
  (∀ w : Word, (parity w).toNat = popcount w % 2) ∧
  (∀ w : Word, (bitsOf 32 w.toNat ++ [parity w]).count true % 2 = 0) ∧
  parity (0 : Word) = false ∧ parity (0xFFFFFFFF : Word) = false ∧
  ∀ r : RegRef, (req r).getLsbD 5 = parity r.variableBits

/-- R95: the eight acknowledgement patterns; R162: the result of each code. -/
def Obligations.AckDecoding : Prop :=
  ackCode 0b001 = .ok ∧ ackCode 0b010 = .wait ∧ ackCode 0b100 = .fault ∧
  ackCode 0b000 = .noAck ∧ ackCode 0b011 = .noAck ∧ ackCode 0b101 = .noAck ∧ ackCode 0b110 = .noAck ∧
  ackCode 0b111 = .noAck ∧
  resultOf .ok = .ok ∧ resultOf .wait = .wait ∧ resultOf .fault = .fault ∧ resultOf .noAck = .noAck

/-! ### One read and one write (41_line_protocol.md, 42_dp_ap.md) -/

/-- R176 to R178 with the cycle layout of R99: every read form, on a ready engine, completes, whatever the target
does: the header is driven; five released cycles; when the acknowledgement in `c1` to `c3` is OK, 33 more, the word
from `c4` on and the parity bit in `c36`; else no data phase, no value, the acknowledgement as result. Over an
ill-formed `RD ref` it rests on the model's choice (notes/assumptions/22.md). -/
def Obligations.ReadFormsComplete : Prop :=
  ∀ (i : Instr) (port : Port) (slot : Slot) (s : State),
    readForm i = some (port, slot) → ReadyIdle s →
    ∃ t, exec i s = .next t ∧
      t.width = .w8 ∧ t.rxEn = false ∧ t.seq = [] ∧ t.ack = none ∧ t.rx = [] ∧
      t.outputs = s.outputs ++ [(t.value, t.result)] ∧
      (answered s (mkRef port .read slot) = .ok →
        t.trace = s.trace ++ headerCycles (mkRef port .read slot) ++ releasedCycles s (mkRef port .read slot) 38 ∧
        t.value = some (answeredWord s (mkRef port .read slot)) ∧
        t.result = some (if answeredParity s (mkRef port .read slot) = parity (answeredWord s (mkRef port .read slot))
          then .ok else .parity)) ∧
      (answered s (mkRef port .read slot) ≠ .ok →
        t.trace = s.trace ++ headerCycles (mkRef port .read slot) ++ releasedCycles s (mkRef port .read slot) 5 ∧
        t.value = none ∧ t.result = some (resultOf (answered s (mkRef port .read slot))))

/-- R185, R186 with the cycle layout of R99: every write form, on a ready engine, completes, whatever the target does:
the header is driven; five released cycles; when the acknowledgement is OK the word, D0 first, and its parity bit are
driven; else nothing more. No value; the result is the acknowledgement, never Parity; `selShadow` is written by a write
of SELECT answered OK alone. Over an ill-formed `WR ref, v` it rests on the model's choice (notes/assumptions/22.md). -/
def Obligations.WriteFormsComplete : Prop :=
  ∀ (i : Instr) (port : Port) (slot : Slot) (v : Word) (s : State),
    writeForm i = some (port, slot, v) → ReadyIdle s →
    ∃ t, exec i s = .next t ∧
      t.width = .w8 ∧ t.rxEn = false ∧ t.seq = [] ∧ t.ack = none ∧ t.rx = [] ∧ t.value = none ∧
      t.outputs = s.outputs ++ [(none, t.result)] ∧
      t.result = some (resultOf (answered s (mkRef port .write slot))) ∧
      (answered s (mkRef port .write slot) = .ok →
        t.trace = s.trace ++ headerCycles (mkRef port .write slot) ++ releasedCycles s (mkRef port .write slot) 5 ++
          (bitsOf 32 v.toNat ++ [parity v]).map Cycle.h ∧
        t.selShadow = if port = .dp ∧ slot = .a2 then some v else s.selShadow) ∧
      (answered s (mkRef port .write slot) ≠ .ok →
        t.trace = s.trace ++ headerCycles (mkRef port .write slot) ++ releasedCycles s (mkRef port .write slot) 5 ∧
        t.selShadow = s.selShadow)

/-- R170 with R100: a line reset on a ready engine completes: its cycles, then one DPIDR read, whose value and result
are its own; `selShadow`, `idr`, `initState` and the target's SELECT are left alone (R36, R292). -/
def Obligations.LineResetCompletes : Prop :=
  ∀ s : State, ReadyIdle s →
    ∃ t, exec .lineReset s = .next t ∧
      t.width = .w8 ∧ t.rxEn = false ∧ t.seq = [] ∧ t.selShadow = s.selShadow ∧ t.idr = s.idr ∧
      t.initState = s.initState ∧ t.target.select = s.target.select ∧
      t.outputs = s.outputs ++ [(t.value, t.result)] ∧
      let cycles := s.trace ++ List.replicate 152 (Cycle.h true) ++
        [false, true, true, true, true, false, false, true, true, true, true, false, false, true, true, true].map
          Cycle.h ++
        List.replicate 152 (Cycle.h true) ++ List.replicate 8 (Cycle.h false) ++ headerCycles (mkRef .dp .read .a0)
      (answered s (mkRef .dp .read .a0) = .ok →
        t.trace = cycles ++ releasedCycles s (mkRef .dp .read .a0) 38 ∧
        t.value = some (answeredWord s (mkRef .dp .read .a0)) ∧
        t.result = some (readResult (answeredWord s (mkRef .dp .read .a0)) (answeredParity s (mkRef .dp .read .a0)))) ∧
      (answered s (mkRef .dp .read .a0) ≠ .ok →
        t.trace = cycles ++ releasedCycles s (mkRef .dp .read .a0) 5 ∧
        t.value = none ∧ t.result = some (resultOf (answered s (mkRef .dp .read .a0))))

/-- R107: `RDAP apreg` on a ready engine is `RD apreg`, and, only when that ends OK, `RD DP.RDBUFF`; its value and
result are those of the last of the two issued, so the RDBUFF read's where both ran. That each of the two gives an
output of its own is the model's choice (notes/assumptions/15.md). -/
def Obligations.RdapIsTwoReads : Prop :=
  ∀ (r : RegRef) (s : State), WellFormed (.rdap r) → ReadyIdle s →
    ∃ t, exec (.rdRef r) s = .next t ∧
      (t.result = some .ok → ∃ u, exec .rdDpRdbuff t = .next u ∧ exec (.rdap r) s = .next u) ∧
      (t.result ≠ some .ok → exec (.rdap r) s = .next t)

/-- R101 to R103: the two sample offsets, with any other parameters, give every read and every write the same end for
every target, and every line reset with the same counts; of `DPINIT` that is so of each of its transactions. -/
def Obligations.SampleOffsetUnobservable : Prop :=
  ∀ (p q : Params) (s : State), Ready s →
    (∀ port slot, readTransaction p port slot s = readTransaction q port slot s) ∧
    (∀ port slot v, writeTransaction p port slot v s = writeTransaction q port slot v s) ∧
    (p.Valid → q.Valid → p.nPre = q.nPre → p.nPost = q.nPost → p.nIdle = q.nIdle →
      lineResetTransaction p s = lineResetTransaction q s)

/-- R179: one flipped data bit with the original parity bit gives Parity, two give OK; the words 0 and all ones. -/
def Obligations.ReadBitErrors : Prop :=
  (∀ (w : Word) (k : Nat), k < 32 → readResult (w ^^^ (1#32 <<< k)) (parity w) = .parity) ∧
  (∀ (w : Word) (j k : Nat), j < 32 → k < 32 → j ≠ k →
    readResult (w ^^^ (1#32 <<< j) ^^^ (1#32 <<< k)) (parity w) = .ok) ∧
  readResult 0 false = .ok ∧ readResult 0xFFFFFFFF false = .ok ∧ readResult 0xFFFFFFFF true = .parity

/-- R179: what the line carries in `c0` and from `c37` on does not change a read's value or result. Two targets that
agree in `c1` to `c36` are read alike. -/
def Obligations.UnusedCyclesIgnored : Prop :=
  ∀ (i : Instr) (port : Port) (slot : Slot) (s : State) (l m : List (Option Bool)) (rest : List Reply),
    readForm i = some (port, slot) → ReadyIdle s →
    (∀ k, 1 ≤ k → k ≤ 36 → l.getD k none = m.getD k none) →
    ∃ t u,
      exec i { s with target := { s.target with script := .raw l :: rest } } = .next t ∧
      exec i { s with target := { s.target with script := .raw m :: rest } } = .next u ∧
      t.value = u.value ∧ t.result = u.result

/-- R188: against a target that acknowledges OK and echoes in the data phase of the read the 33 bits that the write
drove, whatever they are, a write followed by a read of the same port and slot returns the word, for every word. -/
def Obligations.WriteReadRoundTrip : Prop :=
  ∀ (port : Port) (slot : Slot) (v : Word) (echo : List Bool) (s : State) (rest : List Reply), ReadyIdle s →
    s.target.script = .raw (none :: ackLevels .ok) :: .raw (none :: ackLevels .ok ++ echo.map some) :: rest →
    ∃ t, exec (.wrRef (mkRef port .write slot) v) s = .next t ∧ t.result = some .ok ∧
      (echo = t.lastDriven 33 →
        ∃ u, exec (.rdRef (mkRef port .read slot)) t = .next u ∧ u.value = some v ∧ u.result = some .ok)

/-- R110 and R320: 46 cycles when the acknowledgement is OK and 13 otherwise, for reads and writes; 328 more for a line
reset with this hardware's parameters. Over an ill-formed reference it rests on the model's choice
(notes/assumptions/22.md). -/
def Obligations.CycleCounts : Prop :=
  ∀ (s : State), ReadyIdle s →
    (∀ i port slot, readForm i = some (port, slot) → ∃ t, exec i s = .next t ∧
      t.trace.length = s.trace.length + if answered s (mkRef port .read slot) = .ok then 46 else 13) ∧
    (∀ i port slot v, writeForm i = some (port, slot, v) → ∃ t, exec i s = .next t ∧
      t.trace.length = s.trace.length + if answered s (mkRef port .write slot) = .ok then 46 else 13) ∧
    (∃ t, exec .lineReset s = .next t ∧
      t.trace.length = s.trace.length + if answered s (mkRef .dp .read .a0) = .ok then 374 else 341)

/-- R163: from ANY state, every `RD`, `WR`, `LINERESET` and `RDAP` ends with width 8, the receive path off and `seq`
Idle, whichever result it returns; the one way not to end is to wait for a ready signal that does not come (R262). -/
def Obligations.TransportRestored : Prop :=
  ∀ (i : Instr) (s t : State), onWire i = true → i ≠ .dpInit → exec i s = .next t →
    (t.seq = [] ∧ t.width = .w8 ∧ t.rxEn = false ∧ t.ack = none ∧ t.rx = [] ∧ ∃ r, t.result = some r) ∨
    (¬ t.atRest ∧ t.signals = some 0)

/-! ### What an operation leaves unchanged -/

/-- The frame of the read forms: the destinations are `value`, `result`, the target's read buffer, RESEND's copy, the
power acknowledges of STAT and, for an AP read, STICKYERR; a posted write that an OK answer performs may write CSW, TAR
or memory; a read of AP slot 3 may advance TAR (R211). A DP read has no side effect on STAT (R72), and none on the
buffer but that one other than RDBUFF's may lose an unread word (R302). What a conforming target does to its registers
rests on the model's choices (notes/assumptions/8.md to 12.md, 25.md, 27.md, 28.md), and what an ill-formed `RD ref`
does on 22.md; of READOK nothing is said. -/
def Obligations.ReadFrame : Prop :=
  ∀ (i : Instr) (port : Port) (slot : Slot) (s t : State),
    readForm i = some (port, slot) → exec i s = .next t →
    t.phase = s.phase ∧ t.opWdata = s.opWdata ∧ t.initState = s.initState ∧ t.idr = s.idr ∧
    t.selShadow = s.selShadow ∧ t.calls = s.calls ∧
    t.target.dpidr = s.target.dpidr ∧ t.target.select = s.target.select ∧ t.target.cfg = s.target.cfg ∧
    t.target.base = s.target.base ∧ t.target.idr = s.target.idr ∧ t.target.again = s.target.again ∧
    t.target.stat &&& 0x57FFFF9F = s.target.stat &&& 0x57FFFF9F ∧
    (port = .dp → t.target.stat &&& 0x57FFFFBF = s.target.stat &&& 0x57FFFFBF) ∧
    (port = .dp → s.target.unread = false ∨ slot = .a3 → t.target.buf = s.target.buf) ∧
    (s.target.posted = none →
      t.target.posted = none ∧ t.target.csw = s.target.csw ∧
      (port = .dp ∨ slot ≠ .a3 ∨ cswAddrInc s.target.csw = 0 → t.target.tar = s.target.tar)) ∧
    ∀ x, outside (postedAddress s.target) x → t.byte x = s.byte x

/-- The frame of the write forms. A write of an AP slot stores to memory only where `writeAddress` says (a write of DRW
in bank 0 of AP 0); an OK answer may first perform a posted write; the buffer changes only where it holds an unread word
(R302); STAT, but by a write of ABORT or STAT, only in the power acknowledges and WDATAERR and, for an AP write,
STICKYERR. What a conforming target does to its registers rests on the model's choices (notes/assumptions/8.md to 12.md,
25.md, 27.md, 28.md), and what an ill-formed `WR ref, v` does on 22.md; of READOK nothing is said. -/
def Obligations.WriteFrame : Prop :=
  ∀ (i : Instr) (port : Port) (slot : Slot) (v : Word) (s t : State),
    writeForm i = some (port, slot, v) → exec i s = .next t →
    t.phase = s.phase ∧ t.opWdata = v ∧ t.initState = s.initState ∧ t.idr = s.idr ∧ t.calls = s.calls ∧
    (¬ (port = .dp ∧ slot = .a2) → t.selShadow = s.selShadow ∧ t.target.select = s.target.select) ∧
    t.target.dpidr = s.target.dpidr ∧ t.target.cfg = s.target.cfg ∧ t.target.base = s.target.base ∧
    t.target.idr = s.target.idr ∧ t.target.again = s.target.again ∧ t.target.resent = s.target.resent ∧
    (s.target.unread = false → t.target.buf = s.target.buf) ∧
    (s.target.posted = none → ¬ (port = .ap ∧ slot = .a0) → t.target.csw = s.target.csw) ∧
    (s.target.posted = none → ¬ (port = .ap ∧ (slot = .a1 ∨ slot = .a3)) → t.target.tar = s.target.tar) ∧
    (port = .ap → t.target.stat &&& 0x57FFFF1F = s.target.stat &&& 0x57FFFF1F) ∧
    (port = .dp → slot ≠ .a0 → slot ≠ .a1 → t.target.stat &&& 0x57FFFF3F = s.target.stat &&& 0x57FFFF3F) ∧
    ∀ x, outside (postedAddress s.target) x → outside (writeAddress s port slot v) x → t.byte x = s.byte x

/-- The frame of the other operations. `LINERESET` and `RDAP` leave the phase, `op.wdata`, `initState`, `idr`, the
ghost, the calls, the target's SELECT, every byte of memory but where a posted write stores, and, with none posted, CSW;
of STAT, TAR and the buffers nothing is said here. `INIT`, `ENGAGE`, `DISENGAGE` and the call of `DPINIT` touch neither
the wire, the outputs nor the target. A step of `dp_init` leaves the phase, the calls, and every byte of memory but
where a posted write stores. That `INIT` keeps `op.ref` and `op.wdata`, when and where a posted write stores, what an
ill-formed `RDAP` does, and that a line reset is to the target its DPIDR read alone, is the model's choice
(notes/assumptions/2.md, 10.md, 12.md, 22.md, 24.md). -/
def Obligations.OtherFrames : Prop :=
  (∀ (i : Instr) (s t : State), (i = .lineReset ∨ ∃ r, i = .rdap r) → exec i s = .next t →
    t.phase = s.phase ∧ t.opWdata = s.opWdata ∧ t.initState = s.initState ∧ t.idr = s.idr ∧
    t.selShadow = s.selShadow ∧ t.calls = s.calls ∧ t.target.select = s.target.select ∧
    (∀ x, outside (postedAddress s.target) x → t.byte x = s.byte x) ∧
    (s.target.posted = none → t.target.csw = s.target.csw)) ∧
  (∀ (i : Instr) (s t : State), (i = .init ∨ i = .engage ∨ i = .disengage ∨ i = .dpInit) → exec i s = .next t →
    t.trace = s.trace ∧ t.outputs = s.outputs ∧ t.calls = s.calls ∧ t.opRef = s.opRef ∧ t.opWdata = s.opWdata ∧
    t.signals = s.signals ∧ t.draws = s.draws ∧ t.target = s.target) ∧
  ∀ s t : State, s.seq = [.dpInit] → step s = .next t →
    t.phase = s.phase ∧ t.calls = s.calls ∧ ∀ x, outside (postedAddress s.target) x → t.byte x = s.byte x

/-- R42, R53 to R55: no step of the machine changes DPIDR, CFG, BASE or IDR. That a write of the last three leaves them
is the model's choice (notes/assumptions/11.md): R57 leaves it to the target. -/
def Obligations.IdentityRegistersReadOnly : Prop :=
  ∀ s t : State, step s = .next t →
    t.target.dpidr = s.target.dpidr ∧ t.target.cfg = s.target.cfg ∧ t.target.base = s.target.base ∧
    t.target.idr = s.target.idr

/-- R63: the target's SELECT changes by a write of DP slot 2 alone: no other operation changes it, no line reset, no
`DISENGAGE` and no `ENGAGE` among them. -/
def Obligations.BankPersists : Prop :=
  ∀ (i : Instr) (s t : State), (∀ v, writeForm i ≠ some (.dp, .a2, v)) → exec i s = .next t →
    t.target.select = s.target.select

/-! ### The ghost `selShadow` (R35) -/

/-- R35: a write of SELECT that ends OK sets it to the word written; one that does not leaves it; `INIT` makes it none;
every other operation leaves it; in `dp_init` only the two SELECT writes of R220 set it. -/
def Obligations.SelShadowRule : Prop :=
  (∀ (i : Instr) (s t : State), exec i s = .next t → i ≠ .init → (∀ v, writeForm i ≠ some (.dp, .a2, v)) →
    t.selShadow = s.selShadow) ∧
  (∀ (i : Instr) (v : Word) (s t : State), writeForm i = some (.dp, .a2, v) → exec i s = .next t → t.seq = [] →
    t.selShadow = if t.result = some .ok then some v else s.selShadow) ∧
  (∀ s t : State, exec .init s = .next t → t.selShadow = none) ∧
  ∀ s t : State, s.seq = [.dpInit] → step s = .next t →
    t.selShadow = s.selShadow ∨
    (s.initState = .s2SelBank15 ∧ t.result = some .ok ∧ t.selShadow = some 0x000000F0) ∨
    (s.initState = .s5SelBank0 ∧ t.result = some .ok ∧ t.selShadow = some 0x00000000)

/-- R35: the ghost "changes no output of any operation": two states that differ in it alone step alike, and what they
step to differs in it alone. -/
def Obligations.SelShadowInvisible : Prop :=
  ∀ (s : State) (g : Option Word),
    match step s with
    | .next t => ∃ h, step { s with selShadow := g } = .next { t with selShadow := h }
    | .fault e => step { s with selShadow := g } = .fault e
    | .refused e => step { s with selShadow := g } = .refused e

/-! ### Waits without end (R262) -/

/-- R262: an engine that waits for a ready signal that never comes clocks no cycle, gives no output and makes no
further move. -/
def Obligations.SignalNeverComes : Prop :=
  (∀ s : State, ¬ s.atRest → step s = .next s) ∧
  ∀ (i : Instr) (s : State), onWire i = true → i ≠ .dpInit →
    s.phase = .engaged → s.width = .w8 → s.rxEn = false → s.seq = [] → s.signals = some 0 →
    ∃ t, exec i s = .next t ∧ ¬ t.atRest ∧ t.trace = s.trace ∧ t.outputs = s.outputs ∧ step t = .next t

/-! ### `DPINIT` (42_dp_ap.md) -/

/-- R221 to R225: each state of `dp_init` runs its transaction, and where it goes is decided by the result and by the
tests of steps 3, 6 and 7, each written out. -/
def Obligations.DpInitTransitions : Prop :=
  ∀ s : State, ReadyInit s →
    let read := fun (port : Port) (slot : Slot) => s.readEnds port slot
    let write := fun (port : Port) (slot : Slot) (v : Word) => s.writeEnds port slot v
    let goes := fun (u : State) (onOk onWait : InitState) =>
      step s = .next { u with
        initState := if u.result = some .ok then onOk else if u.result = some .wait then onWait else .failed }
    (s.initState = .s1Reset → goes (s.lineResetEnds Config.hw) .s2SelBank15 .failed) ∧
    (s.initState = .s2SelBank15 → goes (write .dp .a2 0x000000F0) .s3ReadStat .failed) ∧
    (s.initState = .s3ReadStat → ∀ w : Word, (read .dp .a1).value = some w →
      goes (read .dp .a1)
        (if w.getLsbD 29 = true ∧ w &&& 0x00FFFF0D = 0 then .s4ApReadIdr else .s3WriteStat) .s3ReadStat) ∧
    (s.initState = .s3ReadStat → (read .dp .a1).value = none → goes (read .dp .a1) .failed .s3ReadStat) ∧
    (s.initState = .s3WriteStat → ∀ w : Word, s.value = some w →
      goes (write .dp .a1 ((w &&& 0x54000000) ||| 0x10000000)) .s3ReadStat .s3ReadStat) ∧
    (s.initState = .s4ApReadIdr → goes (read .ap .a3) .s4ReadBuf .failed) ∧
    (s.initState = .s4ReadBuf →
      let u := read .dp .a3
      step s = .next { u with
        idr := if u.result = some .ok then u.value else s.idr
        initState := if u.result = some .ok then .s5SelBank0 else .failed }) ∧
    (s.initState = .s5SelBank0 → goes (write .dp .a2 0x00000000) .s6ApReadCsw .failed) ∧
    (s.initState = .s6ApReadCsw → goes (read .ap .a0) .s6ReadBuf .s6ApReadCsw) ∧
    (s.initState = .s6ReadBuf → ∀ w : Word, (read .dp .a3).value = some w →
      goes (read .dp .a3) (if w &&& 0x37 = 0x02 then .s7ReadStat else .s6WriteCsw) .s6ApReadCsw) ∧
    (s.initState = .s6ReadBuf → (read .dp .a3).value = none → goes (read .dp .a3) .failed .s6ApReadCsw) ∧
    (s.initState = .s6WriteCsw → ∀ w : Word, s.value = some w →
      goes (write .ap .a0 ((w &&& 0xFFFFFFC8) ||| 0x02)) .s6ApReadCsw .s6ApReadCsw) ∧
    (s.initState = .s7ReadStat → ∀ w : Word, (read .dp .a1).value = some w →
      goes (read .dp .a1) (if w.getLsbD 31 = true then .done else .s7WriteStat) .s7ReadStat) ∧
    (s.initState = .s7ReadStat → (read .dp .a1).value = none → goes (read .dp .a1) .failed .s7ReadStat) ∧
    (s.initState = .s7WriteStat → ∀ w : Word, s.value = some w →
      goes (write .dp .a1 ((w &&& 0x54000000) ||| 0x40000000)) .s7ReadStat .s7ReadStat)

/-- R220, R221, R31: the call of `DPINIT` on a ready engine starts the state machine at `S1_Reset`, with `idr` none, and
changes nothing else; `Done` and `Failed` end the call: the value is the AP IDR, or none; the result OK, or the one that
failed; one output; Idle. -/
def Obligations.DpInitStartsAndEnds : Prop :=
  (∀ s : State, ReadyIdle s →
    exec .dpInit s = .next { s with seq := [.dpInit], initState := .s1Reset, idr := none }) ∧
  ∀ s : State, s.seq = [.dpInit] →
    (s.initState = .done → step s = .next { s with
      value := s.idr, result := some .ok, initState := .idle, seq := []
      outputs := s.outputs ++ [(s.idr, some .ok)] }) ∧
    (s.initState = .failed → step s = .next { s with
      value := none, initState := .idle, seq := [], outputs := s.outputs ++ [(none, s.result)] })

/-- R65: where an AP read of `dp_init` is answered OK, the next transaction it issues is the RDBUFF read. -/
def Obligations.ApReadThenRdbuff : Prop :=
  ∀ s t : State, ReadyInit s → (s.initState = .s4ApReadIdr ∨ s.initState = .s6ApReadCsw) → step s = .next t →
    t.result = some .ok →
    ∃ u, step t = .next u ∧ u.opRef = mkRef .dp .read .a3 ∧
      ∃ l, u.trace = t.trace ++ headerCycles (mkRef .dp .read .a3) ++ l

/-- R222 with the source's example: a target that answers the first `n` STAT reads of step 3 with WAIT and the next
with OK and a STAT that passes the test makes the loop issue exactly `n + 1` STAT reads, 13 cycles for each WAIT and
46 for the last. -/
def Obligations.WaitsCountStatReads : Prop :=
  ∀ (n : Nat) (s : State) (w : Word) (rest : List Reply), ReadyInit s → s.initState = .s3ReadStat →
    w.getLsbD 29 = true → w &&& 0x00FFFF0D = 0 →
    s.target.script = List.replicate n waitReply ++
      .raw (none :: ackLevels .ok ++ dataLevels w (parity w)) :: rest →
    (∀ k, k ≤ n → ∃ u, Host.Core.run core k s = .next u ∧ u.initState = .s3ReadStat ∧
      u.trace.length = s.trace.length + 13 * k) ∧
    ∃ t, Host.Core.run core (n + 1) s = .next t ∧ t.initState = .s4ApReadIdr ∧ t.value = some w ∧
      t.trace.length = s.trace.length + 13 * n + 46

/-- R227: the three loops have no bound: against a target that answers WAIT `n` times, for any `n`, `dp_init` is after
`n` steps still at the first transaction of its loop. And they need not end: one run, without end, stays in its loop
against a target that answers WAIT for ever, and one against a target that for ever answers OK with a STAT that does not
acknowledge, or a CSW that is not the one written. -/
def Obligations.PollLoopsUnbounded : Prop :=
  (∀ (n : Nat) (s : State) (rest : List Reply), ReadyInit s →
    (s.initState = .s3ReadStat ∨ s.initState = .s6ApReadCsw ∨ s.initState = .s7ReadStat) →
    s.target.script = List.replicate n waitReply ++ rest →
    ∃ t, Host.Core.run core n s = .next t ∧ ReadyInit t ∧ t.initState = s.initState ∧
      t.outputs = s.outputs ∧ t.target.script = rest) ∧
  (∀ s : State, ReadyInit s →
    (s.initState = .s3ReadStat ∨ s.initState = .s6ApReadCsw ∨ s.initState = .s7ReadStat) →
    s.target.script = [] → s.target.again = [waitReply] →
    ∀ n, ∃ t, Host.Core.run core n s = .next t ∧ ReadyInit t ∧ t.initState = s.initState ∧ t.outputs = s.outputs) ∧
  ∀ (s : State) (w : Word), ReadyInit s → s.target.script = [] → s.target.again = [echoReply w] →
    let staysIn := fun loop : List InitState =>
      ∀ n, ∃ t, Host.Core.run core n s = .next t ∧ ReadyInit t ∧ t.initState ∈ loop ∧ t.outputs = s.outputs
    (s.initState = .s3ReadStat → ¬ (w.getLsbD 29 = true ∧ w &&& 0x00FFFF0D = 0) →
      staysIn [.s3ReadStat, .s3WriteStat]) ∧
    (s.initState = .s6ApReadCsw → w &&& 0x37 ≠ 0x02 → staysIn [.s6ApReadCsw, .s6ReadBuf, .s6WriteCsw]) ∧
    (s.initState = .s7ReadStat → w.getLsbD 31 = false → staysIn [.s7ReadStat, .s7WriteStat])

/-- R228: `DPINIT` against a conforming target that answers every transaction OK, acknowledges the power-up requests,
performs writes at once and lets no AP access take effect without CDBGPWRUPACK, with no sticky error set, ends,
whatever its registers held: with the AP IDR and OK; SELECT is 0, both power-up acknowledges are set, CSW has Size word
and AddrInc off, the engine is Idle at width 8 with the receive path off and `selShadow` 0; in at most 16 transactions
of 46 cycles after the 328 of the line reset. The contract's choices are those of notes/assumptions/7.md to 9.md; what
a line reset and a STAT or CSW write do to the target is the model's (24.md, 25.md), and so are what CSW's other fields
do (12.md) and how it comes by power (28.md). -/
def Obligations.DpInitEstablishesLink : Prop :=
  ∀ (s : State) (rest : List Reply), ReadyIdle s → s.target.sticky = false →
    s.target.script = List.replicate 16 promptReply ++ rest →
    ∃ t n u, exec .dpInit s = .next t ∧ n ≤ 17 ∧ Host.Core.run core n t = .next u ∧
      u.seq = [] ∧ u.initState = .idle ∧ u.phase = .engaged ∧ u.width = .w8 ∧ u.rxEn = false ∧
      u.value = some s.target.idr ∧ u.idr = some s.target.idr ∧ u.result = some .ok ∧
      u.selShadow = some 0x00000000 ∧ u.target.select = 0x00000000 ∧
      u.target.stat.getLsbD 29 = true ∧ u.target.stat.getLsbD 31 = true ∧ u.target.csw &&& 0x37 = 0x02 ∧
      u.outputs = s.outputs ++ [(some s.target.idr, some .ok)] ∧
      u.trace.length ≤ s.trace.length + 328 + 16 * 46

/-! ### The target contract (10_state.md, 20_memory.md): what a conforming reply does -/

/-- R42, R43, R47, R48, R72: the DP reads of a conforming target that answers OK return the register and change nothing
of the target, but that a RESEND read loses an unread buffer (R302), that a DPIDR and a STAT read do so where the reply
follows R302 and not R72 (notes/assumptions/27.md), and that the power acknowledges may move (8.md). That the sticky
errors and READOK stay is the model's choice (9.md, 25.md). -/
def Obligations.DpReadsReturnRegisters : Prop :=
  ∀ (s : State) (c : Choice) (rest : List Reply), ReadyIdle s → s.target.script = .conforming c :: rest →
    c.ack = .ok → c.flipParity = false → s.target.posted = none →
    let t := s.target.meets c rest
    let buffered := fun u : State =>
      u.target = { t with buf := u.target.buf, unread := false } ∧
        (s.target.unread = false → u.target.buf = s.target.buf)
    let quiet := fun u : State => if c.dropsUnread = true then buffered u else u.target = t
    (∃ u, exec .rdDpDpidr s = .next u ∧ u.result = some .ok ∧ u.value = some (s.target.dpidr ||| 1) ∧ quiet u) ∧
    (dpBankSel s.target.select = 0 → ∃ u, exec .rdDpStat s = .next u ∧ u.result = some .ok ∧
      u.value = some (t.stat &&& 0xFCFFFFFF) ∧ quiet u) ∧
    (∃ u, exec .rdDpResend s = .next u ∧ u.result = some .ok ∧ u.value = some s.target.resent ∧ buffered u) ∧
    ∃ u, exec .rdDpRdbuff s = .next u ∧ u.result = some .ok ∧ u.value = some s.target.buf ∧
      u.target = { t with resent := s.target.buf, unread := false }

/-- R64: an AP read that reaches a conforming target's AP (R303; notes/assumptions/28.md) returns the old buffer and
loads the register that the selected bank names there; nothing else of the AP changes, but that a DRW read advances TAR
by 4 with AddrInc single and leaves it with AddrInc off (R211; notes/assumptions/12.md). That only a sticky error set
before it stands in its way (9.md), and no TRNCNT, MASKLANE, TRNMODE or ORUNDETECT (25.md) and no other field of CSW
(12.md), is the model's choice. -/
def Obligations.ApReadIsOneBehind : Prop :=
  ∀ (i : Instr) (slot : Slot) (reg : ApReg) (s : State) (c : Choice) (rest : List Reply),
    readForm i = some (.ap, slot) → ReadyIdle s → s.target.script = .conforming c :: rest →
    c.ack = .ok → c.flipParity = false → s.target.posted = none → s.target.sticky = false →
    (s.target.meets c rest).apReached c = true →
    s.target.slotNames slot = some reg → (reg = .drw → s.target.plainDrw = true) →
    ∃ u, exec i s = .next u ∧ u.result = some .ok ∧ u.value = some s.target.buf ∧
      u.target.buf = s.target.named reg ∧ u.target.resent = s.target.buf ∧
      u.target.csw = s.target.csw ∧ u.target.mem = s.target.mem ∧ u.target.cfg = s.target.cfg ∧
      u.target.base = s.target.base ∧ u.target.idr = s.target.idr ∧
      (reg ≠ .drw ∨ cswAddrInc s.target.csw = 0 → u.target.tar = s.target.tar) ∧
      (reg = .drw → cswAddrInc s.target.csw = 1 → u.target.tar = s.target.tar + 4)

/-- R64, R65, R107, R202: `RDAP` of an AP it reaches returns the register named, and `RD DP.RESEND` after it returns it
again. The model's choices: DRW is the memory word at TAR in CFG.BE's order (notes/assumptions/12.md), `RDAP` gives two
outputs (15.md), when the AP is reached (28.md), and that only a sticky error set before it stands in its way, and no
TRNCNT, MASKLANE, TRNMODE or ORUNDETECT (9.md, 25.md). -/
def Obligations.RdapReturnsNamedRegister : Prop :=
  ∀ (slot : Slot) (reg : ApReg) (s : State) (c d e : Choice) (rest : List Reply),
    ReadyIdle s → s.target.script = .conforming c :: .conforming d :: .conforming e :: rest →
    c.ack = .ok → c.flipParity = false → d.ack = .ok → d.flipParity = false → e.ack = .ok → e.flipParity = false →
    s.target.posted = none → s.target.sticky = false →
    (s.target.meets c (.conforming d :: .conforming e :: rest)).apReached c = true →
    s.target.slotNames slot = some reg → (reg = .drw → s.target.plainDrw = true) →
    ∃ u v, exec (.rdap (mkRef .ap .read slot)) s = .next u ∧ u.result = some .ok ∧
      u.value = some (s.target.named reg) ∧
      u.outputs = s.outputs ++ [(some s.target.buf, some .ok), (some (s.target.named reg), some .ok)] ∧
      exec .rdDpResend u = .next v ∧ v.value = some (s.target.named reg)

/-- R45, R62: a SELECT write answered OK, its data phase without a line error (notes/assumptions/9.md), sets APSEL,
APBANKSEL and DPBANKSEL, and no other register of the target (of STAT: 9.md, 25.md), but that the power acknowledges
may move (8.md) and an unread buffer is lost (R302; 27.md). -/
def Obligations.SelectWriteSelectsBank : Prop :=
  ∀ (v : Word) (s : State) (c : Choice) (rest : List Reply), ReadyIdle s → s.target.script = .conforming c :: rest →
    c.ack = .ok → c.flipParity = false → s.target.posted = none →
    ∃ t, exec (.wrDpSelect v) s = .next t ∧ t.result = some .ok ∧ t.selShadow = some v ∧
      t.target = { s.target.meets c rest with select := v, buf := t.target.buf, unread := false } ∧
      (s.target.unread = false → t.target.buf = s.target.buf) ∧
      apSel t.target.select = v.extractLsb' 24 8 ∧ apBankSel t.target.select = v.extractLsb' 4 4 ∧
      dpBankSel t.target.select = v.extractLsb' 0 4

/-- R44, R223, R225 on a conforming target: after the STAT write of step 3 a STAT read that finds the requests
acknowledged passes the step-3 test, whatever word the write was made from; after that of step 7 the step-7 test, with
the debug request as it was. When the target acknowledges, which bits a STAT write changes and what a line error is
(there is none here) is the model's reading (notes/assumptions/8.md, 25.md, 9.md). -/
def Obligations.PowerHandshake : Prop :=
  ∀ (x : Word) (s : State) (c d : Choice) (rest : List Reply), ReadyIdle s →
    s.target.script = .conforming c :: .conforming d :: rest → c.ack = .ok → c.flipParity = false →
    d.ack = .ok → d.flipParity = false → d.powerAck = true → s.target.posted = none → dpBankSel s.target.select = 0 →
    (∃ t u w, exec (.wrDpStat ((x &&& 0x54000000) ||| 0x10000000)) s = .next t ∧ exec .rdDpStat t = .next u ∧
      u.value = some w ∧ u.result = some .ok ∧ w.getLsbD 29 = true ∧ w &&& 0x00FFFF0D = 0) ∧
    (∃ t u w, exec (.wrDpStat ((x &&& 0x54000000) ||| 0x40000000)) s = .next t ∧ exec .rdDpStat t = .next u ∧
      u.value = some w ∧ u.result = some .ok ∧ w.getLsbD 31 = true ∧ w.getLsbD 28 = x.getLsbD 28)

/-- R224 on a conforming target: the rewrite changes Size and AddrInc alone; written to CSW it makes the step-6 test
hold, and the read-only fields keep what they hold (R50, R212). The write reaches the AP (notes/assumptions/28.md)
without a line error (9.md) and whatever the other fields of CSW hold (12.md), and what it changes of CSW is the
model's reading (25.md). -/
def Obligations.CswRewriteConfigures : Prop :=
  (∀ w : Word, cswRewrite w &&& 0x37 = 0x02 ∧ cswRewrite w &&& 0xFFFFFFC8 = w &&& 0xFFFFFFC8) ∧
  ∀ (w : Word) (s : State) (c : Choice) (rest : List Reply), ReadyIdle s → s.target.script = .conforming c :: rest →
    c.ack = .ok → c.flipParity = false → c.post = false → s.target.posted = none → s.target.sticky = false →
    (s.target.meets c rest).apReached c = true → s.target.slotNames .a0 = some .csw →
    ∃ t, exec (.wrApA0 (cswRewrite w)) s = .next t ∧ t.result = some .ok ∧ t.target.csw &&& 0x37 = 0x02 ∧
      t.target.csw &&& 0x008000C0 = s.target.csw &&& 0x008000C0 ∧
      t.target.csw &&& 0xFF7FFF08 = w &&& 0xFF7FFF08

/-- R259, R307: while a sticky error is set a conforming target answers FAULT to every AP access and changes nothing
but an unread buffer and the power acknowledges of STAT (notes/assumptions/8.md); a DPIDR read is still answered where
the choice is OK or FAULT, and an ABORT write whatever the choice but no answer (R204); ABORT of 0x1E clears all four
sticky errors. R303: an AP access that does not reach its unpowered domain is answered FAULT, which sets a sticky
error, or OK without effect on SELECT, CSW, TAR, CFG, BASE, IDR or memory. A write of any form whose parity bit arrives
wrong ends OK all the same (R187); it sets the sticky WDATAERR and changes nothing else but an unread buffer and the
power acknowledges (8.md), or, with a write posted before it, performs that one (10.md). Which DP accesses are answered
how, what a line error is and what sets a sticky error is the model's reading (9.md), and so is what stays of STAT
(25.md), what is lost (27.md) and what has power (28.md). -/
def Obligations.StickyErrorRefusesAp : Prop :=
  ∀ (s : State) (c : Choice) (rest : List Reply), ReadyIdle s → s.target.script = .conforming c :: rest →
    let refused := fun t : State =>
      t.result = some .fault ∧ t.value = none ∧ t.target.sticky = true ∧
      t.target = { s.target.meets c rest with buf := t.target.buf, unread := false } ∧
      (s.target.unread = false → t.target.buf = s.target.buf)
    let noEffect := fun t : State =>
      t.result = some (resultOf c.ack) ∧ (c.ack = .fault → t.target.sticky = true) ∧
      t.target.select = s.target.select ∧ t.target.csw = s.target.csw ∧ t.target.tar = s.target.tar ∧
      t.target.cfg = s.target.cfg ∧ t.target.base = s.target.base ∧ t.target.idr = s.target.idr ∧
      t.target.mem = s.target.mem ∧ t.target.posted = none
    (s.target.sticky = true →
      (∀ i slot, readForm i = some (.ap, slot) → ∃ t, exec i s = .next t ∧ refused t) ∧
      (∀ i slot v, writeForm i = some (.ap, slot, v) → ∃ t, exec i s = .next t ∧ refused t) ∧
      (c.ack = .ok ∨ c.ack = .fault → c.flipParity = false →
        ∃ t, exec .rdDpDpidr s = .next t ∧ t.result = some .ok ∧ t.value = some (s.target.dpidr ||| 1))) ∧
    (c.ack ≠ .noAck → c.flipParity = false →
      ∃ t, exec (.wrDpAbort 0x1E) s = .next t ∧ t.result = some .ok ∧ t.target.sticky = false) ∧
    (s.target.sticky = false → s.target.posted = none → (s.target.meets c rest).apReached c = false →
      c.ack = .ok ∨ c.ack = .fault → c.flipParity = false →
      (∀ i slot, readForm i = some (.ap, slot) → ∃ t, exec i s = .next t ∧ noEffect t) ∧
      ∀ i slot v, writeForm i = some (.ap, slot, v) → ∃ t, exec i s = .next t ∧ noEffect t) ∧
    (c.flipParity = true → ∀ i port slot v, writeForm i = some (port, slot, v) →
      (s.target.meets c rest).ackFor c (mkRef port .write slot) = .ok →
      ∃ t fresh, exec i s = .next t ∧ t.result = some .ok ∧
        t.target = { (s.target.meets c rest).performPosted fresh with
          stat := (s.target.meets c rest).stat ||| 0x80, buf := t.target.buf, unread := false } ∧
        (s.target.unread = false → t.target.buf = s.target.buf) ∧ t.target.sticky = true)

/-- R52, R215: a DRW write of a word at an aligned TAR that reaches the AP (notes/assumptions/28.md) without a line
error (9.md) and is performed at once stores the word there and changes no other byte; TAR advances by 4 when AddrInc
is single and stays when it is off (12.md). That TRNMODE and MASKLANE (25.md), and CSW's fields but Size and AddrInc
(12.md), change nothing of it is the model's choice. -/
def Obligations.DrwWriteStoresWord : Prop :=
  ∀ (i : Instr) (v : Word) (s : State) (c : Choice) (rest : List Reply),
    writeForm i = some (.ap, .a3, v) → ReadyIdle s → s.target.script = .conforming c :: rest →
    c.ack = .ok → c.flipParity = false → c.post = false → s.target.posted = none → s.target.sticky = false →
    (s.target.meets c rest).apReached c = true → s.target.slotNames .a3 = some .drw → s.target.plainDrw = true →
    s.target.mem.wf →
    ∃ t, exec i s = .next t ∧ t.result = some .ok ∧
      t.target.mem.readWord s.target.bigEndian s.target.drwAddress = v ∧
      (∀ x, x < s.target.drwAddress ∨ s.target.drwAddress + 4 ≤ x → t.byte x = s.byte x) ∧
      (cswAddrInc s.target.csw = 0 → t.target.tar = s.target.tar) ∧
      (cswAddrInc s.target.csw = 1 → t.target.tar = s.target.tar + 4)

/-- R67, R308: an AP write of any form that a conforming target posts is accepted with OK and not performed. The
statement takes the posted word to arrive without a line error, and the word of the ABORT write of the last clause
(notes/assumptions/9.md). Performed, it sets TAR or CSW, or stores the word at TAR, as its slot names. The next read or
write that the target answers OK performs it first: its value, its result and the target after it are those it has on
the target that has performed the write. An ABORT write with DAPABORT is the exception: it drops the write (R46). The
posting is the contract's (notes/assumptions/10.md), and so is what a CSW and a DRW write change (25.md, 12.md), that
the write reaches the AP (28.md), and that accepting it may move the power acknowledges (8.md) and loses an unread
buffer (27.md), nothing else of the target. -/
def Obligations.PostedWritePerformedNext : Prop :=
  ∀ (i : Instr) (slot : Slot) (v : Word) (s : State) (c d : Choice) (rest : List Reply),
    writeForm i = some (.ap, slot, v) → ReadyIdle s →
    s.target.script = .conforming c :: .conforming d :: rest → c.ack = .ok → c.flipParity = false →
    c.post = true → s.target.posted = none → s.target.sticky = false →
    (s.target.meets c (.conforming d :: rest)).apReached c = true →
    ∃ t, exec i s = .next t ∧ t.result = some .ok ∧
      t.target = { s.target.meets c (.conforming d :: rest) with
        posted := some { select := s.target.select, slot := slot, word := v }
        buf := t.target.buf, unread := false } ∧
      (∀ fresh : Nat → Word,
        let p := t.target.performPosted fresh
        p.posted = none ∧
        (s.target.slotNames slot = some .tar → p.tar = v) ∧
        (s.target.slotNames slot = some .csw → p.csw &&& 0xFF7FFF3F = v &&& 0xFF7FFF3F) ∧
        (s.target.slotNames slot = some .drw → s.target.plainDrw = true → s.target.mem.wf →
          p.mem.readWord s.target.bigEndian s.target.drwAddress = v)) ∧
      (∀ j port slot', readForm j = some (port, slot') →
        (t.target.meets d rest).ackFor d (mkRef port .read slot') = .ok →
        ∃ fresh u u', exec j t = .next u ∧
          exec j { t with target := t.target.performPosted fresh } = .next u' ∧
          u.value = u'.value ∧ u.result = u'.result ∧ u.target = u'.target ∧ u.target.posted = none) ∧
      (∀ j port slot' w, writeForm j = some (port, slot', w) →
        (t.target.meets d rest).ackFor d (mkRef port .write slot') = .ok →
        ¬ (port = .dp ∧ slot' = .a0 ∧ w.getLsbD 0 = true) →
        ∃ fresh u u', exec j t = .next u ∧
          exec j { t with target := t.target.performPosted fresh } = .next u' ∧
          u.value = u'.value ∧ u.result = u'.result ∧ u.target = u'.target) ∧
      ∀ w : Word, w.getLsbD 0 = true → d.ack = .ok → d.flipParity = false → ∃ u, exec (.wrDpAbort w) t = .next u ∧
        u.target.posted = none ∧ u.target.csw = s.target.csw ∧ u.target.tar = s.target.tar ∧
        u.target.mem = s.target.mem

/-! ### Invariants and whole-machine rules -/

/-- The invariant holds at power-on. -/
def Obligations.InvAtReset : Prop := Invariant State.reset

/-- Every step keeps the invariant: the transport configuration of R37, the phase of a running operation (R161), the
engine stuck in a wait (R262), `initState` Idle except in `dp_init` (R33), the transient registers (R30, R32), the word
a `dp_init` write is made from (R220), and the canonical form of memory. -/
def Obligations.StepKeepsInv : Prop := ∀ s t : State, Invariant s → step s = .next t → Invariant t

/-- R31: no run from a state with the invariant reads an output that does not exist: it never ends in a fault. -/
def Obligations.NoRunFaults : Prop := ∀ (n : Nat) (s : State), Invariant s → SafeRun n s

/-- A step executes the call decoded from the caller's next call word; with none it waits; a word that names no
operation is refused; in `dp_init` it takes the machine's next step. The call words are the model's
(notes/assumptions/3.md, 4.md). -/
def Obligations.StepRunsDecodedCall : Prop :=
  (∀ (s : State) (c : CallWord) (rest : List CallWord) (i : Instr), s.seq = [] → s.calls = c :: rest →
    decode c = .ok i → step s = exec i { s with calls := rest }) ∧
  (∀ (s : State) (c : CallWord) (rest : List CallWord) (e : Reject), s.seq = [] → s.calls = c :: rest →
    decode c = .error e → step s = .refused .noSuchCall) ∧
  (∀ s : State, s.seq = [] → s.calls = [] → step s = .next s) ∧
  (∀ s : State, s.seq = [.dpInit] → step s = (initStep Config.hw s).outcome) ∧
  ∀ (s : State) (nbits w : Nat) (i : Instr), s.seq = [] → decodeTableWord nbits w = some i →
    step (s.withFetchWord nbits w) = exec i s

/-- R38: a step only adds to the wire trace and to the outputs, and a `RD`, `WR` or `LINERESET` that has come back to
Idle has added exactly one output, its value and result (R29). -/
def Obligations.TraceAndOutputsGrow : Prop :=
  (∀ s t : State, step s = .next t → (∃ l, t.trace = s.trace ++ l) ∧ ∃ o, t.outputs = s.outputs ++ o) ∧
  ∀ (i : Instr) (s t : State), (readForm i ≠ none ∨ writeForm i ≠ none ∨ i = .lineReset) → exec i s = .next t →
    t.seq = [] → t.outputs = s.outputs ++ [(t.value, t.result)]

/-- R252, R253: which operation can return which result; Timeout none. -/
def Obligations.ResultTable : Prop :=
  (∀ (i : Instr) (s t : State), (readForm i ≠ none ∨ i = .lineReset) → exec i s = .next t → t.seq = [] →
    t.result = some .ok ∨ t.result = some .wait ∨ t.result = some .fault ∨ t.result = some .noAck ∨
      t.result = some .parity) ∧
  (∀ (i : Instr) (s t : State), writeForm i ≠ none → exec i s = .next t → t.seq = [] →
    t.result = some .ok ∨ t.result = some .wait ∨ t.result = some .fault ∨ t.result = some .noAck) ∧
  (∀ s t : State, exec .init s = .next t → t.outputs = s.outputs) ∧
  (∀ s t : State, exec .engage s = .next t → t.result = s.result ∧ t.outputs = s.outputs) ∧
  (∀ s t : State, exec .disengage s = .next t → t.result = s.result ∧ t.outputs = s.outputs) ∧
  (∀ s t : State, s.seq = [.dpInit] → s.initState ≠ .idle → step s = .next t → t.seq = [] →
    s.initState = .done ∧ t.result = some .ok ∨ s.initState = .failed ∧ t.result = s.result) ∧
  ∀ s t : State, step s = .next t → s.result ≠ some .timeout → t.result ≠ some .timeout

/-- R8: no result of a line reset depends on its parameters. -/
def Obligations.LineResetParametersUnobservable : Prop :=
  ∀ (p q : Params) (s : State), p.Valid → q.Valid → Ready s →
    ∃ t u, lineResetTransaction p s = .done t ∧ lineResetTransaction q s = .done u ∧
      t.value = u.value ∧ t.result = u.result ∧ t.target = u.target ∧
      u = { t with trace := u.trace } ∧
      t.trace.length = s.trace.length + p.nPre + 16 + p.nPost + p.nIdle +
        (if answered s (mkRef .dp .read .a0) = .ok then 46 else 13)
end

