-- ==== Sys2Proof/Laws/Bits.lean ====
section
/-! SUPPORT. Bits in wire order: `bitsOf` and `valueOf` are inverse, words are assembled from pieces, and the three
frames of a write carry the word and its parity bit in order (R103, R105, R177, R186). -/

namespace Sys2Proof.Machine

@[simp] theorem bitsOf_length (n v : Nat) : (bitsOf n v).length = n := by simp [bitsOf]

@[simp] theorem bitsOf_zero (v : Nat) : bitsOf 0 v = [] := rfl

theorem getElem?_bitsOf (n v i : Nat) : (bitsOf n v)[i]? = if i < n then some (v.testBit i) else none := by
  unfold bitsOf
  by_cases h : i < n <;> simp [h]

theorem testBit_valueOf (l : List Bool) (i : Nat) : (valueOf l).testBit i = l.getD i false := by
  induction l generalizing i with
  | nil => simp [valueOf]
  | cons b l ih =>
    cases i with
    | zero => cases b <;> simp [valueOf, Nat.testBit_zero]
    | succ i =>
      have h : (b.toNat + 2 * valueOf l) / 2 = valueOf l := by cases b <;> simp; omega
      simp [valueOf, Nat.testBit_succ, h, ih]

theorem valueOf_lt (l : List Bool) : valueOf l < 2 ^ l.length := by
  induction l with
  | nil => simp [valueOf]
  | cons b l ih =>
    have : b.toNat ≤ 1 := by cases b <;> simp
    simp only [valueOf, List.length_cons, Nat.pow_succ]
    omega

/-- Bits read off the value of a list are the list. -/
theorem bitsOf_valueOf (l : List Bool) : bitsOf l.length (valueOf l) = l := by
  apply List.ext_getElem?
  intro i
  rw [getElem?_bitsOf, testBit_valueOf]
  by_cases h : i < l.length <;> simp [h]

/-- The value of the first `n` bits of `v` is `v` reduced to `n` bits. -/
theorem valueOf_bitsOf (n v : Nat) : valueOf (bitsOf n v) = v % 2 ^ n := by
  apply Nat.eq_of_testBit_eq
  intro i
  rw [testBit_valueOf, List.getD_eq_getElem?_getD, getElem?_bitsOf, Nat.testBit_mod_two_pow]
  by_cases h : i < n <;> simp [h]

theorem getLsbD_wordOf (l : List Bool) (i : Nat) : (wordOf l).getLsbD i = (decide (i < 32) && l.getD i false) := by
  rw [wordOf, ← testBit_valueOf, BitVec.getLsbD_ofNat]

/-- The word of the 32 bits of a word is the word. -/
@[simp] theorem wordOf_bitsOf (w : Word) : wordOf (bitsOf 32 w.toNat) = w := by
  rw [wordOf, valueOf_bitsOf, Nat.mod_eq_of_lt w.isLt, BitVec.ofNat_toNat, BitVec.setWidth_eq]

/-- A word assembled from two pieces: the second shifted past the first (R103, R177). -/
theorem wordOf_append (a b : List Bool) : wordOf (a ++ b) = wordOf a ||| (wordOf b <<< a.length) := by
  apply BitVec.eq_of_getLsbD_eq
  intro i hi
  simp only [getLsbD_wordOf, BitVec.getLsbD_or, BitVec.getLsbD_shiftLeft, hi]
  simp only [decide_true, Bool.true_and, List.getD_eq_getElem?_getD]
  by_cases h : i < a.length
  · simp [h, List.getElem?_append_left h]
  · have h' : a.length ≤ i := by omega
    have h2 : i - a.length < 32 := by omega
    simp [h, List.getElem?_append_right h', h2]

theorem bitsOf_append (n m v : Nat) : bitsOf n v ++ bitsOf m (v / 2 ^ n) = bitsOf (n + m) v := by
  apply List.ext_getElem?
  intro i
  rw [getElem?_bitsOf]
  by_cases h : i < n
  · rw [List.getElem?_append_left (by simpa using h), getElem?_bitsOf]
    have : i < n + m := by omega
    simp [h, this]
  · rw [List.getElem?_append_right (by simpa using h), getElem?_bitsOf, bitsOf_length]
    have h1 : n + (i - n) = i := by omega
    simp only [Nat.testBit_div_two_pow, Nat.add_comm (i - n), h1]
    by_cases h2 : i < n + m
    · have : i - n < m := by omega
      simp [h2, this]
    · have : ¬ i - n < m := by omega
      simp [h2, this]

/-- The bits of a value reduced to at least as many bits are the value's own. -/
theorem bitsOf_mod (n m v : Nat) (h : n ≤ m) : bitsOf n (v % 2 ^ m) = bitsOf n v := by
  apply List.ext_getElem?
  intro i
  rw [getElem?_bitsOf, getElem?_bitsOf]
  by_cases hi : i < n
  · have : i < m := by omega
    simp [hi, Nat.testBit_mod_two_pow, this]
  · simp [hi]

theorem slice_lt (w : Word) (lo n : Nat) : slice w lo n < 2 ^ n := Nat.mod_lt _ (by positivity)

theorem txData0_lt (w : Word) : txData0 w < 2 ^ 11 := slice_lt w 0 11

theorem txData1_lt (w : Word) : txData1 w < 2 ^ 11 := slice_lt w 11 11

theorem txData2_lt (w : Word) : txData2 w < 2 ^ 11 := by
  have h := slice_lt w 22 10
  have : (parity w).toNat ≤ 1 := by cases parity w <;> simp
  simp only [txData2]
  omega

/-- "remaining 10 value bits + parity in the last" (R105, R186). -/
theorem bitsOf_txData2 (w : Word) : bitsOf 11 (txData2 w) = bitsOf 10 (w.toNat / 2 ^ 22) ++ [parity w] := by
  have h := slice_lt w 22 10
  have e : txData2 w % 2 ^ 10 = slice w 22 10 := by simp only [txData2]; omega
  have d : txData2 w / 2 ^ 10 = (parity w).toNat := by simp only [txData2]; omega
  rw [show (11 : Nat) = 10 + 1 from rfl, ← bitsOf_append, ← bitsOf_mod 10 10 _ (Nat.le_refl _), e, d]
  congr 1
  · exact bitsOf_mod 10 10 _ (Nat.le_refl _)
  · cases parity w <;> rfl

/-- The three data frames of a write are the 32 bits of the word in order, then its parity bit (R186). -/
theorem txData_bits (w : Word) :
    bitsOf 11 (txData0 w) ++ (bitsOf 11 (txData1 w) ++ bitsOf 11 (txData2 w)) = bitsOf 32 w.toNat ++ [parity w] := by
  rw [bitsOf_txData2]
  have h0 : bitsOf 11 (txData0 w) = bitsOf 11 w.toNat := by
    simp only [txData0, slice, Nat.pow_zero, Nat.div_one]; exact bitsOf_mod 11 11 _ (Nat.le_refl _)
  have h1 : bitsOf 11 (txData1 w) = bitsOf 11 (w.toNat / 2 ^ 11) := bitsOf_mod 11 11 _ (Nat.le_refl _)
  rw [h0, h1, ← List.append_assoc, ← List.append_assoc, bitsOf_append 11 11, bitsOf_append 22 10]

end Sys2Proof.Machine
end

