-- ==== Sys2Proof/Laws/Decode.lean ====
section
/-! SUPPORT. Headers and call words: a header has one reference, the fields of a call word read back, and decoding is
decoding its three fields. -/

namespace Sys2Proof

/-- A property of every reference, checked on each of the 16. -/
theorem RegRef.all_of_cases {P : RegRef → Prop} (h : ∀ p d a, P (mkRef p d a)) (r : RegRef) : P r := h r.port r.dir r.slot

@[simp] theorem headerRef_req (r : RegRef) : headerRef (req r) = some r :=
  RegRef.all_of_cases (P := fun r => headerRef (req r) = some r)
    (by intro p d a; cases p <;> cases d <;> cases a <;> decide) r

theorem req_ne_resetByte (r : RegRef) : req r ≠ resetByte :=
  RegRef.all_of_cases (P := fun r => req r ≠ resetByte)
    (by intro p d a; cases p <;> cases d <;> cases a <;> decide) r

/-- A byte whose reference is known is that reference's header. -/
theorem req_of_headerRef {b : Header} {r : RegRef} (h : headerRef b = some r) : req r = b := by
  simp only [headerRef, Option.ite_none_right_eq_some, Option.some.injEq] at h
  obtain ⟨h, rfl⟩ := h
  exact h

@[simp] theorem formOf_byte (f : Form) : formOf f.byte = some f := by cases f <;> decide

theorem byte_of_formOf {b : BitVec 8} {f : Form} (h : formOf b = some f) : f.byte = b := by
  simpa using List.find?_some h

section
variable (v : BitVec 32) (f b : BitVec 8)

theorem pieces_first : (v ++ f ++ b).extractLsb' 0 8 = b := by
  apply BitVec.eq_of_getLsbD_eq
  intro i hi
  rw [BitVec.getLsbD_extractLsb', BitVec.getLsbD_append]
  simp [hi]

theorem pieces_form : (v ++ f ++ b).extractLsb' 8 8 = f := by
  apply BitVec.eq_of_getLsbD_eq
  intro i hi
  rw [BitVec.getLsbD_extractLsb', BitVec.getLsbD_append, BitVec.getLsbD_append]
  simp [hi, show ¬ 8 + i < 8 by omega, show 8 + i - 8 = i by omega]

theorem pieces_operand : (v ++ f ++ b).extractLsb' 16 32 = v := by
  apply BitVec.eq_of_getLsbD_eq
  intro i hi
  rw [BitVec.getLsbD_extractLsb', BitVec.getLsbD_append, BitVec.getLsbD_append]
  simp [hi, show ¬ 16 + i < 8 by omega, show ¬ 16 + i - 8 < 8 by omega,
    show 16 + i - 8 - 8 = i by omega]

theorem pieces_eq (c : BitVec (32 + 8 + 8)) : c.extractLsb' 16 32 ++ c.extractLsb' 8 8 ++ c.extractLsb' 0 8 = c := by
  apply BitVec.eq_of_getLsbD_eq
  intro i hi
  simp only [BitVec.getLsbD_append, BitVec.getLsbD_extractLsb']
  by_cases h : i < 8
  · simp [h]
  · by_cases h2 : i - 8 < 8
    · simp [h, h2, show 8 + (i - 8) = i by omega]
    · simp [h, h2, show 16 + (i - 8 - 8) = i by omega, show i - 8 - 8 < 32 by omega]

end

@[simp] theorem first_callWord (b : Header) (f : Form) (v : Word) : CallWord.first (callWord b f v) = b :=
  pieces_first v f.byte b

@[simp] theorem form_callWord (b : Header) (f : Form) (v : Word) : CallWord.form (callWord b f v) = f.byte :=
  pieces_form v f.byte b

@[simp] theorem operand_callWord (b : Header) (f : Form) (v : Word) : CallWord.operand (callWord b f v) = v :=
  pieces_operand v f.byte b

/-- Decoding a call word is decoding its fields. -/
theorem decode_callWord (b : Header) (f : Form) (v : Word) : decode (callWord b f v) = decodeFields b f v := by
  simp only [decode, form_callWord, formOf_byte, first_callWord, operand_callWord]

/-- Every call word with a known form is the call word of its fields. -/
theorem callWord_fields (c : CallWord) (f : Form) (h : CallWord.form c = f.byte) :
    callWord (CallWord.first c) f (CallWord.operand c) = c := by
  unfold callWord
  rw [← h]
  exact pieces_eq c

/-- An operation without an operand is decoded only where the operand bits are zero. -/
theorem noOperand_ok {v : Word} {i j : Instr} (h : noOperand v i = .ok j) : v = 0 ∧ j = i := by
  unfold noOperand at h
  split at h
  · cases h; exact ⟨‹_›, rfl⟩
  · cases h

end Sys2Proof
end

