-- ==== Sys2Proof/Laws/Memory.lean ====
section
/-! SUPPORT. The target's memory: a byte just written reads back, every other byte reads as before, words likewise,
and every operation keeps the canonical form. -/

namespace Sys2Proof.Machine

namespace Memory

variable (m : Memory) (a b x : Nat) (v : Byte)

theorem read_cons (m : Memory) (a : Nat) (v : Byte) (x : Nat) (h : m.read a = unlisted) :
    (cons a v m).read x = if x = a then v else m.read x := by
  unfold cons
  by_cases hv : v = unlisted
  · by_cases hx : x = a <;> simp [hv, hx, h]
  · by_cases hx : x = a
    · simp [hv, hx, read]
    · simp [hv, hx, read, Ne.symm hx]

/-- An address below every listed one reads as unlisted. -/
theorem read_below (m : Memory) (a : Nat) (h : ∀ c ∈ m, a < c.1) : m.read a = unlisted := by
  induction m with
  | nil => rfl
  | cons c m ih =>
    obtain ⟨x, w⟩ := c
    have hx : a < x := h (x, w) (by simp)
    simp only [read, show ¬ x = a by omega, if_false]
    exact ih fun c hc => h c (by simp [hc])

theorem wf_tail {c : Host.Cell} {m : Memory} (h : wf (c :: m)) : wf m :=
  ⟨(List.pairwise_cons.mp (by simpa using h.1)).2, fun d hd => h.2 d (by simp [hd])⟩

theorem lt_of_wf {c : Host.Cell} {m : Memory} (h : wf (c :: m)) : ∀ d ∈ m, c.1 < d.1 := by
  have := (List.pairwise_cons.mp (show (List.map Prod.fst (c :: m)).Pairwise (· < ·) from h.1)).1
  intro d hd
  exact this d.1 (List.mem_map_of_mem hd)

theorem wf_cell {c : Host.Cell} {m : Memory} (hc : c.2 ≠ unlisted) (hl : ∀ d ∈ m, c.1 < d.1) (h : wf m) :
    wf (c :: m) := by
  refine ⟨?_, ?_⟩
  · simp only [List.map_cons, List.pairwise_cons]
    refine ⟨?_, h.1⟩
    intro d hd
    obtain ⟨e, he, rfl⟩ := List.mem_map.mp hd
    exact hl e he
  · intro d hd
    rcases List.mem_cons.mp hd with rfl | hd
    · exact hc
    · exact h.2 d hd

theorem wf_cons {m : Memory} (a : Nat) (v : Byte) (hl : ∀ d ∈ m, a < d.1) (h : wf m) : wf (cons a v m) := by
  unfold cons
  by_cases hv : v = unlisted
  · simpa [hv] using h
  · simpa [hv] using wf_cell (c := (a, v)) hv hl h

/-- "A read after a write gives the value written", and every other byte is left alone. -/
theorem read_write (m : Memory) (a : Nat) (v : Byte) (x : Nat) (h : wf m) :
    (m.write a v).read x = if x = a then v else m.read x := by
  induction m with
  | nil => exact read_cons [] a v x rfl
  | cons c m ih =>
    obtain ⟨y, w⟩ := c
    have hl := lt_of_wf h
    simp only [write]
    split
    · rename_i hay
      refine read_cons _ a v x (read_below _ a ?_)
      intro c hc
      rcases List.mem_cons.mp hc with rfl | hc
      · exact hay
      · exact Nat.lt_trans hay (hl c hc)
    · split
      · rename_i hya
        subst hya
        rw [read_cons m y v x (read_below m y hl)]
        by_cases hx : x = y
        · simp [hx]
        · simp [hx, read, Ne.symm hx]
      · rename_i h1 h2
        simp only [read, ih (wf_tail h)]
        by_cases hx : y = x
        · have : x ≠ a := by omega
          simp [hx, this]
        · simp [hx]

/-- The address of every cell of a memory after a write is the one written or one listed before. -/
theorem mem_write {m : Memory} {a : Nat} {v : Byte} {d : Host.Cell} (hd : d ∈ m.write a v) :
    d.1 = a ∨ ∃ e ∈ m, e.1 = d.1 := by
  have hcons : ∀ {n : Memory}, d ∈ cons a v n → d.1 = a ∨ ∃ e ∈ n, e.1 = d.1 := by
    intro n hn
    unfold cons at hn
    split at hn
    · exact .inr ⟨d, hn, rfl⟩
    · rcases List.mem_cons.mp hn with rfl | hn
      · exact .inl rfl
      · exact .inr ⟨d, hn, rfl⟩
  induction m with
  | nil => exact hcons hd
  | cons c m ih =>
    obtain ⟨y, w⟩ := c
    simp only [write] at hd
    split at hd
    · exact hcons hd
    · split at hd
      · rcases hcons hd with h | ⟨e, he, h⟩
        · exact .inl h
        · exact .inr ⟨e, by simp [he], h⟩
      · rcases List.mem_cons.mp hd with rfl | hd
        · exact .inr ⟨(y, w), by simp, rfl⟩
        · rcases ih hd with h | ⟨e, he, h⟩
          · exact .inl h
          · exact .inr ⟨e, by simp [he], h⟩

/-- A write keeps the canonical form. -/
theorem write_wf (m : Memory) (a : Nat) (v : Byte) (h : wf m) : wf (m.write a v) := by
  induction m with
  | nil => exact wf_cons a v (by simp) h
  | cons c m ih =>
    obtain ⟨y, w⟩ := c
    have hl := lt_of_wf h
    simp only [write]
    split
    · rename_i hay
      refine wf_cons a v ?_ h
      intro d hd
      rcases List.mem_cons.mp hd with rfl | hd
      · exact hay
      · exact Nat.lt_trans hay (hl d hd)
    · split
      · rename_i hya
        exact wf_cons a v (by simpa [hya] using hl) (wf_tail h)
      · rename_i h1 h2
        refine wf_cell (h.2 (y, w) (by simp)) ?_ (ih (wf_tail h))
        intro d hd
        rcases mem_write hd with h' | ⟨e, he, h'⟩
        · simp only [h']; omega
        · simpa [h'] using hl e he

theorem writeWord_wf (m : Memory) (be : Bool) (a : Nat) (w : Word) (h : wf m) : wf (m.writeWord be a w) := by
  unfold writeWord
  exact write_wf _ _ _ (write_wf _ _ _ (write_wf _ _ _ (write_wf _ _ _ h)))

/-- A write leaves every other byte alone, of any memory. -/
theorem read_write_other (m : Memory) (a : Nat) (v : Byte) (x : Nat) (hx : x ≠ a) : (m.write a v).read x = m.read x := by
  have hcons : ∀ n : Memory, (cons a v n).read x = n.read x := by
    intro n
    unfold cons
    split
    · rfl
    · simp [read, Ne.symm hx]
  induction m with
  | nil => exact hcons []
  | cons c m ih =>
    obtain ⟨y, w⟩ := c
    simp only [write]
    split
    · exact hcons _
    · split
      · rename_i h
        rw [hcons m]
        simp [read, h, Ne.symm hx]
      · simp only [read, ih]

/-- A word store leaves every byte outside its four alone. -/
theorem read_writeWord_outside (m : Memory) (be : Bool) (a : Nat) (w : Word) (x : Nat)
    (hx : x < a ∨ a + 4 ≤ x) : (m.writeWord be a w).read x = m.read x := by
  unfold writeWord byteAddress
  cases be <;> simp only [if_true, if_false, Bool.false_eq_true] <;>
    rw [read_write_other _ _ _ _ (by omega), read_write_other _ _ _ _ (by omega),
      read_write_other _ _ _ _ (by omega), read_write_other _ _ _ _ (by omega)]

/-- A word stored reads back, in either byte order. -/
theorem readWord_writeWord (m : Memory) (be : Bool) (a : Nat) (w : Word) (h : wf m) :
    (m.writeWord be a w).readWord be a = w := by
  unfold readWord writeWord
  have h1 := write_wf m (byteAddress be a 0) (byteOf w 0) h
  have h2 := write_wf _ (byteAddress be a 1) (byteOf w 1) h1
  have h3 := write_wf _ (byteAddress be a 2) (byteOf w 2) h2
  have ne : ∀ j k : Nat, j < 4 → k < 4 → j ≠ k → byteAddress be a j ≠ byteAddress be a k := by
    intro j k hj hk hjk
    unfold byteAddress
    cases be <;> simp <;> omega
  simp only [read_write _ _ _ _ h3, read_write _ _ _ _ h2, read_write _ _ _ _ h1, read_write _ _ _ _ h,
    ne 2 3 (by omega) (by omega) (by omega), ne 1 3 (by omega) (by omega) (by omega),
    ne 1 2 (by omega) (by omega) (by omega), ne 0 3 (by omega) (by omega) (by omega),
    ne 0 2 (by omega) (by omega) (by omega), ne 0 1 (by omega) (by omega) (by omega), if_true, if_false]
  apply BitVec.eq_of_getLsbD_eq
  intro i hi
  simp only [byteOf, BitVec.getLsbD_append, BitVec.getLsbD_extractLsb']
  rcases (by omega : i < 8 ∨ (8 ≤ i ∧ i < 16) ∨ (16 ≤ i ∧ i < 24) ∨ 24 ≤ i) with h | h | h | h
  · simp [h]
  · simp [show ¬ i < 8 by omega, show i - 8 < 8 by omega, show 8 + (i - 8) = i by omega]
  · simp [show ¬ i < 8 by omega, show ¬ i - 8 < 8 by omega, show i - 8 - 8 < 8 by omega,
      show 16 + (i - 8 - 8) = i by omega]
  · simp [show ¬ i < 8 by omega, show ¬ i - 8 < 8 by omega, show ¬ i - 8 - 8 < 8 by omega,
      show i - 8 - 8 - 8 < 8 by omega, show 24 + (i - 8 - 8 - 8) = i by omega]

end Memory

/-! ### The target's operations keep the canonical form -/

@[simp] theorem Target.advance_mem (fresh : Nat → Word) (t : Target) : (t.advance fresh).mem = t.mem := by
  unfold Target.advance; split <;> [rfl; (split <;> rfl)]

@[simp] theorem Target.apRead_mem (fresh : Nat → Word) (slot : Slot) (t : Target) : (t.apRead fresh slot).2.mem = t.mem := by
  unfold Target.apRead
  split
  · split <;> first | rfl | exact Target.advance_mem fresh t
  · rfl

@[simp] theorem Target.losesBuffer_mem (fresh : Nat → Word) (c : Choice) (r : RegRef) (t : Target) :
    (t.losesBuffer fresh c r).mem = t.mem := by
  unfold Target.losesBuffer; split <;> rfl

@[simp] theorem Target.readWord_mem (fresh : Nat → Word) (c : Choice) (r : RegRef) (t : Target) :
    (t.readWord fresh c r).2.mem = t.mem := by
  unfold Target.readWord
  split
  · split <;> simp
  · split
    · exact Target.apRead_mem fresh r.slot t
    · simp

theorem Target.apWrite_wf (fresh : Nat → Word) (p : PostedWrite) (t : Target) (h : t.mem.wf) :
    (t.apWrite fresh p).mem.wf := by
  unfold Target.apWrite
  split
  · split
    · exact h
    · exact h
    · rw [Target.advance_mem]; exact Memory.writeWord_wf _ _ _ _ h
    all_goals exact h
  · exact h

theorem Target.performPosted_wf (fresh : Nat → Word) (t : Target) (h : t.mem.wf) :
    (t.performPosted fresh).mem.wf := by
  unfold Target.performPosted
  split
  · exact h
  · exact Target.apWrite_wf _ _ { t with posted := none } h

theorem Target.answer_wf (fresh : Nat → Word) (c : Choice) (r : RegRef) (t : Target) (h : t.mem.wf) :
    (t.answer fresh c r).mem.wf := by
  unfold Target.answer
  split
  · split
    · simp only [Target.readWord_mem]; exact Target.performPosted_wf fresh t h
    · simp only [Target.losesBuffer_mem]
      split
      · exact h
      · exact Target.performPosted_wf fresh t h
  · simpa using h
  all_goals exact h

/-- Hearing a header keeps the target's memory canonical. -/
theorem Target.hears_wf (fresh : Nat → Word) (b : Header) (t : Target) (h : t.mem.wf) :
    (t.hears fresh b).mem.wf := by
  unfold Target.hears
  split
  · exact h
  · exact h
  · split
    · exact h
    · split
      · exact Target.answer_wf _ _ _ _ h
      · exact Target.answer_wf _ _ _ _ h

theorem Target.dpWrite_wf (fresh : Nat → Word) (slot : Slot) (w : Word) (t : Target) (h : t.mem.wf) :
    (t.dpWrite fresh slot w).mem.wf := by
  unfold Target.dpWrite
  split
  · exact Target.performPosted_wf fresh _ h
  · split <;> exact h
  · exact h
  · exact h

theorem Target.apTakes_wf (fresh : Nat → Word) (c : Choice) (slot : Slot) (w : Word) (t : Target) (h : t.mem.wf) :
    (t.apTakes fresh c slot w).mem.wf := by
  unfold Target.apTakes
  split
  · split
    · exact h
    · exact Target.apWrite_wf _ _ _ h
  · exact h

/-- Taking a word keeps the target's memory canonical. -/
theorem Target.takes_wf (fresh : Nat → Word) (w : Word) (p : Bool) (t : Target) (h : t.mem.wf) :
    (t.takes fresh w p).mem.wf := by
  unfold Target.takes
  split
  · exact h
  · split
    · split
      · exact Target.dpWrite_wf _ _ _ _ h
      · exact Target.apTakes_wf _ _ _ _ _ h
    · exact Target.performPosted_wf _ _ h

end Sys2Proof.Machine
end

