-- ==== Sys2Proof/Laws/State.lean ====
section
/-! SUPPORT. What each named update of the state does to each field: one lemma a field, so that no later proof
unfolds an update. -/

namespace Sys2Proof.Machine

variable (s : State)

@[simp] theorem State.goto_phase (p : Pos) : (s.goto p).phase = s.phase := rfl
@[simp] theorem State.goto_width (p : Pos) : (s.goto p).width = s.width := rfl
@[simp] theorem State.goto_rxEn (p : Pos) : (s.goto p).rxEn = s.rxEn := rfl
@[simp] theorem State.goto_seq (p : Pos) : (s.goto p).seq = p :: s.seq.tail := rfl
@[simp] theorem State.goto_opRef (p : Pos) : (s.goto p).opRef = s.opRef := rfl
@[simp] theorem State.goto_opWdata (p : Pos) : (s.goto p).opWdata = s.opWdata := rfl
@[simp] theorem State.goto_value (p : Pos) : (s.goto p).value = s.value := rfl
@[simp] theorem State.goto_result (p : Pos) : (s.goto p).result = s.result := rfl
@[simp] theorem State.goto_ack (p : Pos) : (s.goto p).ack = s.ack := rfl
@[simp] theorem State.goto_rx (p : Pos) : (s.goto p).rx = s.rx := rfl
@[simp] theorem State.goto_initState (p : Pos) : (s.goto p).initState = s.initState := rfl
@[simp] theorem State.goto_idr (p : Pos) : (s.goto p).idr = s.idr := rfl
@[simp] theorem State.goto_selShadow (p : Pos) : (s.goto p).selShadow = s.selShadow := rfl
@[simp] theorem State.goto_trace (p : Pos) : (s.goto p).trace = s.trace := rfl
@[simp] theorem State.goto_outputs (p : Pos) : (s.goto p).outputs = s.outputs := rfl
@[simp] theorem State.goto_calls (p : Pos) : (s.goto p).calls = s.calls := rfl
@[simp] theorem State.goto_signals (p : Pos) : (s.goto p).signals = s.signals := rfl
@[simp] theorem State.goto_draws (p : Pos) : (s.goto p).draws = s.draws := rfl
@[simp] theorem State.goto_target (p : Pos) : (s.goto p).target = s.target := rfl

@[simp] theorem State.drive_phase (v : Nat) : (s.drive v).phase = s.phase := rfl
@[simp] theorem State.drive_width (v : Nat) : (s.drive v).width = s.width := rfl
@[simp] theorem State.drive_rxEn (v : Nat) : (s.drive v).rxEn = s.rxEn := rfl
@[simp] theorem State.drive_seq (v : Nat) : (s.drive v).seq = s.seq := rfl
@[simp] theorem State.drive_opRef (v : Nat) : (s.drive v).opRef = s.opRef := rfl
@[simp] theorem State.drive_opWdata (v : Nat) : (s.drive v).opWdata = s.opWdata := rfl
@[simp] theorem State.drive_value (v : Nat) : (s.drive v).value = s.value := rfl
@[simp] theorem State.drive_result (v : Nat) : (s.drive v).result = s.result := rfl
@[simp] theorem State.drive_ack (v : Nat) : (s.drive v).ack = s.ack := rfl
@[simp] theorem State.drive_rx (v : Nat) : (s.drive v).rx = s.rx := rfl
@[simp] theorem State.drive_initState (v : Nat) : (s.drive v).initState = s.initState := rfl
@[simp] theorem State.drive_idr (v : Nat) : (s.drive v).idr = s.idr := rfl
@[simp] theorem State.drive_selShadow (v : Nat) : (s.drive v).selShadow = s.selShadow := rfl
@[simp] theorem State.drive_trace (v : Nat) : (s.drive v).trace = s.trace ++ (bitsOf s.width.bits v).map Cycle.h := rfl
@[simp] theorem State.drive_outputs (v : Nat) : (s.drive v).outputs = s.outputs := rfl
@[simp] theorem State.drive_calls (v : Nat) : (s.drive v).calls = s.calls := rfl
@[simp] theorem State.drive_signals (v : Nat) : (s.drive v).signals = s.signals := rfl
@[simp] theorem State.drive_draws (v : Nat) : (s.drive v).draws = s.draws := rfl
@[simp] theorem State.drive_target (v : Nat) : (s.drive v).target = s.target := rfl

@[simp] theorem State.release_phase (n : Nat) : (s.release n).phase = s.phase := rfl
@[simp] theorem State.release_width (n : Nat) : (s.release n).width = s.width := rfl
@[simp] theorem State.release_rxEn (n : Nat) : (s.release n).rxEn = s.rxEn := rfl
@[simp] theorem State.release_seq (n : Nat) : (s.release n).seq = s.seq := rfl
@[simp] theorem State.release_opRef (n : Nat) : (s.release n).opRef = s.opRef := rfl
@[simp] theorem State.release_opWdata (n : Nat) : (s.release n).opWdata = s.opWdata := rfl
@[simp] theorem State.release_value (n : Nat) : (s.release n).value = s.value := rfl
@[simp] theorem State.release_result (n : Nat) : (s.release n).result = s.result := rfl
@[simp] theorem State.release_ack (n : Nat) : (s.release n).ack = s.ack := rfl
@[simp] theorem State.release_rx (n : Nat) : (s.release n).rx = s.rx := rfl
@[simp] theorem State.release_initState (n : Nat) : (s.release n).initState = s.initState := rfl
@[simp] theorem State.release_idr (n : Nat) : (s.release n).idr = s.idr := rfl
@[simp] theorem State.release_selShadow (n : Nat) : (s.release n).selShadow = s.selShadow := rfl
@[simp] theorem State.release_trace (n : Nat) : (s.release n).trace = s.trace ++ (s.levels n).map Cycle.t := rfl
@[simp] theorem State.release_outputs (n : Nat) : (s.release n).outputs = s.outputs := rfl
@[simp] theorem State.release_calls (n : Nat) : (s.release n).calls = s.calls := rfl
@[simp] theorem State.release_signals (n : Nat) : (s.release n).signals = s.signals := rfl
@[simp] theorem State.release_draws (n : Nat) : (s.release n).draws = s.draws + n := rfl
@[simp] theorem State.release_target (n : Nat) : (s.release n).target = { s.target with out := s.target.out.drop n } := rfl

@[simp] theorem State.sampled_phase (l : List Bool) : (s.sampled l).phase = s.phase := rfl
@[simp] theorem State.sampled_width (l : List Bool) : (s.sampled l).width = s.width := rfl
@[simp] theorem State.sampled_rxEn (l : List Bool) : (s.sampled l).rxEn = s.rxEn := rfl
@[simp] theorem State.sampled_seq (l : List Bool) : (s.sampled l).seq = s.seq := rfl
@[simp] theorem State.sampled_opRef (l : List Bool) : (s.sampled l).opRef = s.opRef := rfl
@[simp] theorem State.sampled_opWdata (l : List Bool) : (s.sampled l).opWdata = s.opWdata := rfl
@[simp] theorem State.sampled_value (l : List Bool) : (s.sampled l).value = s.value := rfl
@[simp] theorem State.sampled_result (l : List Bool) : (s.sampled l).result = s.result := rfl
@[simp] theorem State.sampled_ack (l : List Bool) : (s.sampled l).ack = s.ack := rfl
@[simp] theorem State.sampled_rx (l : List Bool) : (s.sampled l).rx = s.rx ++ [l] := rfl
@[simp] theorem State.sampled_initState (l : List Bool) : (s.sampled l).initState = s.initState := rfl
@[simp] theorem State.sampled_idr (l : List Bool) : (s.sampled l).idr = s.idr := rfl
@[simp] theorem State.sampled_selShadow (l : List Bool) : (s.sampled l).selShadow = s.selShadow := rfl
@[simp] theorem State.sampled_trace (l : List Bool) : (s.sampled l).trace = s.trace := rfl
@[simp] theorem State.sampled_outputs (l : List Bool) : (s.sampled l).outputs = s.outputs := rfl
@[simp] theorem State.sampled_calls (l : List Bool) : (s.sampled l).calls = s.calls := rfl
@[simp] theorem State.sampled_signals (l : List Bool) : (s.sampled l).signals = s.signals := rfl
@[simp] theorem State.sampled_draws (l : List Bool) : (s.sampled l).draws = s.draws := rfl
@[simp] theorem State.sampled_target (l : List Bool) : (s.sampled l).target = s.target := rfl

/-- What a whole receive exchange leaves where its signals come (R136). -/
def State.receive (s : State) (p : Params) (n : Nat) : State := (s.release n).sampled (s.samples p n)

@[simp] theorem State.receive_phase (p : Params) (n : Nat) : (s.receive p n).phase = s.phase := rfl
@[simp] theorem State.receive_width (p : Params) (n : Nat) : (s.receive p n).width = s.width := rfl
@[simp] theorem State.receive_rxEn (p : Params) (n : Nat) : (s.receive p n).rxEn = s.rxEn := rfl
@[simp] theorem State.receive_seq (p : Params) (n : Nat) : (s.receive p n).seq = s.seq := rfl
@[simp] theorem State.receive_opRef (p : Params) (n : Nat) : (s.receive p n).opRef = s.opRef := rfl
@[simp] theorem State.receive_opWdata (p : Params) (n : Nat) : (s.receive p n).opWdata = s.opWdata := rfl
@[simp] theorem State.receive_value (p : Params) (n : Nat) : (s.receive p n).value = s.value := rfl
@[simp] theorem State.receive_result (p : Params) (n : Nat) : (s.receive p n).result = s.result := rfl
@[simp] theorem State.receive_ack (p : Params) (n : Nat) : (s.receive p n).ack = s.ack := rfl
@[simp] theorem State.receive_rx (p : Params) (n : Nat) : (s.receive p n).rx = s.rx ++ [s.samples p n] := rfl
@[simp] theorem State.receive_initState (p : Params) (n : Nat) : (s.receive p n).initState = s.initState := rfl
@[simp] theorem State.receive_idr (p : Params) (n : Nat) : (s.receive p n).idr = s.idr := rfl
@[simp] theorem State.receive_selShadow (p : Params) (n : Nat) : (s.receive p n).selShadow = s.selShadow := rfl
@[simp] theorem State.receive_trace (p : Params) (n : Nat) : (s.receive p n).trace = s.trace ++ (s.levels n).map Cycle.t := rfl
@[simp] theorem State.receive_outputs (p : Params) (n : Nat) : (s.receive p n).outputs = s.outputs := rfl
@[simp] theorem State.receive_calls (p : Params) (n : Nat) : (s.receive p n).calls = s.calls := rfl
@[simp] theorem State.receive_signals (p : Params) (n : Nat) : (s.receive p n).signals = s.signals := rfl
@[simp] theorem State.receive_draws (p : Params) (n : Nat) : (s.receive p n).draws = s.draws + n := rfl
@[simp] theorem State.receive_target (p : Params) (n : Nat) : (s.receive p n).target = { s.target with out := s.target.out.drop n } := rfl

@[simp] theorem State.targetHears_phase (b : Header) : (s.targetHears b).phase = s.phase := rfl
@[simp] theorem State.targetHears_width (b : Header) : (s.targetHears b).width = s.width := rfl
@[simp] theorem State.targetHears_rxEn (b : Header) : (s.targetHears b).rxEn = s.rxEn := rfl
@[simp] theorem State.targetHears_seq (b : Header) : (s.targetHears b).seq = s.seq := rfl
@[simp] theorem State.targetHears_opRef (b : Header) : (s.targetHears b).opRef = s.opRef := rfl
@[simp] theorem State.targetHears_opWdata (b : Header) : (s.targetHears b).opWdata = s.opWdata := rfl
@[simp] theorem State.targetHears_value (b : Header) : (s.targetHears b).value = s.value := rfl
@[simp] theorem State.targetHears_result (b : Header) : (s.targetHears b).result = s.result := rfl
@[simp] theorem State.targetHears_ack (b : Header) : (s.targetHears b).ack = s.ack := rfl
@[simp] theorem State.targetHears_rx (b : Header) : (s.targetHears b).rx = s.rx := rfl
@[simp] theorem State.targetHears_initState (b : Header) : (s.targetHears b).initState = s.initState := rfl
@[simp] theorem State.targetHears_idr (b : Header) : (s.targetHears b).idr = s.idr := rfl
@[simp] theorem State.targetHears_selShadow (b : Header) : (s.targetHears b).selShadow = s.selShadow := rfl
@[simp] theorem State.targetHears_trace (b : Header) : (s.targetHears b).trace = s.trace := rfl
@[simp] theorem State.targetHears_outputs (b : Header) : (s.targetHears b).outputs = s.outputs := rfl
@[simp] theorem State.targetHears_calls (b : Header) : (s.targetHears b).calls = s.calls := rfl
@[simp] theorem State.targetHears_signals (b : Header) : (s.targetHears b).signals = s.signals := rfl
@[simp] theorem State.targetHears_draws (b : Header) : (s.targetHears b).draws = s.draws := rfl
@[simp] theorem State.targetHears_target (b : Header) : (s.targetHears b).target = s.target.hears (Config.freeWord s.draws) b := rfl

@[simp] theorem State.targetTakes_phase : (s.targetTakes).phase = s.phase := rfl
@[simp] theorem State.targetTakes_width : (s.targetTakes).width = s.width := rfl
@[simp] theorem State.targetTakes_rxEn : (s.targetTakes).rxEn = s.rxEn := rfl
@[simp] theorem State.targetTakes_seq : (s.targetTakes).seq = s.seq := rfl
@[simp] theorem State.targetTakes_opRef : (s.targetTakes).opRef = s.opRef := rfl
@[simp] theorem State.targetTakes_opWdata : (s.targetTakes).opWdata = s.opWdata := rfl
@[simp] theorem State.targetTakes_value : (s.targetTakes).value = s.value := rfl
@[simp] theorem State.targetTakes_result : (s.targetTakes).result = s.result := rfl
@[simp] theorem State.targetTakes_ack : (s.targetTakes).ack = s.ack := rfl
@[simp] theorem State.targetTakes_rx : (s.targetTakes).rx = s.rx := rfl
@[simp] theorem State.targetTakes_initState : (s.targetTakes).initState = s.initState := rfl
@[simp] theorem State.targetTakes_idr : (s.targetTakes).idr = s.idr := rfl
@[simp] theorem State.targetTakes_selShadow : (s.targetTakes).selShadow = s.selShadow := rfl
@[simp] theorem State.targetTakes_trace : (s.targetTakes).trace = s.trace := rfl
@[simp] theorem State.targetTakes_outputs : (s.targetTakes).outputs = s.outputs := rfl
@[simp] theorem State.targetTakes_calls : (s.targetTakes).calls = s.calls := rfl
@[simp] theorem State.targetTakes_signals : (s.targetTakes).signals = s.signals := rfl
@[simp] theorem State.targetTakes_draws : (s.targetTakes).draws = s.draws + 1 := rfl
@[simp] theorem State.targetTakes_target : (s.targetTakes).target = s.target.takes (Config.freeWord s.draws) (wordOf ((s.lastDriven 33).take 32)) ((s.lastDriven 33).getD 32 false) := rfl

@[simp] theorem State.opens_phase (p : Pos) (r : RegRef) : (s.opens p r).phase = s.phase := rfl
@[simp] theorem State.opens_width (p : Pos) (r : RegRef) : (s.opens p r).width = s.width := rfl
@[simp] theorem State.opens_rxEn (p : Pos) (r : RegRef) : (s.opens p r).rxEn = s.rxEn := rfl
@[simp] theorem State.opens_seq (p : Pos) (r : RegRef) : (s.opens p r).seq = p :: s.seq := rfl
@[simp] theorem State.opens_opRef (p : Pos) (r : RegRef) : (s.opens p r).opRef = r := rfl
@[simp] theorem State.opens_opWdata (p : Pos) (r : RegRef) : (s.opens p r).opWdata = s.opWdata := rfl
@[simp] theorem State.opens_value (p : Pos) (r : RegRef) : (s.opens p r).value = s.value := rfl
@[simp] theorem State.opens_result (p : Pos) (r : RegRef) : (s.opens p r).result = s.result := rfl
@[simp] theorem State.opens_ack (p : Pos) (r : RegRef) : (s.opens p r).ack = none := rfl
@[simp] theorem State.opens_rx (p : Pos) (r : RegRef) : (s.opens p r).rx = [] := rfl
@[simp] theorem State.opens_initState (p : Pos) (r : RegRef) : (s.opens p r).initState = s.initState := rfl
@[simp] theorem State.opens_idr (p : Pos) (r : RegRef) : (s.opens p r).idr = s.idr := rfl
@[simp] theorem State.opens_selShadow (p : Pos) (r : RegRef) : (s.opens p r).selShadow = s.selShadow := rfl
@[simp] theorem State.opens_trace (p : Pos) (r : RegRef) : (s.opens p r).trace = s.trace := rfl
@[simp] theorem State.opens_outputs (p : Pos) (r : RegRef) : (s.opens p r).outputs = s.outputs := rfl
@[simp] theorem State.opens_calls (p : Pos) (r : RegRef) : (s.opens p r).calls = s.calls := rfl
@[simp] theorem State.opens_signals (p : Pos) (r : RegRef) : (s.opens p r).signals = s.signals := rfl
@[simp] theorem State.opens_draws (p : Pos) (r : RegRef) : (s.opens p r).draws = s.draws := rfl
@[simp] theorem State.opens_target (p : Pos) (r : RegRef) : (s.opens p r).target = s.target := rfl

@[simp] theorem State.acked_phase (p : Params) : (s.acked p).phase = s.phase := rfl
@[simp] theorem State.acked_width (p : Params) : (s.acked p).width = s.width := rfl
@[simp] theorem State.acked_rxEn (p : Params) : (s.acked p).rxEn = s.rxEn := rfl
@[simp] theorem State.acked_seq (p : Params) : (s.acked p).seq = s.seq := rfl
@[simp] theorem State.acked_opRef (p : Params) : (s.acked p).opRef = s.opRef := rfl
@[simp] theorem State.acked_opWdata (p : Params) : (s.acked p).opWdata = s.opWdata := rfl
@[simp] theorem State.acked_value (p : Params) : (s.acked p).value = s.value := rfl
@[simp] theorem State.acked_result (p : Params) : (s.acked p).result = s.result := rfl
@[simp] theorem State.acked_ack (p : Params) : (s.acked p).ack = some (ackSample p (s.sample 0)) := rfl
@[simp] theorem State.acked_rx (p : Params) : (s.acked p).rx = s.rx := rfl
@[simp] theorem State.acked_initState (p : Params) : (s.acked p).initState = s.initState := rfl
@[simp] theorem State.acked_idr (p : Params) : (s.acked p).idr = s.idr := rfl
@[simp] theorem State.acked_selShadow (p : Params) : (s.acked p).selShadow = s.selShadow := rfl
@[simp] theorem State.acked_trace (p : Params) : (s.acked p).trace = s.trace := rfl
@[simp] theorem State.acked_outputs (p : Params) : (s.acked p).outputs = s.outputs := rfl
@[simp] theorem State.acked_calls (p : Params) : (s.acked p).calls = s.calls := rfl
@[simp] theorem State.acked_signals (p : Params) : (s.acked p).signals = s.signals := rfl
@[simp] theorem State.acked_draws (p : Params) : (s.acked p).draws = s.draws := rfl
@[simp] theorem State.acked_target (p : Params) : (s.acked p).target = s.target := rfl

@[simp] theorem State.returns_phase (v : Option Word) (r : Result) : (s.returns v r).phase = s.phase := rfl
@[simp] theorem State.returns_width (v : Option Word) (r : Result) : (s.returns v r).width = s.width := rfl
@[simp] theorem State.returns_rxEn (v : Option Word) (r : Result) : (s.returns v r).rxEn = s.rxEn := rfl
@[simp] theorem State.returns_seq (v : Option Word) (r : Result) : (s.returns v r).seq = s.seq.tail := rfl
@[simp] theorem State.returns_opRef (v : Option Word) (r : Result) : (s.returns v r).opRef = s.opRef := rfl
@[simp] theorem State.returns_opWdata (v : Option Word) (r : Result) : (s.returns v r).opWdata = s.opWdata := rfl
@[simp] theorem State.returns_value (v : Option Word) (r : Result) : (s.returns v r).value = v := rfl
@[simp] theorem State.returns_result (v : Option Word) (r : Result) : (s.returns v r).result = some r := rfl
@[simp] theorem State.returns_ack (v : Option Word) (r : Result) : (s.returns v r).ack = none := rfl
@[simp] theorem State.returns_rx (v : Option Word) (r : Result) : (s.returns v r).rx = [] := rfl
@[simp] theorem State.returns_initState (v : Option Word) (r : Result) : (s.returns v r).initState = s.initState := rfl
@[simp] theorem State.returns_idr (v : Option Word) (r : Result) : (s.returns v r).idr = s.idr := rfl
@[simp] theorem State.returns_selShadow (v : Option Word) (r : Result) : (s.returns v r).selShadow = s.selShadow := rfl
@[simp] theorem State.returns_trace (v : Option Word) (r : Result) : (s.returns v r).trace = s.trace := rfl
@[simp] theorem State.returns_outputs (v : Option Word) (r : Result) : (s.returns v r).outputs = s.outputs := rfl
@[simp] theorem State.returns_calls (v : Option Word) (r : Result) : (s.returns v r).calls = s.calls := rfl
@[simp] theorem State.returns_signals (v : Option Word) (r : Result) : (s.returns v r).signals = s.signals := rfl
@[simp] theorem State.returns_draws (v : Option Word) (r : Result) : (s.returns v r).draws = s.draws := rfl
@[simp] theorem State.returns_target (v : Option Word) (r : Result) : (s.returns v r).target = s.target := rfl

@[simp] theorem State.reports_phase : (s.reports).phase = s.phase := rfl
@[simp] theorem State.reports_width : (s.reports).width = s.width := rfl
@[simp] theorem State.reports_rxEn : (s.reports).rxEn = s.rxEn := rfl
@[simp] theorem State.reports_seq : (s.reports).seq = s.seq := rfl
@[simp] theorem State.reports_opRef : (s.reports).opRef = s.opRef := rfl
@[simp] theorem State.reports_opWdata : (s.reports).opWdata = s.opWdata := rfl
@[simp] theorem State.reports_value : (s.reports).value = s.value := rfl
@[simp] theorem State.reports_result : (s.reports).result = s.result := rfl
@[simp] theorem State.reports_ack : (s.reports).ack = s.ack := rfl
@[simp] theorem State.reports_rx : (s.reports).rx = s.rx := rfl
@[simp] theorem State.reports_initState : (s.reports).initState = s.initState := rfl
@[simp] theorem State.reports_idr : (s.reports).idr = s.idr := rfl
@[simp] theorem State.reports_selShadow : (s.reports).selShadow = s.selShadow := rfl
@[simp] theorem State.reports_trace : (s.reports).trace = s.trace := rfl
@[simp] theorem State.reports_outputs : (s.reports).outputs = s.outputs ++ [(s.value, s.result)] := rfl
@[simp] theorem State.reports_calls : (s.reports).calls = s.calls := rfl
@[simp] theorem State.reports_signals : (s.reports).signals = s.signals := rfl
@[simp] theorem State.reports_draws : (s.reports).draws = s.draws := rfl
@[simp] theorem State.reports_target : (s.reports).target = s.target := rfl

@[simp] theorem State.startsInit_phase : (s.startsInit).phase = s.phase := rfl
@[simp] theorem State.startsInit_width : (s.startsInit).width = s.width := rfl
@[simp] theorem State.startsInit_rxEn : (s.startsInit).rxEn = s.rxEn := rfl
@[simp] theorem State.startsInit_seq : (s.startsInit).seq = [.dpInit] := rfl
@[simp] theorem State.startsInit_opRef : (s.startsInit).opRef = s.opRef := rfl
@[simp] theorem State.startsInit_opWdata : (s.startsInit).opWdata = s.opWdata := rfl
@[simp] theorem State.startsInit_value : (s.startsInit).value = s.value := rfl
@[simp] theorem State.startsInit_result : (s.startsInit).result = s.result := rfl
@[simp] theorem State.startsInit_ack : (s.startsInit).ack = s.ack := rfl
@[simp] theorem State.startsInit_rx : (s.startsInit).rx = s.rx := rfl
@[simp] theorem State.startsInit_initState : (s.startsInit).initState = .s1Reset := rfl
@[simp] theorem State.startsInit_idr : (s.startsInit).idr = none := rfl
@[simp] theorem State.startsInit_selShadow : (s.startsInit).selShadow = s.selShadow := rfl
@[simp] theorem State.startsInit_trace : (s.startsInit).trace = s.trace := rfl
@[simp] theorem State.startsInit_outputs : (s.startsInit).outputs = s.outputs := rfl
@[simp] theorem State.startsInit_calls : (s.startsInit).calls = s.calls := rfl
@[simp] theorem State.startsInit_signals : (s.startsInit).signals = s.signals := rfl
@[simp] theorem State.startsInit_draws : (s.startsInit).draws = s.draws := rfl
@[simp] theorem State.startsInit_target : (s.startsInit).target = s.target := rfl

@[simp] theorem State.placeCall_phase (c : CallWord) : (s.placeCall c).phase = s.phase := rfl
@[simp] theorem State.placeCall_width (c : CallWord) : (s.placeCall c).width = s.width := rfl
@[simp] theorem State.placeCall_rxEn (c : CallWord) : (s.placeCall c).rxEn = s.rxEn := rfl
@[simp] theorem State.placeCall_seq (c : CallWord) : (s.placeCall c).seq = s.seq := rfl
@[simp] theorem State.placeCall_opRef (c : CallWord) : (s.placeCall c).opRef = s.opRef := rfl
@[simp] theorem State.placeCall_opWdata (c : CallWord) : (s.placeCall c).opWdata = s.opWdata := rfl
@[simp] theorem State.placeCall_value (c : CallWord) : (s.placeCall c).value = s.value := rfl
@[simp] theorem State.placeCall_result (c : CallWord) : (s.placeCall c).result = s.result := rfl
@[simp] theorem State.placeCall_ack (c : CallWord) : (s.placeCall c).ack = s.ack := rfl
@[simp] theorem State.placeCall_rx (c : CallWord) : (s.placeCall c).rx = s.rx := rfl
@[simp] theorem State.placeCall_initState (c : CallWord) : (s.placeCall c).initState = s.initState := rfl
@[simp] theorem State.placeCall_idr (c : CallWord) : (s.placeCall c).idr = s.idr := rfl
@[simp] theorem State.placeCall_selShadow (c : CallWord) : (s.placeCall c).selShadow = s.selShadow := rfl
@[simp] theorem State.placeCall_trace (c : CallWord) : (s.placeCall c).trace = s.trace := rfl
@[simp] theorem State.placeCall_outputs (c : CallWord) : (s.placeCall c).outputs = s.outputs := rfl
@[simp] theorem State.placeCall_calls (c : CallWord) : (s.placeCall c).calls = c :: s.calls := rfl
@[simp] theorem State.placeCall_signals (c : CallWord) : (s.placeCall c).signals = s.signals := rfl
@[simp] theorem State.placeCall_draws (c : CallWord) : (s.placeCall c).draws = s.draws := rfl
@[simp] theorem State.placeCall_target (c : CallWord) : (s.placeCall c).target = s.target := rfl

@[simp] theorem State.shadows_phase (q : Port) (sl : Slot) (v : Word) : (s.shadows q sl v).phase = s.phase := by unfold State.shadows; split <;> rfl
@[simp] theorem State.shadows_width (q : Port) (sl : Slot) (v : Word) : (s.shadows q sl v).width = s.width := by unfold State.shadows; split <;> rfl
@[simp] theorem State.shadows_rxEn (q : Port) (sl : Slot) (v : Word) : (s.shadows q sl v).rxEn = s.rxEn := by unfold State.shadows; split <;> rfl
@[simp] theorem State.shadows_seq (q : Port) (sl : Slot) (v : Word) : (s.shadows q sl v).seq = s.seq := by unfold State.shadows; split <;> rfl
@[simp] theorem State.shadows_opRef (q : Port) (sl : Slot) (v : Word) : (s.shadows q sl v).opRef = s.opRef := by unfold State.shadows; split <;> rfl
@[simp] theorem State.shadows_opWdata (q : Port) (sl : Slot) (v : Word) : (s.shadows q sl v).opWdata = s.opWdata := by unfold State.shadows; split <;> rfl
@[simp] theorem State.shadows_value (q : Port) (sl : Slot) (v : Word) : (s.shadows q sl v).value = s.value := by unfold State.shadows; split <;> rfl
@[simp] theorem State.shadows_result (q : Port) (sl : Slot) (v : Word) : (s.shadows q sl v).result = s.result := by unfold State.shadows; split <;> rfl
@[simp] theorem State.shadows_ack (q : Port) (sl : Slot) (v : Word) : (s.shadows q sl v).ack = s.ack := by unfold State.shadows; split <;> rfl
@[simp] theorem State.shadows_rx (q : Port) (sl : Slot) (v : Word) : (s.shadows q sl v).rx = s.rx := by unfold State.shadows; split <;> rfl
@[simp] theorem State.shadows_initState (q : Port) (sl : Slot) (v : Word) : (s.shadows q sl v).initState = s.initState := by unfold State.shadows; split <;> rfl
@[simp] theorem State.shadows_idr (q : Port) (sl : Slot) (v : Word) : (s.shadows q sl v).idr = s.idr := by unfold State.shadows; split <;> rfl
@[simp] theorem State.shadows_trace (q : Port) (sl : Slot) (v : Word) : (s.shadows q sl v).trace = s.trace := by unfold State.shadows; split <;> rfl
@[simp] theorem State.shadows_outputs (q : Port) (sl : Slot) (v : Word) : (s.shadows q sl v).outputs = s.outputs := by unfold State.shadows; split <;> rfl
@[simp] theorem State.shadows_calls (q : Port) (sl : Slot) (v : Word) : (s.shadows q sl v).calls = s.calls := by unfold State.shadows; split <;> rfl
@[simp] theorem State.shadows_signals (q : Port) (sl : Slot) (v : Word) : (s.shadows q sl v).signals = s.signals := by unfold State.shadows; split <;> rfl
@[simp] theorem State.shadows_draws (q : Port) (sl : Slot) (v : Word) : (s.shadows q sl v).draws = s.draws := by unfold State.shadows; split <;> rfl
@[simp] theorem State.shadows_target (q : Port) (sl : Slot) (v : Word) : (s.shadows q sl v).target = s.target := by unfold State.shadows; split <;> rfl

@[simp] theorem State.takesIdr_phase (w : Word) : (s.takesIdr w).phase = s.phase := by unfold State.takesIdr; split <;> rfl
@[simp] theorem State.takesIdr_width (w : Word) : (s.takesIdr w).width = s.width := by unfold State.takesIdr; split <;> rfl
@[simp] theorem State.takesIdr_rxEn (w : Word) : (s.takesIdr w).rxEn = s.rxEn := by unfold State.takesIdr; split <;> rfl
@[simp] theorem State.takesIdr_seq (w : Word) : (s.takesIdr w).seq = s.seq := by unfold State.takesIdr; split <;> rfl
@[simp] theorem State.takesIdr_opRef (w : Word) : (s.takesIdr w).opRef = s.opRef := by unfold State.takesIdr; split <;> rfl
@[simp] theorem State.takesIdr_opWdata (w : Word) : (s.takesIdr w).opWdata = s.opWdata := by unfold State.takesIdr; split <;> rfl
@[simp] theorem State.takesIdr_value (w : Word) : (s.takesIdr w).value = s.value := by unfold State.takesIdr; split <;> rfl
@[simp] theorem State.takesIdr_result (w : Word) : (s.takesIdr w).result = s.result := by unfold State.takesIdr; split <;> rfl
@[simp] theorem State.takesIdr_ack (w : Word) : (s.takesIdr w).ack = s.ack := by unfold State.takesIdr; split <;> rfl
@[simp] theorem State.takesIdr_rx (w : Word) : (s.takesIdr w).rx = s.rx := by unfold State.takesIdr; split <;> rfl
@[simp] theorem State.takesIdr_initState (w : Word) : (s.takesIdr w).initState = s.initState := by unfold State.takesIdr; split <;> rfl
@[simp] theorem State.takesIdr_selShadow (w : Word) : (s.takesIdr w).selShadow = s.selShadow := by unfold State.takesIdr; split <;> rfl
@[simp] theorem State.takesIdr_trace (w : Word) : (s.takesIdr w).trace = s.trace := by unfold State.takesIdr; split <;> rfl
@[simp] theorem State.takesIdr_outputs (w : Word) : (s.takesIdr w).outputs = s.outputs := by unfold State.takesIdr; split <;> rfl
@[simp] theorem State.takesIdr_calls (w : Word) : (s.takesIdr w).calls = s.calls := by unfold State.takesIdr; split <;> rfl
@[simp] theorem State.takesIdr_signals (w : Word) : (s.takesIdr w).signals = s.signals := by unfold State.takesIdr; split <;> rfl
@[simp] theorem State.takesIdr_draws (w : Word) : (s.takesIdr w).draws = s.draws := by unfold State.takesIdr; split <;> rfl
@[simp] theorem State.takesIdr_target (w : Word) : (s.takesIdr w).target = s.target := by unfold State.takesIdr; split <;> rfl

@[simp] theorem State.endsInit_value (v : Option Word) (r : Option Result) : (s.endsInit v r).value = v := rfl
@[simp] theorem State.endsInit_result (v : Option Word) (r : Option Result) : (s.endsInit v r).result = r := rfl
@[simp] theorem State.endsInit_seq (v : Option Word) (r : Option Result) : (s.endsInit v r).seq = [] := rfl
@[simp] theorem State.endsInit_initState (v : Option Word) (r : Option Result) :
    (s.endsInit v r).initState = .idle := rfl
@[simp] theorem State.endsInit_outputs (v : Option Word) (r : Option Result) :
    (s.endsInit v r).outputs = s.outputs ++ [(v, r)] := rfl
@[simp] theorem State.endsInit_trace (v : Option Word) (r : Option Result) : (s.endsInit v r).trace = s.trace := rfl
@[simp] theorem State.endsInit_target (v : Option Word) (r : Option Result) : (s.endsInit v r).target = s.target := rfl
@[simp] theorem State.endsInit_idr (v : Option Word) (r : Option Result) : (s.endsInit v r).idr = s.idr := rfl
@[simp] theorem State.endsInit_selShadow (v : Option Word) (r : Option Result) :
    (s.endsInit v r).selShadow = s.selShadow := rfl

/-- A transaction of the inner line leaves the ghost to writes of SELECT (R35). -/
theorem State.shadows_selShadow (q : Port) (sl : Slot) (v : Word) :
    (s.shadows q sl v).selShadow = if q = .dp ∧ sl = .a2 then some v else s.selShadow := by
  unfold State.shadows; split <;> rfl

theorem State.takesIdr_idr (w : Word) :
    (s.takesIdr w).idr = if s.initState = .s4ReadBuf then some w else s.idr := by
  unfold State.takesIdr; split <;> rfl

end Sys2Proof.Machine
end

