-- ==== Sys2Proof/Laws/Run.lean ====
section
/-! SUPPORT. How an operation's steps compose: `andThen` on each outcome, and `Run.Ends P Q`, "if it is done then in
a state with `P`, if it hangs then in a state with `Q`", with which a property of an operation is proved step by
step. -/

namespace Sys2Proof.Machine

@[simp] theorem Run.andThen_done (s : State) (f : State → Run) : (Run.done s).andThen f = f s := rfl
@[simp] theorem Run.andThen_hung (s : State) (f : State → Run) : (Run.hung s).andThen f = .hung s := rfl
@[simp] theorem Run.andThen_fault (e : Fault) (f : State → Run) : (Run.fault e).andThen f = .fault e := rfl
@[simp] theorem Run.andThen_refused (e : Refusal) (f : State → Run) : (Run.refused e).andThen f = .refused e := rfl
@[simp] theorem Run.outcome_done (s : State) : (Run.done s).outcome = .next s := rfl
@[simp] theorem Run.outcome_hung (s : State) : (Run.hung s).outcome = .next s := rfl
@[simp] theorem Run.outcome_fault (e : Fault) : (Run.fault e).outcome = .fault e := rfl
@[simp] theorem Run.outcome_refused (e : Refusal) : (Run.refused e).outcome = .refused e := rfl

/-- An operation whose first part is done goes on with the rest. -/
theorem Run.andThen_eq {r : Run} {t : State} (f : State → Run) (h : r = .done t) : r.andThen f = f t := by
  rw [h]; rfl

/-- Steps grouped to the left are the steps grouped to the right. -/
theorem Run.andThen_assoc (r : Run) (f g : State → Run) :
    (r.andThen f).andThen g = r.andThen fun s => (f s).andThen g := by cases r <;> rfl

/-- Where an operation ends: done in a state with `P`, hung in a state with `Q`; faults and refusals are allowed. -/
def Run.Ends (P Q : State → Prop) (r : Run) : Prop :=
  match r with
  | .done s => P s
  | .hung s => Q s
  | .fault _ | .refused _ => True

variable {P P' Q Q' : State → Prop} {r : Run} {f : State → Run}

@[simp] theorem Run.ends_done (s : State) : (Run.done s).Ends P Q ↔ P s := Iff.rfl
@[simp] theorem Run.ends_hung (s : State) : (Run.hung s).Ends P Q ↔ Q s := Iff.rfl
@[simp] theorem Run.ends_fault (e : Fault) : (Run.fault e).Ends P Q := trivial
@[simp] theorem Run.ends_refused (e : Refusal) : (Run.refused e).Ends P Q := trivial

/-- An operation ends as it should when its first part does and the rest does from every state the first part can be
done in. -/
theorem Run.Ends.andThen (h : r.Ends P' Q) (k : ∀ s, P' s → (f s).Ends P Q) : (r.andThen f).Ends P Q := by
  cases r with
  | done s => exact k s h
  | hung s => exact h
  | fault e => trivial
  | refused e => trivial

theorem Run.Ends.mono (h : r.Ends P Q) (hp : ∀ s, P s → P' s) (hq : ∀ s, Q s → Q' s) : r.Ends P' Q' := by
  cases r with
  | done s => exact hp s h
  | hung s => exact hq s h
  | fault e => trivial
  | refused e => trivial

/-- A next state is one an operation is done or hangs in. -/
theorem Run.Ends.next {t : State} (h : r.Ends P Q) (e : r.outcome = .next t) : P t ∨ Q t := by
  cases r with
  | done s => cases e; exact .inl h
  | hung s => cases e; exact .inr h
  | fault x => cases e
  | refused x => cases e

end Sys2Proof.Machine
end

