-- ==== Sys2Proof/Laws/Transport.lean ====
section
/-! SUPPORT. One lemma a transport primitive: what it does to an engaged engine whose peripheral signals, and, from
any state, how it ends (`Keeps`, `Mid`, `Stuck`). -/

namespace Sys2Proof.Machine

/-! ### An engine whose peripheral signals -/

section Signalling
variable {s : State}

theorem awaitSignal_none (h : s.signals = none) : awaitSignal s = .done s := by simp [awaitSignal, h]

theorem setWidth_engaged (h : s.phase = .engaged) (w : Width) : setWidth w.bits s = .done { s with width := w } := by
  cases w <;> simp [setWidth, h, Width.ofBits, Width.bits]

theorem setWidth5 (h : s.phase = .engaged) : setWidth 5 s = .done { s with width := .w5 } := setWidth_engaged h .w5
theorem setWidth8 (h : s.phase = .engaged) : setWidth 8 s = .done { s with width := .w8 } := setWidth_engaged h .w8
theorem setWidth11 (h : s.phase = .engaged) : setWidth 11 s = .done { s with width := .w11 } := setWidth_engaged h .w11

theorem rxEnable_engaged (h : s.phase = .engaged) : rxEnable s = .done { s with rxEn := true } := by
  simp [rxEnable, h]

theorem rxDisable_engaged (h : s.phase = .engaged) : rxDisable s = .done { s with rxEn := false } := by
  simp [rxDisable, h]

theorem txFrame_driving (v : Nat) (h : s.phase = .engaged) (hr : s.rxEn = false) (hs : s.signals = none)
    (hv : v < 2 ^ s.width.bits) : txFrame v s = .done (s.drive v) := by
  simp [txFrame, h, hr, hv, awaitSignal_none hs, awaitSignal_none (s := s.drive v) hs]

theorem xchgFrame_receiving (p : Params) (h : s.phase = .engaged) (hr : s.rxEn = true) (hs : s.signals = none) :
    xchgFrame p s = .done (s.receive p s.width.bits) := by
  simp [xchgFrame, h, hr, awaitSignal_none hs, awaitSignal_none (s := s.release s.width.bits) hs, State.receive]

end Signalling

/-! ### How a primitive ends, from any state -/

/-- What no step of a transaction touches, and how the trace and the target's memory may change. -/
structure Keeps (s t : State) : Prop where
  phase     : t.phase = s.phase
  opWdata   : t.opWdata = s.opWdata
  initState : t.initState = s.initState
  idr       : t.idr = s.idr
  outputs   : t.outputs = s.outputs
  calls     : t.calls = s.calls
  trace     : ∃ l, t.trace = s.trace ++ l
  mem       : s.target.mem.wf → t.target.mem.wf

theorem Keeps.refl (s : State) : Keeps s s := ⟨rfl, rfl, rfl, rfl, rfl, rfl, ⟨[], by simp⟩, id⟩

theorem Keeps.trans {s t u : State} (h : Keeps s t) (k : Keeps t u) : Keeps s u := by
  obtain ⟨l, hl⟩ := h.trace
  obtain ⟨m, hm⟩ := k.trace
  exact ⟨k.phase.trans h.phase, k.opWdata.trans h.opWdata, k.initState.trans h.initState, k.idr.trans h.idr, k.outputs.trans h.outputs,
    k.calls.trans h.calls, ⟨l ++ m, by rw [hm, hl, List.append_assoc]⟩, fun w => k.mem (h.mem w)⟩

/-- In the middle of a transaction that started in `s`, called from `outer`: its outputs are not written yet. -/
structure Mid (s : State) (outer : List Pos) (t : State) : Prop where
  keeps  : Keeps s t
  value  : t.value = s.value
  result : t.result = s.result
  shadow : t.selShadow = s.selShadow
  seq    : ∃ p, p ≠ .dpInit ∧ t.seq = p :: outer

/-- Waiting for ever inside an operation that started in `s`, called from `outer`. -/
structure Stuck (s : State) (outer : List Pos) (t : State) : Prop where
  keeps   : Keeps s t
  value   : t.value = s.value
  result  : t.result = s.result
  shadow  : t.selShadow = s.selShadow
  seq     : ∃ l, l ≠ [] ∧ .dpInit ∉ l ∧ t.seq = l ++ outer
  signals : t.signals = some 0

section Ends
variable {s u : State} {o : List Pos}

theorem Mid.stuck (h : Mid s o u) (hs : u.signals = some 0) : Stuck s o u := by
  obtain ⟨p, hp, hq⟩ := h.seq
  exact ⟨h.keeps, h.value, h.result, h.shadow, ⟨[p], by simp, by simpa using Ne.symm hp, by simpa using hq⟩, hs⟩

theorem Mid.goto (h : Mid s o u) (p : Pos) (hp : p ≠ .dpInit) : Mid s o (u.goto p) := by
  obtain ⟨q, hq, hu⟩ := h.seq
  obtain ⟨k, hv, hr, hw, -⟩ := h
  exact ⟨⟨k.phase, k.opWdata, k.initState, k.idr, k.outputs, k.calls, k.trace, k.mem⟩, hv, hr, hw, p, hp, by simp [hu]⟩

theorem Mid.hears (h : Mid s o u) (b : Header) : Mid s o (u.targetHears b) := by
  obtain ⟨k, hv, hr, hw, hq⟩ := h
  exact ⟨⟨k.phase, k.opWdata, k.initState, k.idr, k.outputs, k.calls, k.trace, fun w => Target.hears_wf _ _ _ (k.mem w)⟩,
    hv, hr, hw, hq⟩

theorem Mid.takes (h : Mid s o u) : Mid s o u.targetTakes := by
  obtain ⟨k, hv, hr, hw, hq⟩ := h
  exact ⟨⟨k.phase, k.opWdata, k.initState, k.idr, k.outputs, k.calls, k.trace, fun w => Target.takes_wf _ _ _ _ (k.mem w)⟩,
    hv, hr, hw, hq⟩

theorem Mid.acked (h : Mid s o u) (p : Params) : Mid s o (u.acked p) := by
  obtain ⟨k, hv, hr, hw, hq⟩ := h
  exact ⟨⟨k.phase, k.opWdata, k.initState, k.idr, k.outputs, k.calls, k.trace, k.mem⟩, hv, hr, hw, hq⟩

theorem Mid.opens (p : Pos) (hp : p ≠ .dpInit) (r : RegRef) : Mid s s.seq (s.opens p r) :=
  ⟨⟨rfl, rfl, rfl, rfl, rfl, rfl, ⟨[], by simp⟩, id⟩, rfl, rfl, rfl, p, hp, rfl⟩

theorem Mid.with_signals (h : Mid s o u) (n : Option Nat) : Mid s o { u with signals := n } := by
  obtain ⟨k, hv, hr, hw, hq⟩ := h
  exact ⟨⟨k.phase, k.opWdata, k.initState, k.idr, k.outputs, k.calls, k.trace, k.mem⟩, hv, hr, hw, hq⟩

theorem Mid.with_width (h : Mid s o u) (w : Width) : Mid s o { u with width := w } := by
  obtain ⟨k, hv, hr, hw, hq⟩ := h
  exact ⟨⟨k.phase, k.opWdata, k.initState, k.idr, k.outputs, k.calls, k.trace, k.mem⟩, hv, hr, hw, hq⟩

theorem Mid.with_rxEn (h : Mid s o u) (b : Bool) : Mid s o { u with rxEn := b } := by
  obtain ⟨k, hv, hr, hw, hq⟩ := h
  exact ⟨⟨k.phase, k.opWdata, k.initState, k.idr, k.outputs, k.calls, k.trace, k.mem⟩, hv, hr, hw, hq⟩

theorem Mid.drive (h : Mid s o u) (v : Nat) : Mid s o (u.drive v) := by
  obtain ⟨k, hv, hr, hw, hq⟩ := h
  obtain ⟨l, hl⟩ := k.trace
  exact ⟨⟨k.phase, k.opWdata, k.initState, k.idr, k.outputs, k.calls, ⟨_, by rw [State.drive_trace, hl, List.append_assoc]⟩,
    k.mem⟩, hv, hr, hw, hq⟩

theorem Mid.release (h : Mid s o u) (n : Nat) : Mid s o (u.release n) := by
  obtain ⟨k, hv, hr, hw, hq⟩ := h
  obtain ⟨l, hl⟩ := k.trace
  exact ⟨⟨k.phase, k.opWdata, k.initState, k.idr, k.outputs, k.calls, ⟨_, by rw [State.release_trace, hl, List.append_assoc]⟩,
    k.mem⟩, hv, hr, hw, hq⟩

theorem Mid.sampled (h : Mid s o u) (l : List Bool) : Mid s o (u.sampled l) := by
  obtain ⟨k, hv, hr, hw, hq⟩ := h
  exact ⟨⟨k.phase, k.opWdata, k.initState, k.idr, k.outputs, k.calls, k.trace, k.mem⟩, hv, hr, hw, hq⟩

/-- A wait ends with one signal less, or for ever. -/
theorem awaitSignal_ends (h : Mid s o u) :
    (awaitSignal u).Ends (fun t => Mid s o t ∧ t.rxEn = u.rxEn ∧ t.width = u.width) (Stuck s o) := by
  unfold awaitSignal
  split
  · exact ⟨h, rfl, rfl⟩
  · rename_i hs; exact h.stuck hs
  · exact ⟨h.with_signals _, rfl, rfl⟩

theorem setWidth_ends (h : Mid s o u) (w : Width) :
    (setWidth w.bits u).Ends (fun t => Mid s o t ∧ t.rxEn = u.rxEn ∧ t.width = w) (Stuck s o) := by
  by_cases hp : u.phase = .engaged
  · rw [setWidth_engaged hp]; exact ⟨h.with_width w, rfl, rfl⟩
  · simp [setWidth, hp]

theorem rxEnable_ends (h : Mid s o u) : (rxEnable u).Ends (fun t => Mid s o t) (Stuck s o) := by
  unfold rxEnable; split
  · exact h.with_rxEn true
  · trivial

theorem rxDisable_ends (h : Mid s o u) :
    (rxDisable u).Ends (fun t => Mid s o t ∧ t.rxEn = false ∧ t.width = u.width) (Stuck s o) := by
  unfold rxDisable; split
  · exact ⟨h.with_rxEn false, rfl, rfl⟩
  · trivial

theorem txFrame_ends (h : Mid s o u) (v : Nat) :
    (txFrame v u).Ends (fun t => Mid s o t ∧ t.rxEn = u.rxEn ∧ t.width = u.width) (Stuck s o) := by
  unfold txFrame
  split; swap; · trivial
  split; swap; · trivial
  split; swap; · trivial
  refine (awaitSignal_ends h).andThen fun a ⟨ha, hr, hw⟩ => ?_
  exact (awaitSignal_ends (ha.drive v)).mono (fun t ⟨ht, hr', hw'⟩ => ⟨ht, hr'.trans hr, hw'.trans hw⟩)
    fun _ h => h

theorem xchgFrame_ends (h : Mid s o u) (p : Params) : (xchgFrame p u).Ends (Mid s o) (Stuck s o) := by
  unfold xchgFrame
  split; swap; · trivial
  split; swap; · trivial
  refine (awaitSignal_ends h).andThen fun a ha => ?_
  exact (awaitSignal_ends (ha.1.release _)).andThen fun b hb => hb.1.sampled _

end Ends

end Sys2Proof.Machine
end

