-- ==== Sys2Proof/Laws/Line.lean ====
section
/-! SUPPORT. One lemma a line-protocol operation: what it leaves when the engine is ready (`readTransaction_ready`,
`writeTransaction_ready`, `lineResetTransaction_ready`), and, from any state, how it ends (`…_ends`). -/

namespace Sys2Proof.Machine

/-! ### Runs of levels -/

/-- The `n` levels from the `a`-th on. -/
def seg (L : Nat → Bool) (a n : Nat) : List Bool := (List.range n).map fun k => L (a + k)

@[simp] theorem seg_length (L : Nat → Bool) (a n : Nat) : (seg L a n).length = n := by simp [seg]

theorem getElem?_seg (L : Nat → Bool) (a n i : Nat) : (seg L a n)[i]? = if i < n then some (L (a + i)) else none := by
  unfold seg
  by_cases h : i < n <;> simp [h]

theorem seg_append (L : Nat → Bool) (a n m : Nat) : seg L a n ++ seg L (a + n) m = seg L a (n + m) := by
  simp [seg, List.range_add, Nat.add_assoc]

theorem seg_take (L : Nat → Bool) (a n k : Nat) (h : k ≤ n) : (seg L a n).take k = seg L a k := by
  obtain ⟨m, rfl⟩ := Nat.exists_eq_add_of_le h
  rw [← seg_append, List.take_left' (seg_length L a k)]

theorem seg_drop (L : Nat → Bool) (a n k : Nat) : (seg L a (k + n)).drop k = seg L (a + k) n := by
  rw [← seg_append, List.drop_left' (seg_length L a k)]

theorem seg_cons (L : Nat → Bool) (a n : Nat) : L a :: seg L (a + 1) n = seg L a (n + 1) := by
  rw [show n + 1 = 1 + n from Nat.add_comm n 1, ← seg_append]; rfl

theorem seg_shift (L : Nat → Bool) (a b n : Nat) : seg (fun k => L (a + k)) b n = seg L (a + b) n := by
  simp [seg, Nat.add_assoc]

/-- The levels of a state are a run of its `level`. -/
theorem State.levels_eq_seg (s : State) (n : Nat) : s.levels n = seg s.level 0 n := by
  simp [State.levels, seg]

/-- Three pieces of a word, each shifted to its place (R103, R177). -/
theorem wordOf_three (a b c : List Bool) :
    wordOf a ||| (wordOf b <<< a.length) ||| (wordOf c <<< (a.length + b.length)) = wordOf (a ++ (b ++ c)) := by
  rw [wordOf_append, wordOf_append, BitVec.shiftLeft_or_distrib, ← BitVec.shiftLeft_add, BitVec.or_assoc,
    Nat.add_comm b.length]

/-! ### Samples (R101) -/

/-- The levels still to come after a receive exchange. -/
theorem State.level_receive (s : State) (p : Params) (n : Nat) : (s.receive p n).level = fun k => s.level (n + k) := by
  funext k; simp [State.level, Nat.add_assoc]

/-- After a receive exchange a lagging receiver samples first the last level of it. -/
theorem State.lateSample_receive (s : State) (p : Params) (n : Nat) : (s.receive p (n + 1)).lateSample = s.level n := by
  simp [State.lateSample, State.levels, List.range_succ]

/-- After a driven frame a lagging receiver samples first a level the spec does not give (R101, U2). -/
theorem lateSample_driven (s : State) (l : List Cycle) (b : Bool) (h : s.trace = l ++ [Cycle.h b]) :
    s.lateSample = Config.freeEarly s.draws := by
  simp [State.lateSample, h]

/-- A frame's samples when the receiver does not lag. -/
theorem samples_same {p : Params} (h : p.rxOffset = .same) (s : State) (n : Nat) : s.samples p n = seg s.level 0 n := by
  rw [State.samples, h, State.levels_eq_seg]

/-- A frame's samples when the receiver lags one cycle. -/
theorem samples_late {p : Params} (h : p.rxOffset = .late) (s : State) (n : Nat) :
    s.samples p (n + 1) = s.lateSample :: seg s.level 0 n := by
  rw [State.samples, h]
  simp only [List.take_succ_cons, State.levels_eq_seg, seg_take s.level 0 (n + 1) n (by omega)]

/-! ### A transaction of a ready engine -/

section Ready
variable {s : State}

/-- The ack frame's sample (R102). -/
def State.ackFrame (s : State) (p : Params) (r : RegRef) : List Bool :=
  let L := (s.targetHears (req r)).level
  match p.rxOffset with
  | .same => seg L 0 5
  | .late => Config.freeEarly s.draws :: seg L 0 4

/-- The acknowledgement read from the ack frame is the one in cycles `c1` to `c3`, under both offsets (R102). -/
theorem ackSample_ackFrame (s : State) (p : Params) (r : RegRef) :
    ackSample p (s.ackFrame p r) = ackOf ((lineLevels s r 4).drop 1) := by
  rw [lineLevels, State.levels_eq_seg]
  cases h : p.rxOffset <;> simp only [ackSample, State.ackFrame, h]
  · rw [show (5 : Nat) = 1 + 4 from rfl, seg_drop, show (4 : Nat) = 1 + 3 from rfl, seg_drop,
      seg_take _ _ _ 3 (by omega)]
  · rw [List.drop_succ_cons, show (4 : Nat) = 1 + 3 from rfl, seg_drop, seg_take _ _ _ 3 (by omega)]

/-- The state after the header and ack phases (R104, R105). -/
def State.requested (s : State) (p : Params) (step : Nat → Pos) (r : RegRef) : State :=
  { s.afterCycles r 5 with
    seq := step 3 :: s.seq, width := .w5, rxEn := true
    rx := [s.ackFrame p r], ack := some (ackSample p (s.ackFrame p r)) }

theorem req_lt (r : RegRef) : (req r).toNat < 2 ^ 8 := (req r).isLt

theorem bitsOf_req (r : RegRef) :
    bitsOf 8 (req r).toNat = bitsOf 7 (req r).toNat ++ [(req r).toNat.testBit 7] := by
  simp [bitsOf, List.range_succ]

/-- The samples of the ack frame, from a state in which the header has just been driven. -/
theorem samples_ackFrame (p : Params) (r : RegRef) (u : State) (ht : u.trace = s.trace ++ headerCycles r)
    (hd : u.draws = s.draws) (hl : u.level = (s.targetHears (req r)).level) : u.samples p 5 = s.ackFrame p r := by
  cases hp : p.rxOffset
  · rw [samples_same hp, hl, State.ackFrame, hp]
  · rw [samples_late hp, hl, State.ackFrame, hp,
      lateSample_driven u (s.trace ++ (bitsOf 7 (req r).toNat).map Cycle.h) ((req r).toNat.testBit 7)
        (by rw [ht, headerCycles, bitsOf_req]; simp), hd]

theorem requestPhase_ready (h : Ready s) (p : Params) (step : Nat → Pos) (r : RegRef) :
    requestPhase p step r s = .done (s.requested p step r) := by
  unfold requestPhase
  refine Eq.trans (Run.andThen_eq _ (txFrame_driving _ h.phase h.rxEn h.signals
    (by simpa [h.width, Width.bits] using req_lt r))) ?_
  refine Eq.trans (Run.andThen_eq _ (rxEnable_engaged h.phase)) ?_
  refine Eq.trans (Run.andThen_eq _ (setWidth5 h.phase)) ?_
  refine Eq.trans (Run.andThen_eq _ (xchgFrame_receiving p h.phase rfl h.signals)) ?_
  rcases s with ⟨phase, width, rxEn, seq, opRef, opWdata, value, result, ack, rx, initState, idr, selShadow, trace, outputs,
    calls, signals, draws, target⟩
  obtain ⟨h1, h2, h3, h4⟩ := h
  simp only at h1 h2 h3 h4
  subst h1 h2 h3 h4
  let o : State := ⟨.engaged, .w8, false, seq, opRef, opWdata, value, result, ack, rx, initState, idr, selShadow, trace,
    outputs, calls, none, draws, target⟩
  let u : State := { ((o.opens (step 3) r).drive (req r).toNat).targetHears (req r) with rxEn := true, width := .w5 }
  have e : u.samples p 5 = o.ackFrame p r := samples_ackFrame p r u rfl rfl rfl
  simp only [State.requested]
  rw [← e]
  rfl

/-! #### Data frames of a read -/

/-- Two receive exchanges clock the cycles of one as long as both. -/
theorem receive_receive (u : State) (p : Params) (n m : Nat) :
    (u.receive p n).receive p m =
      { u.receive p (n + m) with rx := u.rx ++ [u.samples p n] ++ [(u.receive p n).samples p m] } := by
  have hl : u.levels n ++ (u.receive p n).levels m = u.levels (n + m) := by
    rw [State.levels_eq_seg, State.levels_eq_seg, State.levels_eq_seg, State.level_receive, seg_shift]
    simpa using seg_append u.level 0 n m
  have ht : u.trace ++ (u.levels n).map Cycle.t ++ ((u.receive p n).levels m).map Cycle.t
      = u.trace ++ (u.levels (n + m)).map Cycle.t := by
    rw [List.append_assoc, ← List.map_append, hl]
  have hd : (u.target.out.drop n).drop m = u.target.out.drop (n + m) := by rw [List.drop_drop]
  have ha : u.draws + n + m = u.draws + (n + m) := Nat.add_assoc _ _ _
  simp only [State.receive, State.release, State.sampled] at ht ⊢
  rw [ht, hd, ha]

/-- The `k`-th data frame's samples, `k` the last cycle before the frame: from the next cycle on, or, for a receiver
that lags, from that one on (R103). -/
def dataFrame (p : Params) (L : Nat → Bool) (k : Nat) : List Bool :=
  match p.rxOffset with
  | .same => seg L (k + 1) 11
  | .late => seg L k 11

theorem samples_dataFrame (p : Params) (L : Nat → Bool) (k : Nat) (u : State) (hl : u.level = fun j => L (k + 1 + j))
    (ht : u.lateSample = L k) : u.samples p 11 = dataFrame p L k := by
  cases hp : p.rxOffset
  · simp [samples_same hp, hl, dataFrame, hp, seg_shift]
  · rw [samples_late hp, hl, ht, dataFrame, hp, seg_shift]
    exact seg_cons L k 10

/-- The word reassembled from the ack frame and the data frames is the 32 levels from `c4` on, under both offsets
(R103, R177). -/
theorem rxWord_frames (s : State) (p : Params) (r : RegRef) :
    let L := (s.targetHears (req r)).level
    rxWord p (s.ackFrame p r) (dataFrame p L 4) (dataFrame p L 15) (dataFrame p L 26) = answeredWord s r := by
  intro L
  have hw : answeredWord s r = wordOf (seg L 4 32) := by
    rw [answeredWord, lineLevels, State.levels_eq_seg, show (36 : Nat) = 4 + 32 from rfl, seg_drop]
  rw [hw]
  cases hp : p.rxOffset <;> simp only [rxWord, State.ackFrame, dataFrame, hp]
  · have h3 := wordOf_three (seg L 5 11) (seg L 16 11) (seg L 27 9)
    rw [seg_length, seg_length] at h3
    rw [show (5 : Nat) = 4 + 1 from rfl, seg_drop, seg_take _ _ _ 1 (by omega), seg_take _ _ _ 9 (by omega)]
    have e : seg L 4 32 = seg L 4 1 ++ (seg L 5 11 ++ (seg L 16 11 ++ seg L 27 9)) := by
      rw [seg_append L 16 11 9, seg_append L 5 11 20, seg_append L 4 1 31]
    rw [e, wordOf_append, ← h3, seg_length, BitVec.shiftLeft_or_distrib, BitVec.shiftLeft_or_distrib,
      ← BitVec.shiftLeft_add, ← BitVec.shiftLeft_add]
    simp only [BitVec.or_assoc]
    rfl
  · rw [seg_take _ _ _ 10 (by omega)]
    have h3 := wordOf_three (seg L 4 11) (seg L 15 11) (seg L 26 10)
    rw [seg_length, seg_length] at h3
    rw [h3, seg_append L 15 11 10, seg_append L 4 11 21]

/-- The received parity bit is the level in `c36`, under both offsets (R103, R177). -/
theorem rxParity_frame (s : State) (p : Params) (r : RegRef) :
    rxParity p (dataFrame p (s.targetHears (req r)).level 26) = answeredParity s r := by
  cases hp : p.rxOffset <;> simp [rxParity, dataFrame, hp, seg, answeredParity]

/-- The cycles of a transaction grow by what is received after them. -/
theorem afterCycles_trace_add (s : State) (r : RegRef) (n m : Nat) :
    (s.afterCycles r n).trace ++ (seg (s.targetHears (req r)).level n m).map Cycle.t = (s.afterCycles r (n + m)).trace := by
  have e := seg_append (s.targetHears (req r)).level 0 n m
  rw [Nat.zero_add] at e
  simp only [State.afterCycles, releasedCycles, lineLevels, State.levels_eq_seg]
  rw [← e, List.map_append, List.append_assoc _ _ (List.map Cycle.t _)]

/-- The levels still to come after the header and ack phases. -/
theorem level_afterCycles (s : State) (r : RegRef) (n : Nat) :
    (s.afterCycles r n).level = fun k => (s.targetHears (req r)).level (n + k) := by
  funext k; simp [State.level, State.afterCycles, Nat.add_assoc]

theorem readData_ready (h : Ready s) (p : Params) (r : RegRef) :
    readData p (s.requested p .read r) =
      .done { s.afterCycles r 38 with
        value := some (answeredWord s r), result := some (readResult (answeredWord s r) (answeredParity s r)) } := by
  unfold readData
  refine Eq.trans (Run.andThen_eq _ (setWidth11 h.phase)) ?_
  refine Eq.trans (Run.andThen_eq _ (xchgFrame_receiving p h.phase rfl h.signals)) ?_
  refine Eq.trans (Run.andThen_eq _ (xchgFrame_receiving p h.phase rfl h.signals)) ?_
  refine Eq.trans (Run.andThen_eq _ (xchgFrame_receiving p h.phase rfl h.signals)) ?_
  refine Eq.trans (Run.andThen_eq _ (setWidth8 h.phase)) ?_
  refine Eq.trans (Run.andThen_eq _ (rxDisable_engaged h.phase)) ?_
  let L := (s.targetHears (req r)).level
  let u : State := { s.requested p .read r with seq := .read 9 :: s.seq, width := .w11 }
  let v : State := u.receive p 33
  have hu : u.level = fun j => L (4 + 1 + j) := level_afterCycles s r 5
  have e0 : u.samples p 11 = dataFrame p L 4 := samples_dataFrame p L 4 u hu (by
    simp [u, State.lateSample, State.requested, State.afterCycles, releasedCycles, lineLevels, State.levels,
      List.range_succ, L])
  have e1 : (u.receive p 11).samples p 11 = dataFrame p L 15 :=
    samples_dataFrame p L 15 _ (by rw [State.level_receive, hu]; funext j; exact congrArg L (by omega))
      (by rw [State.lateSample_receive, hu])
  have e2 : ((u.receive p 11).receive p 11).samples p 11 = dataFrame p L 26 :=
    samples_dataFrame p L 26 _ (by
      rw [State.level_receive, State.level_receive, hu]; funext j; exact congrArg L (by omega))
      (by rw [State.lateSample_receive, State.level_receive, hu])
  have hv : ((u.receive p 11).receive p 11).receive p 11 =
      { v with rx := [s.ackFrame p r, dataFrame p L 4, dataFrame p L 15, dataFrame p L 26] } := by
    rw [receive_receive (u.receive p 11), e1, e2]
    have := receive_receive u p 11 22
    simp only [State.receive, State.release, State.sampled] at this ⊢
    simp only [State.mk.injEq] at this ⊢
    simp_all [u, v, State.requested, State.receive, State.release, State.sampled]
  let x : State := ((u.receive p 11).receive p 11).receive p 11
  let w : Word := rxWord p (x.sample 0) (x.sample 1) (x.sample 2) (x.sample 3)
  have hx : x = { v with rx := [s.ackFrame p r, dataFrame p L 4, dataFrame p L 15, dataFrame p L 26] } := hv
  have hw : w = answeredWord s r := by
    simp only [w, hx]
    exact rxWord_frames s p r
  have hp : rxParity p (x.sample 3) = answeredParity s r := by
    simp only [hx]
    exact rxParity_frame s p r
  have ht : v.trace = (s.afterCycles r 38).trace := by
    rw [← afterCycles_trace_add s r 5 33]
    simp only [v, State.receive, State.release, State.sampled, State.levels_eq_seg, hu]
    rw [seg_shift]
    rfl
  have hg : v.target = (s.afterCycles r 38).target := by
    simp only [v, u, State.receive, State.release, State.sampled, State.requested, State.afterCycles, List.drop_drop]
  have hd : v.draws = (s.afterCycles r 38).draws := by
    simp only [v, u, State.receive, State.release, State.sampled, State.requested, State.afterCycles]
  change Run.done { x with
    width := .w8, rxEn := false, ack := none, rx := [], seq := s.seq, value := some w
    result := some (readResult w (rxParity p (x.sample 3))) } = _
  rw [hw, hp, hx]
  simp only [ht, hg, hd]
  congr 1
  simp only [State.mk.injEq]
  simp [v, u, State.receive, State.release, State.sampled, State.requested, State.afterCycles, h.width, h.rxEn]

/-- The error exit after the ack phase (R98, R256): 13 cycles, no data phase. -/
theorem errorExit_ready (h : Ready s) (p : Params) (step : Nat → Pos) (r : RegRef) (a b : Pos) (code : AckCode) :
    errorExit a b code (s.requested p step r) =
      .done { s.afterCycles r 5 with value := none, result := some (resultOf code) } := by
  unfold errorExit
  refine Eq.trans (Run.andThen_eq _ (setWidth8 h.phase)) ?_
  refine Eq.trans (Run.andThen_eq _ (rxDisable_engaged h.phase)) ?_
  congr 1
  simp only [State.mk.injEq, State.returns, State.goto]
  simp [State.requested, State.afterCycles, h.width, h.rxEn]

/-- The ack code the engine reads is the one the target answered with (R95, R102). -/
theorem ackCode_requested (s : State) (p : Params) (step : Nat → Pos) (r : RegRef) :
    (s.requested p step r).ackCode p = answered s r := by
  simp only [State.ackCode, answered, ← ackSample_ackFrame s p r]
  rfl

/-- What `RD` does when the engine is ready, under either sample offset (R176 to R178). -/
theorem readTransaction_ready (h : Ready s) (p : Params) (port : Port) (slot : Slot) :
    readTransaction p port slot s = .done (s.readEnds port slot) := by
  unfold readTransaction State.readEnds
  refine Eq.trans (Run.andThen_eq _ (requestPhase_ready h p .read (mkRef port .read slot))) ?_
  simp only [ackCode_requested, readData_ready h, errorExit_ready h]
  cases answered s (mkRef port .read slot) <;> rfl

/-! #### The data phase of a write -/

theorem lastDriven_append (u : State) (l : List Cycle) (d : List Bool) (h : u.trace = l ++ d.map Cycle.h) :
    u.lastDriven d.length = d := by
  simp only [State.lastDriven, h, List.length_append, List.length_map]
  rw [Nat.add_sub_cancel, List.drop_left, List.filterMap_map]
  exact List.filterMap_some

theorem writeData_ready (h : Ready s) (p : Params) (r : RegRef) (v : Word) :
    writeData v (s.requested p .write r) =
      .done { s.afterCycles r 5 with
        value := none, result := some .ok
        trace := s.trace ++ headerCycles r ++ releasedCycles s r 5 ++ dataCycles v
        draws := s.draws + 5 + 1
        target := takenBy s r v } := by
  unfold writeData txDouble
  refine Eq.trans (Run.andThen_eq _ (rxDisable_engaged h.phase)) ?_
  refine Eq.trans (Run.andThen_eq _ (setWidth11 h.phase)) ?_
  rw [Run.andThen_assoc]
  refine Eq.trans (Run.andThen_eq _ (txFrame_driving _ h.phase rfl h.signals (txData0_lt v))) ?_
  refine Eq.trans (Run.andThen_eq _ (txFrame_driving _ h.phase rfl h.signals (txData1_lt v))) ?_
  refine Eq.trans (Run.andThen_eq _ (txFrame_driving _ h.phase rfl h.signals (txData2_lt v))) ?_
  let a : State := s.afterCycles r 5
  let u : State := { s.requested p .write r with seq := .write 9 :: s.seq, width := .w11, rxEn := false }
  let x : State := ((u.drive (txData0 v)).drive (txData1 v)).drive (txData2 v)
  have hx : x = { u with trace := a.trace ++ dataCycles v } := by
    simp only [x, State.drive, dataCycles, List.append_assoc, ← List.map_append]
    simp only [u, Width.bits, txData_bits]
    rfl
  have hl : x.lastDriven 33 = bitsOf 32 v.toNat ++ [parity v] := by
    have := lastDriven_append x a.trace (bitsOf 32 v.toNat ++ [parity v]) (by rw [hx]; rfl)
    simpa using this
  have ht : x.targetTakes.target = takenBy s r v := by
    rw [State.targetTakes_target, hl, List.take_left' (by simp), wordOf_bitsOf, hx]
    simp [takenBy, u, State.requested, State.afterCycles]
  change (setWidth 8 (x.targetTakes.goto (.write 10))).andThen _ = _
  refine Eq.trans (Run.andThen_eq _ (setWidth8 (by rw [hx]; exact h.phase))) ?_
  change Run.done { x with
    width := .w8, seq := x.seq.tail, value := none, result := some .ok, ack := none, rx := []
    draws := x.draws + 1
    target := x.targetTakes.target } = _
  rw [ht, hx]
  congr 1
  simp only [State.mk.injEq]
  simp [u, a, State.requested, State.afterCycles, h.width, h.rxEn]

/-- What `WR` does when the engine is ready (R185). -/
theorem writeTransaction_ready (h : Ready s) (p : Params) (port : Port) (slot : Slot) (v : Word) :
    writeTransaction p port slot v s = .done (s.writeEnds port slot v) := by
  have h' : Ready { s with opWdata := v } := ⟨h.phase, h.width, h.rxEn, h.signals⟩
  unfold writeTransaction State.writeEnds
  refine Eq.trans (Run.andThen_eq _ (requestPhase_ready h' p .write (mkRef port .write slot))) ?_
  simp only [ackCode_requested, writeData_ready h', errorExit_ready h']
  have e : answered { s with opWdata := v } (mkRef port .write slot) = answered s (mkRef port .write slot) := rfl
  rw [e]
  cases answered s (mkRef port .write slot) <;> rfl

/-! #### The line reset -/

theorem bits_ff : bitsOf 8 0xFF = List.replicate 8 true := by decide

theorem bits_00 : bitsOf 8 0x00 = List.replicate 8 false := by decide

/-- Frames sent one after the other are their bits in order on the wire (R134, R140). -/
theorem sendFrames_ready (h : Ready s) (k : Nat) (l : List Nat) (hl : ∀ v ∈ l, v < 2 ^ 8) :
    sendFrames k l s = .done { s with
      seq := .lineReset (k + l.length) :: s.seq.tail
      trace := s.trace ++ (l.flatMap (bitsOf 8)).map Cycle.h } := by
  induction l generalizing k s with
  | nil => simp [sendFrames, State.goto]
  | cons v l ih =>
    unfold sendFrames
    refine Eq.trans (Run.andThen_eq _ (txFrame_driving _ h.phase h.rxEn h.signals
      (by simpa [h.width, Width.bits] using hl v (by simp)))) ?_
    have h' : Ready ((s.goto (.lineReset k)).drive v) := ⟨h.phase, h.width, h.rxEn, h.signals⟩
    rw [ih h' (k + 1) fun w hw => hl w (by simp [hw])]
    congr 1
    simp only [State.mk.injEq]
    simp [h.width, Width.bits, List.append_assoc]
    omega

/-- The frames of a line reset put the cycles of R100 on the wire. -/
theorem lineResetFrames_cycles (p : Params) (hp : p.Valid) :
    ((lineResetFrames p).flatMap (bitsOf 8)).map Cycle.h = lineResetCycles p := by
  have rep : ∀ (n : Nat) (b : Bool) (v : Nat), bitsOf 8 v = List.replicate 8 b →
      (List.replicate n v).flatMap (bitsOf 8) = List.replicate (8 * n) b := by
    intro n b v hv
    induction n with
    | zero => rfl
    | succ n ih =>
      rw [List.replicate_succ, List.flatMap_cons, hv, ih, List.replicate_append_replicate]
      congr 1; omega
  obtain ⟨-, h1, -, h2, -, h3⟩ := hp
  simp only [lineResetFrames, lineResetCycles, List.flatMap_append, rep _ _ _ bits_ff, rep _ _ _ bits_00,
    List.map_append, List.map_replicate]
  rw [show 8 * (p.nPre / 8) = p.nPre by omega, show 8 * (p.nPost / 8) = p.nPost by omega,
    show 8 * (p.nIdle / 8) = p.nIdle by omega]
  simp

theorem lineResetFrames_lt (p : Params) : ∀ v ∈ lineResetFrames p, v < 2 ^ 8 := by
  intro v hv
  simp only [lineResetFrames, List.mem_append, List.mem_replicate, List.mem_cons, List.not_mem_nil, or_false] at hv
  rcases hv with ((⟨-, rfl⟩ | rfl | rfl) | ⟨-, rfl⟩) | ⟨-, rfl⟩ <;> decide

/-- What a read leaves does not depend on the operation it is called from. -/
theorem readEnds_with_seq (s : State) (port : Port) (slot : Slot) (l : List Pos) :
    State.readEnds { s with seq := l } port slot = { s.readEnds port slot with seq := l } := by
  by_cases ha : answered s (mkRef port .read slot) = .ok
  · have hb : answered { s with seq := l } (mkRef port .read slot) = .ok := ha
    simp only [State.readEnds, ha, hb, if_true]; rfl
  · have hb : ¬ answered { s with seq := l } (mkRef port .read slot) = .ok := ha
    simp only [State.readEnds, ha, hb, if_false]; rfl

/-- A whole read ends where it was called from. -/
theorem readEnds_seq (s : State) (port : Port) (slot : Slot) : (s.readEnds port slot).seq = s.seq := by
  simp only [State.readEnds]; split <;> rfl

theorem with_seq_self (x : State) (q : List Pos) (h : x.seq = q) : { x with seq := q } = x := by subst h; rfl

/-- What a line reset does when the engine is ready: its cycles, then the DPIDR read (R170). -/
theorem lineResetTransaction_ready (h : Ready s) (p : Params) (hp : p.Valid) :
    lineResetTransaction p s = .done (s.lineResetEnds p) := by
  unfold lineResetTransaction
  have h0 : Ready { s with seq := .lineReset 0 :: s.seq } := ⟨h.phase, h.width, h.rxEn, h.signals⟩
  refine Eq.trans (Run.andThen_eq _ (sendFrames_ready h0 0 _ (lineResetFrames_lt p))) ?_
  refine Eq.trans (Run.andThen_eq _ (readTransaction_ready
    (by exact ⟨h.phase, h.width, h.rxEn, h.signals⟩) p .dp .a0)) ?_
  rw [lineResetFrames_cycles p hp]
  have e := readEnds_with_seq { s with trace := s.trace ++ lineResetCycles p } .dp .a0
    (.lineReset (0 + (lineResetFrames p).length) :: s.seq)
  refine congrArg Run.done (Eq.trans ?_ (with_seq_self (s.lineResetEnds p) s.seq (readEnds_seq _ _ _)))
  exact congrArg (fun x : State => { x with seq := x.seq.tail }) e

end Ready

end Sys2Proof.Machine
end

