-- ==== Sys2Proof/Laws/Ends.lean ====
section
/-! SUPPORT. How the line-protocol operations end, from ANY state: the transport restored and the outputs written, or
stuck in a wait (R163, R256, R262). What an invariant of every step is proved from. -/

namespace Sys2Proof.Machine

/-- How a transaction called in `s` ends when it ends: cleanup done (R163), the outputs written (R31), and a result
that this block can produce (R252, R253). -/
structure Ended (s t : State) : Prop where
  keeps  : Keeps s t
  seq    : t.seq = s.seq
  width  : t.width = .w8
  rxEn   : t.rxEn = false
  ack    : t.ack = none
  rx     : t.rx = []
  result : ∃ r, t.result = some r ∧ r ≠ .timeout

/-- How a read ends (R178): as a transaction, with a word when its result is OK. -/
structure ReadEnded (s t : State) : Prop extends Ended s t where
  shadow : t.selShadow = s.selShadow
  value  : t.result = some .ok → t.value.isSome = true
  noWord : t.result ≠ some .ok → t.result ≠ some .parity → t.value = none

/-- How a write ends (R185, R253): as a transaction, with no word, never with Parity, and with the ghost set by a
write of SELECT answered OK alone (R35). -/
structure WriteEnded (port : Port) (slot : Slot) (v : Word) (s t : State) : Prop extends Ended s t where
  value  : t.value = none
  parity : t.result ≠ some .parity
  shadow : t.selShadow =
    if port = .dp ∧ slot = .a2 ∧ t.result = some .ok then some v else s.selShadow

section
variable {s u : State} {o : List Pos}

/-- A transaction's `return` from its middle. -/
theorem Mid.returns (h : Mid s s.seq u) (hw : u.width = .w8) (hr : u.rxEn = false) (v : Option Word) (r : Result)
    (hr' : r ≠ .timeout) : Ended s (u.returns v r) := by
  obtain ⟨q, -, hq⟩ := h.seq
  obtain ⟨k, -, -, -, -⟩ := h
  exact ⟨⟨k.phase, k.opWdata, k.initState, k.idr, k.outputs, k.calls, k.trace, k.mem⟩, by simp [hq], hw, hr, rfl, rfl, r, rfl,
    hr'⟩

/-- The header and ack phases end in the middle of the transaction. -/
theorem requestPhase_ends (p : Params) (step : Nat → Pos) (hstep : ∀ n, step n ≠ .dpInit) (r : RegRef) (s : State) :
    (requestPhase p step r s).Ends (Mid s s.seq) (Stuck s s.seq) := by
  unfold requestPhase
  refine (txFrame_ends (Mid.opens (step 0) (hstep 0) r) _).andThen fun a ⟨ha, _⟩ => ?_
  refine (rxEnable_ends ((ha.hears (req r)).goto (step 1) (hstep 1))).andThen fun b hb => ?_
  refine (setWidth_ends (hb.goto (step 2) (hstep 2)) .w5).andThen fun c ⟨hc, _⟩ => ?_
  refine (xchgFrame_ends (hc.goto (step 3) (hstep 3)) p).andThen fun d hd => ?_
  exact hd.acked p

/-- The error exit restores the transport and returns `(none, result)` (R256). -/
theorem errorExit_ends (h : Mid s s.seq u) (a b : Pos) (ha : a ≠ .dpInit) (hb : b ≠ .dpInit) (code : AckCode) :
    (errorExit a b code u).Ends
      (fun t => Ended s t ∧ t.value = none ∧ t.result = some (resultOf code) ∧ t.selShadow = s.selShadow)
      (Stuck s s.seq) := by
  unfold errorExit
  refine (setWidth_ends (h.goto a ha) .w8).andThen fun c ⟨hc, _, hw⟩ => ?_
  refine (rxDisable_ends (hc.goto b hb)).andThen fun d ⟨hd, hr, hw'⟩ => ?_
  exact ⟨hd.returns (hw'.trans hw) hr none _ (by cases code <;> simp [resultOf]), rfl, rfl, hd.shadow⟩

theorem readData_ends (p : Params) (h : Mid s s.seq u) :
    (readData p u).Ends (ReadEnded s) (Stuck s s.seq) := by
  unfold readData
  refine (setWidth_ends (h.goto _ (by simp)) .w11).andThen fun a ⟨ha, _⟩ => ?_
  refine (xchgFrame_ends (ha.goto _ (by simp)) p).andThen fun b hb => ?_
  refine (xchgFrame_ends (hb.goto _ (by simp)) p).andThen fun c hc => ?_
  refine (xchgFrame_ends (hc.goto _ (by simp)) p).andThen fun d hd => ?_
  refine (setWidth_ends (hd.goto (.read 10) (by simp)) .w8).andThen fun e ⟨he, _, hw⟩ => ?_
  refine (rxDisable_ends (he.goto (.read 11) (by simp))).andThen fun f ⟨hf, hr, hw'⟩ => ?_
  exact ⟨hf.returns (hw'.trans hw) hr _ _ (by unfold readResult; split <;> simp), hf.shadow, fun _ => rfl,
    fun h1 h2 => by
      exfalso
      simp only [State.returns_result, ne_eq, Option.some.injEq] at h1 h2
      revert h1 h2
      unfold readResult; split <;> simp⟩

/-- How `RD` ends, from any state. -/
theorem readTransaction_ends (p : Params) (port : Port) (slot : Slot) (s : State) :
    (readTransaction p port slot s).Ends (ReadEnded s) (Stuck s s.seq) := by
  unfold readTransaction
  refine (requestPhase_ends p .read (by simp) _ s).andThen fun u hu => ?_
  have err : ∀ code, code ≠ .ok → (errorExit (.read 4) (.read 5) code u).Ends (ReadEnded s) (Stuck s s.seq) := by
    intro code hcode
    refine (errorExit_ends hu _ _ (by simp) (by simp) code).mono (fun t ⟨h1, h2, h3, h4⟩ => ?_) fun _ h => h
    refine ⟨h1, h4, fun h => ?_, fun _ _ => h2⟩
    rw [h3] at h
    cases code <;> simp_all [resultOf]
  split
  · exact readData_ends p hu
  · exact err .wait (by simp)
  · exact err .fault (by simp)
  · exact err .noAck (by simp)

theorem writeData_ends (v : Word) (h : Mid s s.seq u) :
    (writeData v u).Ends
      (fun t => Ended s t ∧ t.value = none ∧ t.result = some .ok ∧ t.selShadow = s.selShadow) (Stuck s s.seq) := by
  unfold writeData txDouble
  refine (rxDisable_ends (h.goto (.write 6) (by simp))).andThen fun a ⟨ha, har, _⟩ => ?_
  refine (setWidth_ends (ha.goto (.write 7) (by simp)) .w11).andThen fun b ⟨hb, hbr, _⟩ => ?_
  rw [Run.andThen_assoc]
  refine (txFrame_ends (hb.goto (.write 8) (by simp)) _).andThen fun c ⟨hc, hcr, _⟩ => ?_
  refine (txFrame_ends hc _).andThen fun d ⟨hd, hdr, _⟩ => ?_
  refine (txFrame_ends (hd.goto (.write 9) (by simp)) _).andThen fun e ⟨he, her, _⟩ => ?_
  refine (setWidth_ends (he.takes.goto (.write 10) (by simp)) .w8).andThen fun f ⟨hf, hfr, hw⟩ => ?_
  refine ⟨hf.returns hw ?_ none .ok (by simp), rfl, rfl, hf.shadow⟩
  simp_all

/-- How `WR` ends, from any state; it starts by writing `op.wdata` (R27). -/
theorem writeTransaction_ends (p : Params) (port : Port) (slot : Slot) (v : Word) (s : State) :
    (writeTransaction p port slot v s).Ends (WriteEnded port slot v { s with opWdata := v })
      (Stuck { s with opWdata := v } s.seq) := by
  unfold writeTransaction
  refine (requestPhase_ends p .write (by simp) _ { s with opWdata := v }).andThen fun u hu => ?_
  have err : ∀ code, code ≠ .ok → (errorExit (.write 4) (.write 5) code u).Ends
      (WriteEnded port slot v { s with opWdata := v }) (Stuck { s with opWdata := v } s.seq) := by
    intro code hcode
    refine (errorExit_ends hu _ _ (by simp) (by simp) code).mono (fun t ⟨h1, h2, h3, h4⟩ => ?_) fun _ h => h
    refine ⟨h1, h2, ?_, ?_⟩ <;> rw [h3] <;> cases code <;> simp_all [resultOf]
  split
  · refine (writeData_ends v hu).andThen fun t ⟨h1, h2, h3, h4⟩ => ?_
    refine ⟨⟨⟨?_, ?_, ?_, ?_, ?_, ?_, ?_, ?_⟩, ?_, ?_, ?_, ?_, ?_, ?_⟩, ?_, ?_, ?_⟩
    · simpa using h1.keeps.phase
    · simpa using h1.keeps.opWdata
    · simpa using h1.keeps.initState
    · simpa using h1.keeps.idr
    · simpa using h1.keeps.outputs
    · simpa using h1.keeps.calls
    · simpa using h1.keeps.trace
    · simpa using h1.keeps.mem
    · simpa using h1.seq
    · simpa using h1.width
    · simpa using h1.rxEn
    · simpa using h1.ack
    · simpa using h1.rx
    · simpa using h1.result
    · simpa using h2
    · simp [h3]
    · rw [State.shadows_selShadow]; simp [h3, h4]
  · exact err .wait (by simp)
  · exact err .fault (by simp)
  · exact err .noAck (by simp)

/-- The frames of a line reset end where they started, but for the trace. -/
theorem sendFrames_ends (k : Nat) (l : List Nat) (h : Mid s o u) :
    (sendFrames k l u).Ends (Mid s o) (Stuck s o) := by
  induction l generalizing k u with
  | nil => exact h.goto _ (by simp)
  | cons v l ih =>
    unfold sendFrames
    exact (txFrame_ends (h.goto _ (by simp)) v).andThen fun a ha => ih (k + 1) ha.1

/-- How a line reset ends, from any state. -/
theorem lineResetTransaction_ends (p : Params) (s : State) :
    (lineResetTransaction p s).Ends (ReadEnded s) (Stuck s s.seq) := by
  unfold lineResetTransaction
  have h0 : Mid s s.seq { s with seq := .lineReset 0 :: s.seq } :=
    ⟨⟨rfl, rfl, rfl, rfl, rfl, rfl, ⟨[], by simp⟩, id⟩, rfl, rfl, rfl, _, by simp, rfl⟩
  refine (sendFrames_ends 0 _ h0).andThen fun a ha => ?_
  obtain ⟨q, hq, hqa⟩ := ha.seq
  have hread : (readTransaction p .dp .a0 a).Ends (ReadEnded a) (Stuck s s.seq) := by
    refine (readTransaction_ends p .dp .a0 a).mono (fun _ h => h) fun t h => ?_
    obtain ⟨l, hl, hd, ht⟩ := h.seq
    exact ⟨ha.keeps.trans h.keeps, h.value.trans ha.value, h.result.trans ha.result, h.shadow.trans ha.shadow,
      ⟨l ++ [q], by simp, by simp [hd, Ne.symm hq], by simp [ht, hqa]⟩, h.signals⟩
  refine hread.andThen fun t ht => ?_
  have k := ha.keeps.trans ht.keeps
  refine ⟨⟨⟨k.phase, k.opWdata, k.initState, k.idr, k.outputs, k.calls, k.trace, k.mem⟩, ?_, ht.width, ht.rxEn, ht.ack, ht.rx,
    ht.result⟩, ht.shadow.trans ha.shadow, ht.value, ht.noWord⟩
  simp [ht.seq, hqa]

end

end Sys2Proof.Machine
end

