-- ==== Sys2Proof/Laws/Wire.lean ====
section
/-! SUPPORT. What a transaction does to the target, from any state, whatever its ready signals: a property of the
target that the header heard and the word taken keep is kept by the whole transaction. -/

namespace Sys2Proof.Machine

/-- A property of the target that does not look at what it is driving. -/
def Blind (Q : Target → Prop) : Prop := ∀ t o, Q t → Q { t with out := o }

/-- The target and its free values are where they were. -/
structure SameTarget (s t : State) : Prop where
  target : t.target = s.target
  draws  : t.draws = s.draws

section
variable {Q : Target → Prop}

theorem awaitSignal_target (u : State) : (awaitSignal u).Ends (SameTarget u) (SameTarget u) := by
  unfold awaitSignal; split <;> exact ⟨rfl, rfl⟩

theorem setWidth_target (n : Nat) (u : State) : (setWidth n u).Ends (SameTarget u) (SameTarget u) := by
  unfold setWidth
  split
  · split
    · exact ⟨rfl, rfl⟩
    · trivial
  · trivial

theorem rxEnable_target (u : State) : (rxEnable u).Ends (SameTarget u) (SameTarget u) := by
  unfold rxEnable; split
  · exact ⟨rfl, rfl⟩
  · trivial

theorem rxDisable_target (u : State) : (rxDisable u).Ends (SameTarget u) (SameTarget u) := by
  unfold rxDisable; split
  · exact ⟨rfl, rfl⟩
  · trivial

theorem SameTarget.trans {s t u : State} (h : SameTarget s t) (k : SameTarget t u) : SameTarget s u :=
  ⟨k.target.trans h.target, k.draws.trans h.draws⟩

theorem SameTarget.keeps {s t : State} (h : SameTarget s t) (k : Q s.target) : Q t.target := by rw [h.target]; exact k

theorem txFrame_target (v : Nat) (u : State) : (txFrame v u).Ends (SameTarget u) (SameTarget u) := by
  unfold txFrame
  split; swap; · trivial
  split; swap; · trivial
  split; swap; · trivial
  refine (awaitSignal_target u).andThen fun a ha => ?_
  exact (awaitSignal_target (a.drive v)).mono (fun t ht => ⟨ht.target.trans ha.target, ht.draws.trans ha.draws⟩)
    fun t ht => ⟨ht.target.trans ha.target, ht.draws.trans ha.draws⟩

theorem xchgFrame_target (hq : Blind Q) (p : Params) (u : State) (h : Q u.target) :
    (xchgFrame p u).Ends (fun t => Q t.target) (fun t => Q t.target) := by
  unfold xchgFrame
  split; swap; · trivial
  split; swap; · trivial
  refine Run.Ends.andThen (P' := SameTarget u)
    ((awaitSignal_target u).mono (fun _ h => h) fun t ht => ht.keeps h) fun a ha => ?_
  have : Q (a.release a.width.bits).target := hq _ _ (ha.keeps h)
  exact Run.Ends.andThen (P' := fun t => Q t.target)
    ((awaitSignal_target _).mono (fun t ht => ht.keeps this) fun t ht => ht.keeps this) fun b hb => hb

/-- The header and ack phases: a target with `P` that has `Q` once it has heard the header. -/
theorem requestPhase_target {P : Target → Prop} (hq : Blind Q) (hPQ : ∀ t, Q t → P t) (p : Params)
    (step : Nat → Pos) (r : RegRef) (s : State) (h0 : P s.target) (h1 : Q (s.targetHears (req r)).target) :
    (requestPhase p step r s).Ends (fun t => Q t.target) (fun t => P t.target) := by
  unfold requestPhase
  refine Run.Ends.andThen (P' := SameTarget s) ((txFrame_target _ (s.opens (step 0) r)).mono
    (fun t ht => ⟨ht.target, ht.draws⟩) fun t ht => ht.keeps (s := s.opens (step 0) r) h0) fun a ha => ?_
  have hb : Q ((a.targetHears (req r)).goto (step 1)).target := by
    have e : ((a.targetHears (req r)).goto (step 1)).target = (s.targetHears (req r)).target := by
      simp only [State.goto_target, State.targetHears_target, ha.target, ha.draws]
    rw [e]; exact h1
  refine Run.Ends.andThen (P' := fun t => Q t.target)
    ((rxEnable_target _).mono (fun t ht => ht.keeps hb) fun t ht => hPQ _ (ht.keeps hb)) fun b hb => ?_
  refine Run.Ends.andThen (P' := fun t => Q t.target)
    ((setWidth_target 5 (b.goto (step 2))).mono (fun t ht => ht.keeps hb) fun t ht => hPQ _ (ht.keeps hb))
    fun c hc => ?_
  refine ((xchgFrame_target hq p (c.goto (step 3)) hc).mono (fun _ h => h) fun t h => hPQ _ h).andThen fun d hd => ?_
  exact hd

theorem errorExit_target (at1 at2 : Pos) (code : AckCode) (s : State) (h : Q s.target) :
    (errorExit at1 at2 code s).Ends (fun t => Q t.target) (fun t => Q t.target) := by
  unfold errorExit
  refine Run.Ends.andThen (P' := fun t => Q t.target)
    ((setWidth_target 8 (s.goto at1)).mono (fun t ht => ht.keeps h) fun t ht => ht.keeps h) fun a ha => ?_
  refine Run.Ends.andThen (P' := fun t => Q t.target)
    ((rxDisable_target (a.goto at2)).mono (fun t ht => ht.keeps ha) fun t ht => ht.keeps ha) fun b hb => ?_
  exact hb

/-- A read: what the target is after it has heard the header is all that changes. -/
theorem readTransaction_target (hq : Blind Q) (p : Params) (port : Port) (slot : Slot) (s : State)
    (h0 : Q s.target) (h1 : Q (s.targetHears (req (mkRef port .read slot))).target) :
    (readTransaction p port slot s).Ends (fun t => Q t.target) (fun t => Q t.target) := by
  unfold readTransaction
  refine (requestPhase_target hq (fun _ h => h) p .read _ s h0 h1).andThen fun u hu => ?_
  split
  · unfold readData
    refine Run.Ends.andThen (P' := fun t => Q t.target)
      ((setWidth_target 11 (u.goto (.read 6))).mono (fun t ht => ht.keeps hu) fun t ht => ht.keeps hu) fun a ha => ?_
    refine (xchgFrame_target hq p (a.goto _) ha).andThen fun b hb => ?_
    refine (xchgFrame_target hq p (b.goto _) hb).andThen fun c hc => ?_
    refine (xchgFrame_target hq p (c.goto _) hc).andThen fun d hd => ?_
    refine Run.Ends.andThen (P' := fun t => Q t.target)
      ((setWidth_target 8 (d.goto (.read 10))).mono (fun t ht => ht.keeps hd) fun t ht => ht.keeps hd) fun e he => ?_
    refine Run.Ends.andThen (P' := fun t => Q t.target)
      ((rxDisable_target (e.goto (.read 11))).mono (fun t ht => ht.keeps he) fun t ht => ht.keeps he) fun f hf => ?_
    exact hf
  all_goals exact errorExit_target _ _ _ u hu

/-- A write: the target hears the header and then, perhaps, takes a word. -/
theorem writeTransaction_target (hq : Blind Q) (p : Params) (port : Port) (slot : Slot) (v : Word) (s : State)
    (h0 : Q s.target) (h1 : Q (s.targetHears (req (mkRef port .write slot))).target)
    (h2 : ∀ (t : Target) (fresh : Nat → Word) (w : Word) (b : Bool),
      Q t → { t with out := [] } = { (s.targetHears (req (mkRef port .write slot))).target with out := [] } →
      Q (t.takes fresh w b)) :
    (writeTransaction p port slot v s).Ends (fun t => Q t.target) (fun t => Q t.target) := by
  unfold writeTransaction
  let H := (s.targetHears (req (mkRef port .write slot))).target
  let Q' : Target → Prop := fun t => Q t ∧ { t with out := [] } = { H with out := [] }
  have key : (requestPhase p .write (mkRef port .write slot) { s with opWdata := v }).Ends
      (fun t => Q' t.target) (fun t => Q t.target) :=
    requestPhase_target (Q := Q') (fun t o h => ⟨hq t o h.1, h.2⟩) (fun _ h => h.1) p .write _ _ h0 ⟨h1, rfl⟩
  refine key.andThen fun u hu => ?_
  split
  · have hd : (writeData v u).Ends (fun t => Q t.target) (fun t => Q t.target) := by
      unfold writeData txDouble
      have go : ∀ {r : Run} {x : State}, x.target = u.target → r.Ends (SameTarget x) (SameTarget x) →
          r.Ends (fun t => t.target = u.target) (fun t => Q t.target) := fun hx h =>
        h.mono (fun t ht => ht.target.trans hx) fun t ht => by
          rw [ht.target, hx]; exact hu.1
      refine (go (x := u.goto (.write 6)) rfl (rxDisable_target _)).andThen fun a ha => ?_
      refine (go (x := a.goto (.write 7)) ha (setWidth_target 11 _)).andThen fun b hb => ?_
      rw [Run.andThen_assoc]
      refine (go (x := b.goto (.write 8)) hb (txFrame_target _ _)).andThen fun c hc => ?_
      refine (go hc (txFrame_target _ c)).andThen fun d hd => ?_
      refine (go (x := d.goto (.write 9)) hd (txFrame_target _ _)).andThen fun e he => ?_
      have ht : Q (e.targetTakes.goto (.write 10)).target := by
        rw [State.goto_target, State.targetTakes_target, he]
        exact h2 _ _ _ _ hu.1 hu.2
      refine Run.Ends.andThen (P' := fun t => Q t.target)
        ((setWidth_target 8 _).mono (fun t h => h.keeps ht) fun t h => h.keeps ht) fun f hf => ?_
      exact hf
    refine hd.andThen fun t ht => ?_
    simpa using ht
  all_goals exact errorExit_target _ _ _ u hu.1

theorem sendFrames_target (k : Nat) (l : List Nat) (u : State) :
    (sendFrames k l u).Ends (SameTarget u) (SameTarget u) := by
  induction l generalizing k u with
  | nil => exact ⟨rfl, rfl⟩
  | cons v l ih =>
    unfold sendFrames
    refine Run.Ends.andThen (P' := SameTarget u) ((txFrame_target v (u.goto _)).mono
      (fun t h => ⟨h.target, h.draws⟩) fun t h => ⟨h.target, h.draws⟩) fun a ha => ?_
    exact (ih (k + 1) a).mono (fun t h => ha.trans h) fun t h => ha.trans h

/-- A line reset: its DPIDR read is all the target hears of it (R170). -/
theorem lineResetTransaction_target (hq : Blind Q) (p : Params) (s : State)
    (h0 : Q s.target) (h1 : Q (s.targetHears (req (mkRef .dp .read .a0))).target) :
    (lineResetTransaction p s).Ends (fun t => Q t.target) (fun t => Q t.target) := by
  unfold lineResetTransaction
  refine Run.Ends.andThen (P' := SameTarget s)
    ((sendFrames_target 0 _ { s with seq := .lineReset 0 :: s.seq }).mono
      (fun t h => ⟨h.target, h.draws⟩) fun t h => h.keeps (s := { s with seq := .lineReset 0 :: s.seq }) h0)
    fun a ha => ?_
  refine (readTransaction_target hq p .dp .a0 a (ha.keeps h0) ?_).andThen fun t ht => ht
  have e : (a.targetHears (req (mkRef .dp .read .a0))).target = (s.targetHears (req (mkRef .dp .read .a0))).target := by
    simp only [State.targetHears_target, ha.target, ha.draws]
  rw [e]; exact h1

end

end Sys2Proof.Machine
end

