-- ==== Sys2Proof/Laws/Exec.lean ====
section
/-! SUPPORT. One lemma an operation of the caller: what `exec` does when the engine is ready (`…_ready`), and what a
next state of it is from any state (`…_next`); the same for a step of `dp_init`. -/

namespace Sys2Proof.Machine

/-! ### A caller's call -/

theorem exec_readForm {i : Instr} {port : Port} {slot : Slot} (h : readForm i = some (port, slot)) (s : State) :
    exec i s = callRead port slot s := by
  cases i <;> simp only [readForm, Option.some.injEq, Prod.mk.injEq, reduceCtorEq] at h <;>
    (obtain ⟨rfl, rfl⟩ := h; rfl)

theorem exec_writeForm {i : Instr} {port : Port} {slot : Slot} {v : Word} (h : writeForm i = some (port, slot, v))
    (s : State) : exec i s = callWrite port slot v s := by
  cases i <;> simp only [writeForm, Option.some.injEq, Prod.mk.injEq, reduceCtorEq] at h <;>
    (obtain ⟨rfl, rfl, rfl⟩ := h; rfl)

theorem callOnWire_idle (body : State → Run) {s : State} (h : ReadyIdle s) : callOnWire body s = body s := by
  simp [callOnWire, h.phase, h.seq]

theorem callRead_ready {s : State} (h : ReadyIdle s) (port : Port) (slot : Slot) :
    callRead port slot s = .next (s.readEnds port slot).reports := by
  rw [callRead, callOnWire_idle _ h, readTransaction_ready h.toReady]; rfl

theorem callWrite_ready {s : State} (h : ReadyIdle s) (port : Port) (slot : Slot) (v : Word) :
    callWrite port slot v s = .next (s.writeEnds port slot v).reports := by
  rw [callWrite, callOnWire_idle _ h, writeTransaction_ready h.toReady]; rfl

theorem Stuck.from {s t : State} {o o' : List Pos} (h : Stuck s o t) (e : o = o') : Stuck s o' t := e ▸ h

theorem withResult_some {s : State} {r : Result} (h : s.result = some r) (f : Result → Run) :
    withResult s f = f r := by simp [withResult, h]

theorem withValue_some {s : State} {w : Word} (h : s.value = some w) (f : Word → Run) :
    withValue s f = f w := by simp [withValue, h]

theorem hw_valid : Config.hw.Valid := by decide

theorem execLineReset_ready {s : State} (h : ReadyIdle s) :
    execLineReset s = .next (s.lineResetEnds Config.hw).reports := by
  rw [execLineReset, callOnWire_idle _ h, lineResetTransaction_ready h.toReady _ hw_valid]; rfl

/-- A call that has a next state was made while engaged and Idle (R161). -/
theorem callOnWire_next {body : State → Run} {s t : State} (e : (callOnWire body s).outcome = .next t) :
    s.phase = .engaged ∧ s.seq = [] ∧ (body s).outcome = .next t := by
  unfold callOnWire at e
  split at e
  · split at e
    · exact ⟨‹_›, ‹_›, e⟩
    · cases e
  · cases e

/-- Where a caller's `RD` can be afterwards, from any state. -/
theorem callRead_next {port : Port} {slot : Slot} {s t : State} (e : callRead port slot s = .next t) :
    s.phase = .engaged ∧ s.seq = [] ∧ ((∃ u, ReadEnded s u ∧ t = u.reports) ∨ Stuck s [] t) := by
  obtain ⟨h1, h2, e⟩ := callOnWire_next e
  refine ⟨h1, h2, ?_⟩
  have k : ((readTransaction Config.hw port slot s).andThen fun s => .done s.reports).Ends
      (fun t => ∃ u, ReadEnded s u ∧ t = u.reports) (Stuck s []) :=
    ((h2 ▸ readTransaction_ends Config.hw port slot s : (readTransaction Config.hw port slot s).Ends _ _)).andThen
      fun u hu => ⟨u, hu, rfl⟩
  exact k.next e

theorem callWrite_next {port : Port} {slot : Slot} {v : Word} {s t : State} (e : callWrite port slot v s = .next t) :
    s.phase = .engaged ∧ s.seq = [] ∧
      ((∃ u, WriteEnded port slot v { s with opWdata := v } u ∧ t = u.reports) ∨
        Stuck { s with opWdata := v } [] t) := by
  obtain ⟨h1, h2, e⟩ := callOnWire_next e
  refine ⟨h1, h2, ?_⟩
  have k : ((writeTransaction Config.hw port slot v s).andThen fun s => .done s.reports).Ends
      (fun t => ∃ u, WriteEnded port slot v { s with opWdata := v } u ∧ t = u.reports)
      (Stuck { s with opWdata := v } []) := by
    exact ((writeTransaction_ends Config.hw port slot v s).mono (fun _ h => h) fun t h => h.from h2).andThen
      fun u hu => ⟨u, hu, rfl⟩
  exact k.next e

theorem execLineReset_next {s t : State} (e : execLineReset s = .next t) :
    s.phase = .engaged ∧ s.seq = [] ∧ ((∃ u, ReadEnded s u ∧ t = u.reports) ∨ Stuck s [] t) := by
  obtain ⟨h1, h2, e⟩ := callOnWire_next e
  refine ⟨h1, h2, ?_⟩
  have k : ((lineResetTransaction Config.hw s).andThen fun s => .done s.reports).Ends
      (fun t => ∃ u, ReadEnded s u ∧ t = u.reports) (Stuck s []) := by
    have w := lineResetTransaction_ends Config.hw s
    rw [h2] at w
    exact w.andThen fun u hu => ⟨u, hu, rfl⟩
  exact k.next e

/-- Where an `RDAP` can be afterwards (R107): its first read failed, or both ended, or it waits in one of them. -/
theorem execRdap_next {ref : RegRef} {s t : State} (e : execRdap ref s = .next t) :
    s.phase = .engaged ∧ s.seq = [] ∧
      ((∃ u, ReadEnded s u ∧ u.result ≠ some .ok ∧ t = u.reports) ∨
        (∃ u w, ReadEnded s u ∧ u.result = some .ok ∧ ReadEnded u.reports w ∧ t = w.reports) ∨
        Stuck s [] t ∨ ∃ u, ReadEnded s u ∧ u.result = some .ok ∧ Stuck u.reports [] t) := by
  obtain ⟨h1, h2, e⟩ := callOnWire_next e
  refine ⟨h1, h2, ?_⟩
  have k : (rdapTransactions Config.hw ref.slot s).Ends
      (fun t => (∃ u, ReadEnded s u ∧ u.result ≠ some .ok ∧ t = u.reports) ∨
        ∃ u w, ReadEnded s u ∧ u.result = some .ok ∧ ReadEnded u.reports w ∧ t = w.reports)
      (fun t => Stuck s [] t ∨ ∃ u, ReadEnded s u ∧ u.result = some .ok ∧ Stuck u.reports [] t) := by
    unfold rdapTransactions
    have w := readTransaction_ends Config.hw .ap ref.slot s
    rw [h2] at w
    refine (w.mono (fun _ h => h) fun _ h => Or.inl h).andThen fun u hu => ?_
    obtain ⟨r, hr, hr'⟩ := hu.result
    have hq : u.reports.seq = [] := hu.seq.trans h2
    have first : r ≠ .ok → (∃ x, ReadEnded s x ∧ x.result ≠ some .ok ∧ u.reports = x.reports) ∨
        ∃ x w, ReadEnded s x ∧ x.result = some .ok ∧ ReadEnded x.reports w ∧ u.reports = w.reports := fun h =>
      .inl ⟨u, hu, by rw [hr]; simpa using h, rfl⟩
    rw [withResult_some hr]
    cases r with
    | ok =>
      have w' := readTransaction_ends Config.hw .dp .a3 u.reports
      rw [hq] at w'
      refine (w'.mono (fun _ h => h) fun t ht => Or.inr ⟨u, hu, hr, ht⟩).andThen fun x hx => ?_
      exact .inr ⟨u, x, hu, hr, hx, rfl⟩
    | wait => exact first (by simp)
    | fault => exact first (by simp)
    | noAck => exact first (by simp)
    | parity => exact first (by simp)
    | timeout => exact absurd rfl hr'
  rcases k.next e with (h | h) | (h | h)
  · exact .inl h
  · exact .inr (.inl h)
  · exact .inr (.inr (.inl h))
  · exact .inr (.inr (.inr h))

/-! ### A step of `dp_init` -/

/-- Where the state machine goes after a transaction that left this result and word (R221, R222). -/
def initAfter (i : InitState) (r : Result) (w : Word) : InitState :=
  match r with
  | .ok => initNextOk i w
  | .wait => initNextWait i
  | .fault | .noAck | .parity | .timeout => .failed

/-- What a transaction of `dp_init` leaves once the state machine has moved. -/
structure Advanced (u t : State) : Prop where
  result    : ∃ r, u.result = some r ∧ t.initState = initAfter u.initState r (u.value.getD 0)
  rest      : t = { u with initState := t.initState, idr := t.idr }
  idr       : t.idr = u.idr ∨ (u.initState = .s4ReadBuf ∧ u.result = some .ok ∧ t.idr = u.value)

theorem initNextOk_unused (i : InitState) (h : usesWord i = false) (w : Word) : initNextOk i w = initNextOk i 0 := by
  cases i <;> simp_all [usesWord, initNextOk]

/-- The state machine moves after a transaction with a result and, where its word is used, a word. -/
theorem initAdvance_ends {u : State} (hr : ∃ r, u.result = some r)
    (hv : usesWord u.initState = true → u.result = some .ok → u.value.isSome = true) :
    ∃ t, initAdvance u = .done t ∧ Advanced u t := by
  obtain ⟨r, hr⟩ := hr
  rw [initAdvance, withResult_some hr]
  cases r with
  | ok =>
    by_cases hw : usesWord u.initState = true
    · obtain ⟨w, hw'⟩ := Option.isSome_iff_exists.mp (hv hw hr)
      refine ⟨{ u.takesIdr w with initState := initNextOk u.initState w }, by simp [hw, withValue_some hw'],
        ⟨.ok, hr, by simp [initAfter, hw']⟩, ?_, ?_⟩
      · unfold State.takesIdr; split <;> rfl
      · simp only [State.takesIdr_idr]
        split
        · exact .inr ⟨‹_›, hr, hw'.symm⟩
        · exact .inl rfl
    · refine ⟨{ u with initState := initNextOk u.initState 0 }, by simp [hw], ⟨.ok, hr, ?_⟩, rfl, .inl rfl⟩
      simp only [initAfter]
      rw [initNextOk_unused _ (by simpa using hw) (u.value.getD 0)]
  | wait => exact ⟨_, rfl, ⟨.wait, hr, rfl⟩, rfl, .inl rfl⟩
  | fault => exact ⟨_, rfl, ⟨.fault, hr, rfl⟩, rfl, .inl rfl⟩
  | noAck => exact ⟨_, rfl, ⟨.noAck, hr, rfl⟩, rfl, .inl rfl⟩
  | parity => exact ⟨_, rfl, ⟨.parity, hr, rfl⟩, rfl, .inl rfl⟩
  | timeout => exact ⟨_, rfl, ⟨.timeout, hr, rfl⟩, rfl, .inl rfl⟩

/-- The word of SELECT that a state of `dp_init` writes (R220 S2, S5). -/
def initSelect (i : InitState) : Option Word :=
  match i with
  | .s2SelBank15 => some selectBank15
  | .s5SelBank0 => some selectBank0
  | .idle | .s1Reset | .s3ReadStat | .s3WriteStat | .s4ApReadIdr | .s4ReadBuf | .s6ApReadCsw | .s6ReadBuf
  | .s6WriteCsw | .s7ReadStat | .s7WriteStat | .done | .failed => none

/-- How the transaction of a state of `dp_init` ends; `w` is what it leaves in `op.wdata`. -/
structure InitEnded (s : State) (w : Word) (u : State) : Prop extends Ended { s with opWdata := w } u where
  word   : usesWord s.initState = true → u.result = some .ok → u.value.isSome = true
  shadow : u.selShadow = if u.result = some .ok then (initSelect s.initState).or s.selShadow else s.selShadow

/-- How one transaction of `dp_init` and the move after it end. -/
structure InitMoved (s t : State) : Prop where
  moved : ∃ w u, InitEnded s w u ∧ Advanced u t

/-- Stuck in a transaction of `dp_init`. -/
structure InitStuck (s t : State) : Prop where
  stuck : ∃ w, Stuck { s with opWdata := w } s.seq t

theorem ReadEnded.initEnded {s u : State} (h : ReadEnded s u) (hs : initSelect s.initState = none) :
    InitEnded s s.opWdata u :=
  ⟨h.toEnded, fun _ => h.value, by rw [h.shadow, hs]; simp⟩

theorem WriteEnded.initEnded {s u : State} {port : Port} {slot : Slot} {v : Word}
    (h : WriteEnded port slot v { s with opWdata := v } u) (hu : usesWord s.initState = false)
    (hs : initSelect s.initState = if port = .dp ∧ slot = .a2 then some v else none) : InitEnded s v u := by
  refine ⟨h.toEnded, by simp [hu], ?_⟩
  rw [h.shadow, hs]
  by_cases h1 : port = .dp ∧ slot = .a2
  · by_cases h2 : u.result = some .ok <;> simp [h1, h2]
  · by_cases h2 : u.result = some .ok <;> simp [h1, h2]

theorem advance_ends {s : State} {w : Word} {u : State} (h : InitEnded s w u) :
    (initAdvance u).Ends (InitMoved s) (Stuck { s with opWdata := w } s.seq) := by
  have hi : u.initState = s.initState := h.keeps.initState
  obtain ⟨r, hr, -⟩ := h.result
  obtain ⟨t, ht, ha⟩ := initAdvance_ends (u := u) ⟨r, hr⟩ (by rw [hi]; exact h.word)
  rw [ht]
  exact ⟨w, u, h, ha⟩

/-- One step of `dp_init` in a state that has a transaction: the transaction and the move, or stuck in it. -/
theorem initStep_ends (p : Params) {s : State} (hw : writesReadWord s.initState = true → s.value.isSome = true)
    (h1 : s.initState ≠ .idle) (h2 : s.initState ≠ .done) (h3 : s.initState ≠ .failed) :
    (initStep p s).Ends (InitMoved s) (InitStuck s) := by
  have rd : ∀ {r : Run}, r.Ends (ReadEnded s) (Stuck s s.seq) → initSelect s.initState = none →
      (r.andThen initAdvance).Ends (InitMoved s) (InitStuck s) :=
    fun hr hs => Run.Ends.andThen (P' := ReadEnded s) (hr.mono (fun _ h => h) fun t h => ⟨s.opWdata, h⟩) fun u hu =>
      (advance_ends (hu.initEnded hs)).mono (fun _ h => h) fun t h => ⟨s.opWdata, h⟩
  have wr : ∀ {port slot v}, usesWord s.initState = false →
      (initSelect s.initState = if port = .dp ∧ slot = .a2 then some v else none) →
      ((writeTransaction p port slot v s).andThen initAdvance).Ends (InitMoved s) (InitStuck s) :=
    fun {port slot v} hu hs => Run.Ends.andThen (P' := WriteEnded port slot v { s with opWdata := v })
      ((writeTransaction_ends p port slot v s).mono (fun _ h => h) fun t h => ⟨v, h⟩) fun u hu' =>
        (advance_ends (hu'.initEnded hu hs)).mono (fun _ h => h) fun t h => ⟨v, h⟩
  unfold initStep
  cases hk : s.initState <;> simp only [hk, ne_eq, not_true_eq_false] at h1 h2 h3 hw
  · exact rd (lineResetTransaction_ends p s) (by rw [hk]; rfl)
  · exact wr (by rw [hk]; rfl) (by rw [hk]; rfl)
  · exact rd (readTransaction_ends p _ _ s) (by rw [hk]; rfl)
  · obtain ⟨w, hw⟩ := Option.isSome_iff_exists.mp (hw rfl)
    simp only [withValue_some hw]
    exact wr (by rw [hk]; rfl) (by rw [hk]; rfl)
  · exact rd (readTransaction_ends p _ _ s) (by rw [hk]; rfl)
  · exact rd (readTransaction_ends p _ _ s) (by rw [hk]; rfl)
  · exact wr (by rw [hk]; rfl) (by rw [hk]; rfl)
  · exact rd (readTransaction_ends p _ _ s) (by rw [hk]; rfl)
  · exact rd (readTransaction_ends p _ _ s) (by rw [hk]; rfl)
  · obtain ⟨w, hw⟩ := Option.isSome_iff_exists.mp (hw rfl)
    simp only [withValue_some hw]
    exact wr (by rw [hk]; rfl) (by rw [hk]; rfl)
  · exact rd (readTransaction_ends p _ _ s) (by rw [hk]; rfl)
  · obtain ⟨w, hw⟩ := Option.isSome_iff_exists.mp (hw rfl)
    simp only [withValue_some hw]
    exact wr (by rw [hk]; rfl) (by rw [hk]; rfl)

/-! ### A step of the machine -/

/-- A step is a call, a wait without a call, a step of `dp_init`, or nothing (R20, R28, R262). -/
theorem step_cases {s t : State} (e : step s = .next t) :
    (s.seq = [] ∧ s.calls = [] ∧ t = s) ∨
    (s.seq = [] ∧ ∃ c rest i, s.calls = c :: rest ∧ decode c = .ok i ∧ exec i { s with calls := rest } = .next t) ∨
    (s.seq = [.dpInit] ∧ (initStep Config.hw s).outcome = .next t) ∨
    (s.seq ≠ [] ∧ s.seq ≠ [.dpInit] ∧ t = s) := by
  unfold step State.nextCall resume at e
  split at e
  · rename_i hq
    cases hc : s.calls with
    | nil => simp only [hc] at e; cases e; exact .inl ⟨hq, rfl, rfl⟩
    | cons c rest =>
      simp only [hc] at e
      split at e
      · exact .inr (.inl ⟨hq, c, rest, _, rfl, ‹_›, e⟩)
      · cases e
  · split at e
    · exact .inr (.inr (.inl ⟨‹_›, e⟩))
    · simp only [Run.outcome_hung] at e
      cases e
      exact .inr (.inr (.inr ⟨‹_›, ‹_›, rfl⟩))

end Sys2Proof.Machine
end

