-- ==== Sys2Proof/Laws/Outcome.lean ====
section
/-! SUPPORT. The fields of what a whole read, write or line reset leaves (`readEnds`, `writeEnds`, `lineResetEnds`), and
the acknowledgement, word and parity bit that given levels are read as. -/

namespace Sys2Proof.Machine

variable (s : State) (port : Port) (slot : Slot) (v : Word)

@[simp] theorem State.readEnds_phase : (s.readEnds port slot).phase = s.phase := by
  simp only [State.readEnds]; split <;> rfl

@[simp] theorem State.readEnds_width : (s.readEnds port slot).width = s.width := by
  simp only [State.readEnds]; split <;> rfl

@[simp] theorem State.readEnds_rxEn : (s.readEnds port slot).rxEn = s.rxEn := by
  simp only [State.readEnds]; split <;> rfl

@[simp] theorem State.readEnds_seq : (s.readEnds port slot).seq = s.seq := by
  simp only [State.readEnds]; split <;> rfl

@[simp] theorem State.readEnds_initState : (s.readEnds port slot).initState = s.initState := by
  simp only [State.readEnds]; split <;> rfl

@[simp] theorem State.readEnds_idr : (s.readEnds port slot).idr = s.idr := by
  simp only [State.readEnds]; split <;> rfl

@[simp] theorem State.readEnds_outputs : (s.readEnds port slot).outputs = s.outputs := by
  simp only [State.readEnds]; split <;> rfl

@[simp] theorem State.readEnds_calls : (s.readEnds port slot).calls = s.calls := by
  simp only [State.readEnds]; split <;> rfl

@[simp] theorem State.readEnds_signals : (s.readEnds port slot).signals = s.signals := by
  simp only [State.readEnds]; split <;> rfl

@[simp] theorem State.readEnds_opWdata : (s.readEnds port slot).opWdata = s.opWdata := by
  simp only [State.readEnds]; split <;> rfl

@[simp] theorem State.readEnds_selShadow : (s.readEnds port slot).selShadow = s.selShadow := by
  simp only [State.readEnds]; split <;> rfl

@[simp] theorem State.readEnds_ack : (s.readEnds port slot).ack = none := by
  simp only [State.readEnds]; split <;> rfl

@[simp] theorem State.readEnds_rx : (s.readEnds port slot).rx = [] := by
  simp only [State.readEnds]; split <;> rfl

@[simp] theorem State.readEnds_opRef : (s.readEnds port slot).opRef = mkRef port .read slot := by
  simp only [State.readEnds]; split <;> rfl

@[simp] theorem State.writeEnds_phase : (s.writeEnds port slot v).phase = s.phase := by
  simp only [State.writeEnds]; split <;> simp [State.afterCycles]

@[simp] theorem State.writeEnds_width : (s.writeEnds port slot v).width = s.width := by
  simp only [State.writeEnds]; split <;> simp [State.afterCycles]

@[simp] theorem State.writeEnds_rxEn : (s.writeEnds port slot v).rxEn = s.rxEn := by
  simp only [State.writeEnds]; split <;> simp [State.afterCycles]

@[simp] theorem State.writeEnds_seq : (s.writeEnds port slot v).seq = s.seq := by
  simp only [State.writeEnds]; split <;> simp [State.afterCycles]

@[simp] theorem State.writeEnds_initState : (s.writeEnds port slot v).initState = s.initState := by
  simp only [State.writeEnds]; split <;> simp [State.afterCycles]

@[simp] theorem State.writeEnds_idr : (s.writeEnds port slot v).idr = s.idr := by
  simp only [State.writeEnds]; split <;> simp [State.afterCycles]

@[simp] theorem State.writeEnds_outputs : (s.writeEnds port slot v).outputs = s.outputs := by
  simp only [State.writeEnds]; split <;> simp [State.afterCycles]

@[simp] theorem State.writeEnds_calls : (s.writeEnds port slot v).calls = s.calls := by
  simp only [State.writeEnds]; split <;> simp [State.afterCycles]

@[simp] theorem State.writeEnds_signals : (s.writeEnds port slot v).signals = s.signals := by
  simp only [State.writeEnds]; split <;> simp [State.afterCycles]

@[simp] theorem State.writeEnds_ack : (s.writeEnds port slot v).ack = none := by
  simp only [State.writeEnds]; split <;> simp [State.afterCycles]

@[simp] theorem State.writeEnds_rx : (s.writeEnds port slot v).rx = [] := by
  simp only [State.writeEnds]; split <;> simp [State.afterCycles]

@[simp] theorem State.writeEnds_opRef : (s.writeEnds port slot v).opRef = mkRef port .write slot := by
  simp only [State.writeEnds]; split <;> simp [State.afterCycles]

@[simp] theorem State.writeEnds_opWdata : (s.writeEnds port slot v).opWdata = v := by
  simp only [State.writeEnds]; split <;> simp [State.afterCycles]

@[simp] theorem State.writeEnds_value : (s.writeEnds port slot v).value = none := by
  simp only [State.writeEnds]; split <;> simp [State.afterCycles]

@[simp] theorem State.lineResetEnds_phase (p : Params) : (s.lineResetEnds p).phase = s.phase := by
  simp [State.lineResetEnds]

@[simp] theorem State.lineResetEnds_width (p : Params) : (s.lineResetEnds p).width = s.width := by
  simp [State.lineResetEnds]

@[simp] theorem State.lineResetEnds_rxEn (p : Params) : (s.lineResetEnds p).rxEn = s.rxEn := by
  simp [State.lineResetEnds]

@[simp] theorem State.lineResetEnds_seq (p : Params) : (s.lineResetEnds p).seq = s.seq := by
  simp [State.lineResetEnds]

@[simp] theorem State.lineResetEnds_initState (p : Params) : (s.lineResetEnds p).initState = s.initState := by
  simp [State.lineResetEnds]

@[simp] theorem State.lineResetEnds_idr (p : Params) : (s.lineResetEnds p).idr = s.idr := by
  simp [State.lineResetEnds]

@[simp] theorem State.lineResetEnds_outputs (p : Params) : (s.lineResetEnds p).outputs = s.outputs := by
  simp [State.lineResetEnds]

@[simp] theorem State.lineResetEnds_calls (p : Params) : (s.lineResetEnds p).calls = s.calls := by
  simp [State.lineResetEnds]

@[simp] theorem State.lineResetEnds_signals (p : Params) : (s.lineResetEnds p).signals = s.signals := by
  simp [State.lineResetEnds]

@[simp] theorem State.lineResetEnds_opWdata (p : Params) : (s.lineResetEnds p).opWdata = s.opWdata := by
  simp [State.lineResetEnds]

@[simp] theorem State.lineResetEnds_selShadow (p : Params) : (s.lineResetEnds p).selShadow = s.selShadow := by
  simp [State.lineResetEnds]


variable {s port slot v}

/-- A read answered OK. -/
theorem readEnds_ok (h : answered s (mkRef port .read slot) = .ok) :
    s.readEnds port slot = { s.afterCycles (mkRef port .read slot) 38 with
      value := some (answeredWord s (mkRef port .read slot))
      result := some (readResult (answeredWord s (mkRef port .read slot))
        (answeredParity s (mkRef port .read slot))) } := by
  simp only [State.readEnds, h, if_true]

/-- A read answered anything else. -/
theorem readEnds_error (h : answered s (mkRef port .read slot) ≠ .ok) :
    s.readEnds port slot = { s.afterCycles (mkRef port .read slot) 5 with
      value := none, result := some (resultOf (answered s (mkRef port .read slot))) } := by
  simp only [State.readEnds, h, if_false]

/-- A write answered OK. -/
theorem writeEnds_ok (h : answered s (mkRef port .write slot) = .ok) :
    s.writeEnds port slot v = State.shadows { s.afterCycles (mkRef port .write slot) 5 with
      opWdata := v, value := none, result := some .ok
      trace := s.trace ++ headerCycles (mkRef port .write slot) ++ releasedCycles s (mkRef port .write slot) 5
        ++ dataCycles v
      draws := s.draws + 5 + 1
      target := takenBy s (mkRef port .write slot) v } port slot v := by
  simp only [State.writeEnds, h, if_true]

/-- A write answered anything else. -/
theorem writeEnds_error (h : answered s (mkRef port .write slot) ≠ .ok) :
    s.writeEnds port slot v = { s.afterCycles (mkRef port .write slot) 5 with
      opWdata := v, value := none, result := some (resultOf (answered s (mkRef port .write slot))) } := by
  simp only [State.writeEnds, h, if_false]

theorem readEnds_result (s : State) (port : Port) (slot : Slot) :
    ∃ r, (s.readEnds port slot).result = some r ∧ r ≠ .timeout := by
  by_cases h : answered s (mkRef port .read slot) = .ok
  · rw [readEnds_ok h]; exact ⟨_, rfl, by unfold readResult; split <;> simp⟩
  · rw [readEnds_error h]; exact ⟨_, rfl, by cases answered s (mkRef port .read slot) <;> simp [resultOf]⟩

theorem writeEnds_result (s : State) (port : Port) (slot : Slot) (v : Word) :
    (s.writeEnds port slot v).result = some (resultOf (answered s (mkRef port .write slot))) := by
  by_cases h : answered s (mkRef port .write slot) = .ok
  · rw [writeEnds_ok h]; simp [h, resultOf]
  · rw [writeEnds_error h]

/-- A line reset is its cycles and a DPIDR read of the same target (R170). -/
theorem lineResetEnds_eq (s : State) (p : Params) :
    s.lineResetEnds p = { s.readEnds .dp .a0 with
      trace := s.trace ++ lineResetCycles p ++ (s.readEnds .dp .a0).trace.drop s.trace.length } := by
  have e : ∀ n, releasedCycles { s with trace := s.trace ++ lineResetCycles p } (mkRef .dp .read .a0) n
      = releasedCycles s (mkRef .dp .read .a0) n := fun _ => rfl
  unfold State.lineResetEnds
  by_cases h : answered s (mkRef .dp .read .a0) = .ok
  · rw [readEnds_ok h, readEnds_ok (s := { s with trace := s.trace ++ lineResetCycles p }) h]
    simp only [State.mk.injEq]
    simp [State.afterCycles, e, List.append_assoc]
    exact ⟨rfl, rfl⟩
  · rw [readEnds_error h, readEnds_error (s := { s with trace := s.trace ++ lineResetCycles p }) h]
    simp only [State.mk.injEq]
    simp [State.afterCycles, e, List.append_assoc]
    rfl

/-! ### The engine stays ready -/

theorem Ready.readEnds (h : Ready s) (port : Port) (slot : Slot) : Ready (s.readEnds port slot) :=
  ⟨by simp [h.phase], by simp [h.width], by simp [h.rxEn], by simp [h.signals]⟩

theorem Ready.writeEnds (h : Ready s) (port : Port) (slot : Slot) (v : Word) : Ready (s.writeEnds port slot v) :=
  ⟨by simp [h.phase], by simp [h.width], by simp [h.rxEn], by simp [h.signals]⟩

theorem Ready.lineResetEnds (h : Ready s) (p : Params) : Ready (s.lineResetEnds p) :=
  ⟨by simp [h.phase], by simp [h.width], by simp [h.rxEn], by simp [h.signals]⟩

theorem ReadyIdle.readEnds (h : ReadyIdle s) (port : Port) (slot : Slot) : ReadyIdle (s.readEnds port slot).reports :=
  ⟨⟨by simp [h.phase], by simp [h.width], by simp [h.rxEn], by simp [h.signals]⟩, by simp [h.seq]⟩

theorem ReadyIdle.writeEnds (h : ReadyIdle s) (port : Port) (slot : Slot) (v : Word) :
    ReadyIdle (s.writeEnds port slot v).reports :=
  ⟨⟨by simp [h.phase], by simp [h.width], by simp [h.rxEn], by simp [h.signals]⟩, by simp [h.seq]⟩

/-! ### Levels a target drives -/

/-- Where the target drives a level it is the line's. -/
theorem seg_driven {l : List (Option Bool)} {f : Nat → Bool} {a n : Nat} {bs : List Bool} (hn : bs.length = n)
    (h : ∀ k, k < n → l.getD (a + k) none = some (bs.getD k false)) :
    seg (fun k => (l.getD k none).getD (f k)) a n = bs := by
  apply List.ext_getElem?
  intro i
  rw [getElem?_seg]
  by_cases hi : i < n
  · simp only [hi, if_true, h i hi, Option.getD_some]
    rw [List.getD_eq_getElem?_getD, List.getElem?_eq_getElem (by omega)]
    rfl
  · simp [hi]; omega

section
variable {l : List (Option Bool)} {r : RegRef}

theorem level_out (h : (s.targetHears (req r)).target.out = l) :
    (s.targetHears (req r)).level = fun k => (l.getD k none).getD (Config.freeLevel (s.draws + k)) := by
  funext k
  rw [State.level, h]
  rfl

theorem answered_out (h : (s.targetHears (req r)).target.out = l) {bs : List Bool} (hb : bs.length = 3)
    (hl : ∀ k, k < 3 → l.getD (1 + k) none = some (bs.getD k false)) : answered s r = ackCode (ackOf bs) := by
  rw [answered, lineLevels, State.levels_eq_seg, show (4 : Nat) = 1 + 3 from rfl, seg_drop, level_out h]
  rw [seg_driven hb (by simpa using hl)]

theorem answeredWord_out (h : (s.targetHears (req r)).target.out = l) {bs : List Bool} (hb : bs.length = 32)
    (hl : ∀ k, k < 32 → l.getD (4 + k) none = some (bs.getD k false)) : answeredWord s r = wordOf bs := by
  rw [answeredWord, lineLevels, State.levels_eq_seg, show (36 : Nat) = 4 + 32 from rfl, seg_drop, level_out h]
  rw [seg_driven hb (by simpa using hl)]

theorem answeredParity_out (h : (s.targetHears (req r)).target.out = l) {b : Bool} (hl : l.getD 36 none = some b) :
    answeredParity s r = b := by
  rw [answeredParity, level_out h]
  simp only [hl]
  rfl

/-- A target that drives the three bits of an acknowledgement is answered with it. -/
theorem answered_ack (h : (s.targetHears (req r)).target.out = none :: ackLevels .ok ++ l) : answered s r = .ok := by
  rw [answered_out h (bs := [true, false, false]) rfl (by intro k hk; interval_cases k <;> rfl)]
  decide

theorem answered_wait (h : (s.targetHears (req r)).target.out = none :: ackLevels .wait) : answered s r = .wait := by
  rw [answered_out h (bs := [false, true, false]) rfl (by intro k hk; interval_cases k <;> rfl)]
  decide

theorem answered_fault (h : (s.targetHears (req r)).target.out = none :: ackLevels .fault) :
    answered s r = .fault := by
  rw [answered_out h (bs := [false, false, true]) rfl (by intro k hk; interval_cases k <;> rfl)]
  decide

theorem dataLevels_length (w : Word) (p : Bool) : (dataLevels w p).length = 33 := by simp [dataLevels]

/-- A word sent in the data phase is the word read (R96, R177). -/
theorem answeredWord_data {w : Word} {p : Bool}
    (h : (s.targetHears (req r)).target.out = none :: ackLevels .ok ++ dataLevels w p) : answeredWord s r = w := by
  rw [answeredWord_out h (bs := bitsOf 32 w.toNat) (by simp), wordOf_bitsOf]
  intro k hk
  rw [show none :: ackLevels .ok ++ dataLevels w p = [none, some true, some false, some false] ++ dataLevels w p from rfl,
    List.getD_append_right _ _ _ _ (by simp)]
  simp [dataLevels, List.getElem?_append_left, hk]

theorem answeredParity_data {w : Word} {p : Bool}
    (h : (s.targetHears (req r)).target.out = none :: ackLevels .ok ++ dataLevels w p) : answeredParity s r = p := by
  refine answeredParity_out h ?_
  rw [show none :: ackLevels .ok ++ dataLevels w p = [none, some true, some false, some false] ++ dataLevels w p from rfl,
    List.getD_append_right _ _ _ _ (by simp)]
  simp [dataLevels]

end

end Sys2Proof.Machine
end

