-- ==== Sys2Proof/Laws/Contract.lean ====
section
/-! SUPPORT. The target contract: what each of its operations leaves alone, one lemma a field; which answer a
conforming reply gives; what a whole transaction does to the target, from any state. -/

namespace Sys2Proof.Machine

/-! ### Fields left alone -/

section Fields
variable (fresh : Nat → Word) (t : Target)

@[simp] theorem Target.advance_script : (t.advance fresh).script = t.script := by
  unfold Target.advance; split <;> [rfl; (split <;> rfl)]

@[simp] theorem Target.advance_again : (t.advance fresh).again = t.again := by
  unfold Target.advance; split <;> [rfl; (split <;> rfl)]

@[simp] theorem Target.advance_out : (t.advance fresh).out = t.out := by
  unfold Target.advance; split <;> [rfl; (split <;> rfl)]

@[simp] theorem Target.advance_taking : (t.advance fresh).taking = t.taking := by
  unfold Target.advance; split <;> [rfl; (split <;> rfl)]

@[simp] theorem Target.advance_dpidr : (t.advance fresh).dpidr = t.dpidr := by
  unfold Target.advance; split <;> [rfl; (split <;> rfl)]

@[simp] theorem Target.advance_stat : (t.advance fresh).stat = t.stat := by
  unfold Target.advance; split <;> [rfl; (split <;> rfl)]

@[simp] theorem Target.advance_select : (t.advance fresh).select = t.select := by
  unfold Target.advance; split <;> [rfl; (split <;> rfl)]

@[simp] theorem Target.advance_buf : (t.advance fresh).buf = t.buf := by
  unfold Target.advance; split <;> [rfl; (split <;> rfl)]

@[simp] theorem Target.advance_unread : (t.advance fresh).unread = t.unread := by
  unfold Target.advance; split <;> [rfl; (split <;> rfl)]

@[simp] theorem Target.advance_resent : (t.advance fresh).resent = t.resent := by
  unfold Target.advance; split <;> [rfl; (split <;> rfl)]

@[simp] theorem Target.advance_csw : (t.advance fresh).csw = t.csw := by
  unfold Target.advance; split <;> [rfl; (split <;> rfl)]

@[simp] theorem Target.advance_cfg : (t.advance fresh).cfg = t.cfg := by
  unfold Target.advance; split <;> [rfl; (split <;> rfl)]

@[simp] theorem Target.advance_base : (t.advance fresh).base = t.base := by
  unfold Target.advance; split <;> [rfl; (split <;> rfl)]

@[simp] theorem Target.advance_idr : (t.advance fresh).idr = t.idr := by
  unfold Target.advance; split <;> [rfl; (split <;> rfl)]

@[simp] theorem Target.advance_posted : (t.advance fresh).posted = t.posted := by
  unfold Target.advance; split <;> [rfl; (split <;> rfl)]

@[simp] theorem Target.apWrite_script (p : PostedWrite) : (t.apWrite fresh p).script = t.script := by
  unfold Target.apWrite; split <;> [(split <;> first | rfl | simp); rfl]

@[simp] theorem Target.apWrite_again (p : PostedWrite) : (t.apWrite fresh p).again = t.again := by
  unfold Target.apWrite; split <;> [(split <;> first | rfl | simp); rfl]

@[simp] theorem Target.apWrite_out (p : PostedWrite) : (t.apWrite fresh p).out = t.out := by
  unfold Target.apWrite; split <;> [(split <;> first | rfl | simp); rfl]

@[simp] theorem Target.apWrite_taking (p : PostedWrite) : (t.apWrite fresh p).taking = t.taking := by
  unfold Target.apWrite; split <;> [(split <;> first | rfl | simp); rfl]

@[simp] theorem Target.apWrite_dpidr (p : PostedWrite) : (t.apWrite fresh p).dpidr = t.dpidr := by
  unfold Target.apWrite; split <;> [(split <;> first | rfl | simp); rfl]

@[simp] theorem Target.apWrite_stat (p : PostedWrite) : (t.apWrite fresh p).stat = t.stat := by
  unfold Target.apWrite; split <;> [(split <;> first | rfl | simp); rfl]

@[simp] theorem Target.apWrite_select (p : PostedWrite) : (t.apWrite fresh p).select = t.select := by
  unfold Target.apWrite; split <;> [(split <;> first | rfl | simp); rfl]

@[simp] theorem Target.apWrite_buf (p : PostedWrite) : (t.apWrite fresh p).buf = t.buf := by
  unfold Target.apWrite; split <;> [(split <;> first | rfl | simp); rfl]

@[simp] theorem Target.apWrite_unread (p : PostedWrite) : (t.apWrite fresh p).unread = t.unread := by
  unfold Target.apWrite; split <;> [(split <;> first | rfl | simp); rfl]

@[simp] theorem Target.apWrite_resent (p : PostedWrite) : (t.apWrite fresh p).resent = t.resent := by
  unfold Target.apWrite; split <;> [(split <;> first | rfl | simp); rfl]

@[simp] theorem Target.apWrite_cfg (p : PostedWrite) : (t.apWrite fresh p).cfg = t.cfg := by
  unfold Target.apWrite; split <;> [(split <;> first | rfl | simp); rfl]

@[simp] theorem Target.apWrite_base (p : PostedWrite) : (t.apWrite fresh p).base = t.base := by
  unfold Target.apWrite; split <;> [(split <;> first | rfl | simp); rfl]

@[simp] theorem Target.apWrite_idr (p : PostedWrite) : (t.apWrite fresh p).idr = t.idr := by
  unfold Target.apWrite; split <;> [(split <;> first | rfl | simp); rfl]

@[simp] theorem Target.apWrite_posted (p : PostedWrite) : (t.apWrite fresh p).posted = t.posted := by
  unfold Target.apWrite; split <;> [(split <;> first | rfl | simp); rfl]

@[simp] theorem Target.performPosted_script : (t.performPosted fresh).script = t.script := by
  unfold Target.performPosted; split <;> simp

@[simp] theorem Target.performPosted_again : (t.performPosted fresh).again = t.again := by
  unfold Target.performPosted; split <;> simp

@[simp] theorem Target.performPosted_out : (t.performPosted fresh).out = t.out := by
  unfold Target.performPosted; split <;> simp

@[simp] theorem Target.performPosted_taking : (t.performPosted fresh).taking = t.taking := by
  unfold Target.performPosted; split <;> simp

@[simp] theorem Target.performPosted_dpidr : (t.performPosted fresh).dpidr = t.dpidr := by
  unfold Target.performPosted; split <;> simp

@[simp] theorem Target.performPosted_stat : (t.performPosted fresh).stat = t.stat := by
  unfold Target.performPosted; split <;> simp

@[simp] theorem Target.performPosted_select : (t.performPosted fresh).select = t.select := by
  unfold Target.performPosted; split <;> simp

@[simp] theorem Target.performPosted_buf : (t.performPosted fresh).buf = t.buf := by
  unfold Target.performPosted; split <;> simp

@[simp] theorem Target.performPosted_unread : (t.performPosted fresh).unread = t.unread := by
  unfold Target.performPosted; split <;> simp

@[simp] theorem Target.performPosted_resent : (t.performPosted fresh).resent = t.resent := by
  unfold Target.performPosted; split <;> simp

@[simp] theorem Target.performPosted_cfg : (t.performPosted fresh).cfg = t.cfg := by
  unfold Target.performPosted; split <;> simp

@[simp] theorem Target.performPosted_base : (t.performPosted fresh).base = t.base := by
  unfold Target.performPosted; split <;> simp

@[simp] theorem Target.performPosted_idr : (t.performPosted fresh).idr = t.idr := by
  unfold Target.performPosted; split <;> simp

@[simp] theorem Target.apRead2_script (slot : Slot) : ((t.apRead fresh slot).2).script = t.script := by
  unfold Target.apRead; split <;> [(split <;> first | rfl | simp); rfl]

@[simp] theorem Target.apRead2_again (slot : Slot) : ((t.apRead fresh slot).2).again = t.again := by
  unfold Target.apRead; split <;> [(split <;> first | rfl | simp); rfl]

@[simp] theorem Target.apRead2_out (slot : Slot) : ((t.apRead fresh slot).2).out = t.out := by
  unfold Target.apRead; split <;> [(split <;> first | rfl | simp); rfl]

@[simp] theorem Target.apRead2_taking (slot : Slot) : ((t.apRead fresh slot).2).taking = t.taking := by
  unfold Target.apRead; split <;> [(split <;> first | rfl | simp); rfl]

@[simp] theorem Target.apRead2_dpidr (slot : Slot) : ((t.apRead fresh slot).2).dpidr = t.dpidr := by
  unfold Target.apRead; split <;> [(split <;> first | rfl | simp); rfl]

@[simp] theorem Target.apRead2_stat (slot : Slot) : ((t.apRead fresh slot).2).stat = t.stat := by
  unfold Target.apRead; split <;> [(split <;> first | rfl | simp); rfl]

@[simp] theorem Target.apRead2_select (slot : Slot) : ((t.apRead fresh slot).2).select = t.select := by
  unfold Target.apRead; split <;> [(split <;> first | rfl | simp); rfl]

@[simp] theorem Target.apRead2_buf (slot : Slot) : ((t.apRead fresh slot).2).buf = t.buf := by
  unfold Target.apRead; split <;> [(split <;> first | rfl | simp); rfl]

@[simp] theorem Target.apRead2_unread (slot : Slot) : ((t.apRead fresh slot).2).unread = t.unread := by
  unfold Target.apRead; split <;> [(split <;> first | rfl | simp); rfl]

@[simp] theorem Target.apRead2_resent (slot : Slot) : ((t.apRead fresh slot).2).resent = t.resent := by
  unfold Target.apRead; split <;> [(split <;> first | rfl | simp); rfl]

@[simp] theorem Target.apRead2_csw (slot : Slot) : ((t.apRead fresh slot).2).csw = t.csw := by
  unfold Target.apRead; split <;> [(split <;> first | rfl | simp); rfl]

@[simp] theorem Target.apRead2_cfg (slot : Slot) : ((t.apRead fresh slot).2).cfg = t.cfg := by
  unfold Target.apRead; split <;> [(split <;> first | rfl | simp); rfl]

@[simp] theorem Target.apRead2_base (slot : Slot) : ((t.apRead fresh slot).2).base = t.base := by
  unfold Target.apRead; split <;> [(split <;> first | rfl | simp); rfl]

@[simp] theorem Target.apRead2_idr (slot : Slot) : ((t.apRead fresh slot).2).idr = t.idr := by
  unfold Target.apRead; split <;> [(split <;> first | rfl | simp); rfl]

@[simp] theorem Target.apRead2_posted (slot : Slot) : ((t.apRead fresh slot).2).posted = t.posted := by
  unfold Target.apRead; split <;> [(split <;> first | rfl | simp); rfl]

@[simp] theorem Target.losesBuffer_script (c : Choice) (r : RegRef) : (t.losesBuffer fresh c r).script = t.script := by
  unfold Target.losesBuffer; split <;> rfl

@[simp] theorem Target.losesBuffer_again (c : Choice) (r : RegRef) : (t.losesBuffer fresh c r).again = t.again := by
  unfold Target.losesBuffer; split <;> rfl

@[simp] theorem Target.losesBuffer_out (c : Choice) (r : RegRef) : (t.losesBuffer fresh c r).out = t.out := by
  unfold Target.losesBuffer; split <;> rfl

@[simp] theorem Target.losesBuffer_taking (c : Choice) (r : RegRef) : (t.losesBuffer fresh c r).taking = t.taking := by
  unfold Target.losesBuffer; split <;> rfl

@[simp] theorem Target.losesBuffer_dpidr (c : Choice) (r : RegRef) : (t.losesBuffer fresh c r).dpidr = t.dpidr := by
  unfold Target.losesBuffer; split <;> rfl

@[simp] theorem Target.losesBuffer_stat (c : Choice) (r : RegRef) : (t.losesBuffer fresh c r).stat = t.stat := by
  unfold Target.losesBuffer; split <;> rfl

@[simp] theorem Target.losesBuffer_select (c : Choice) (r : RegRef) : (t.losesBuffer fresh c r).select = t.select := by
  unfold Target.losesBuffer; split <;> rfl

@[simp] theorem Target.losesBuffer_csw (c : Choice) (r : RegRef) : (t.losesBuffer fresh c r).csw = t.csw := by
  unfold Target.losesBuffer; split <;> rfl

@[simp] theorem Target.losesBuffer_tar (c : Choice) (r : RegRef) : (t.losesBuffer fresh c r).tar = t.tar := by
  unfold Target.losesBuffer; split <;> rfl

@[simp] theorem Target.losesBuffer_cfg (c : Choice) (r : RegRef) : (t.losesBuffer fresh c r).cfg = t.cfg := by
  unfold Target.losesBuffer; split <;> rfl

@[simp] theorem Target.losesBuffer_base (c : Choice) (r : RegRef) : (t.losesBuffer fresh c r).base = t.base := by
  unfold Target.losesBuffer; split <;> rfl

@[simp] theorem Target.losesBuffer_idr (c : Choice) (r : RegRef) : (t.losesBuffer fresh c r).idr = t.idr := by
  unfold Target.losesBuffer; split <;> rfl

@[simp] theorem Target.losesBuffer_posted (c : Choice) (r : RegRef) : (t.losesBuffer fresh c r).posted = t.posted := by
  unfold Target.losesBuffer; split <;> rfl

@[simp] theorem Target.losesBuffer_resent (c : Choice) (r : RegRef) : (t.losesBuffer fresh c r).resent = t.resent := by
  unfold Target.losesBuffer; split <;> rfl

@[simp] theorem Target.readWord2_script (c : Choice) (r : RegRef) : ((t.readWord fresh c r).2).script = t.script := by
  unfold Target.readWord; split <;> [(split <;> simp); (split <;> simp)]

@[simp] theorem Target.readWord2_again (c : Choice) (r : RegRef) : ((t.readWord fresh c r).2).again = t.again := by
  unfold Target.readWord; split <;> [(split <;> simp); (split <;> simp)]

@[simp] theorem Target.readWord2_out (c : Choice) (r : RegRef) : ((t.readWord fresh c r).2).out = t.out := by
  unfold Target.readWord; split <;> [(split <;> simp); (split <;> simp)]

@[simp] theorem Target.readWord2_taking (c : Choice) (r : RegRef) : ((t.readWord fresh c r).2).taking = t.taking := by
  unfold Target.readWord; split <;> [(split <;> simp); (split <;> simp)]

@[simp] theorem Target.readWord2_dpidr (c : Choice) (r : RegRef) : ((t.readWord fresh c r).2).dpidr = t.dpidr := by
  unfold Target.readWord; split <;> [(split <;> simp); (split <;> simp)]

@[simp] theorem Target.readWord2_stat (c : Choice) (r : RegRef) : ((t.readWord fresh c r).2).stat = t.stat := by
  unfold Target.readWord; split <;> [(split <;> simp); (split <;> simp)]

@[simp] theorem Target.readWord2_select (c : Choice) (r : RegRef) : ((t.readWord fresh c r).2).select = t.select := by
  unfold Target.readWord; split <;> [(split <;> simp); (split <;> simp)]

@[simp] theorem Target.readWord2_csw (c : Choice) (r : RegRef) : ((t.readWord fresh c r).2).csw = t.csw := by
  unfold Target.readWord; split <;> [(split <;> simp); (split <;> simp)]

@[simp] theorem Target.readWord2_cfg (c : Choice) (r : RegRef) : ((t.readWord fresh c r).2).cfg = t.cfg := by
  unfold Target.readWord; split <;> [(split <;> simp); (split <;> simp)]

@[simp] theorem Target.readWord2_base (c : Choice) (r : RegRef) : ((t.readWord fresh c r).2).base = t.base := by
  unfold Target.readWord; split <;> [(split <;> simp); (split <;> simp)]

@[simp] theorem Target.readWord2_idr (c : Choice) (r : RegRef) : ((t.readWord fresh c r).2).idr = t.idr := by
  unfold Target.readWord; split <;> [(split <;> simp); (split <;> simp)]

@[simp] theorem Target.readWord2_posted (c : Choice) (r : RegRef) : ((t.readWord fresh c r).2).posted = t.posted := by
  unfold Target.readWord; split <;> [(split <;> simp); (split <;> simp)]

@[simp] theorem Target.acknowledgePower_script : (t.acknowledgePower).script = t.script := by
  rfl

@[simp] theorem Target.acknowledgePower_again : (t.acknowledgePower).again = t.again := by
  rfl

@[simp] theorem Target.acknowledgePower_out : (t.acknowledgePower).out = t.out := by
  rfl

@[simp] theorem Target.acknowledgePower_taking : (t.acknowledgePower).taking = t.taking := by
  rfl

@[simp] theorem Target.acknowledgePower_dpidr : (t.acknowledgePower).dpidr = t.dpidr := by
  rfl

@[simp] theorem Target.acknowledgePower_select : (t.acknowledgePower).select = t.select := by
  rfl

@[simp] theorem Target.acknowledgePower_buf : (t.acknowledgePower).buf = t.buf := by
  rfl

@[simp] theorem Target.acknowledgePower_unread : (t.acknowledgePower).unread = t.unread := by
  rfl

@[simp] theorem Target.acknowledgePower_resent : (t.acknowledgePower).resent = t.resent := by
  rfl

@[simp] theorem Target.acknowledgePower_csw : (t.acknowledgePower).csw = t.csw := by
  rfl

@[simp] theorem Target.acknowledgePower_tar : (t.acknowledgePower).tar = t.tar := by
  rfl

@[simp] theorem Target.acknowledgePower_cfg : (t.acknowledgePower).cfg = t.cfg := by
  rfl

@[simp] theorem Target.acknowledgePower_base : (t.acknowledgePower).base = t.base := by
  rfl

@[simp] theorem Target.acknowledgePower_idr : (t.acknowledgePower).idr = t.idr := by
  rfl

@[simp] theorem Target.acknowledgePower_posted : (t.acknowledgePower).posted = t.posted := by
  rfl

@[simp] theorem Target.acknowledgePower_mem : (t.acknowledgePower).mem = t.mem := by
  rfl

@[simp] theorem Target.meets_again (c : Choice) (rest : List Reply) : (t.meets c rest).again = t.again := by
  unfold Target.meets; simp only; split <;> rfl

@[simp] theorem Target.meets_dpidr (c : Choice) (rest : List Reply) : (t.meets c rest).dpidr = t.dpidr := by
  unfold Target.meets; simp only; split <;> rfl

@[simp] theorem Target.meets_select (c : Choice) (rest : List Reply) : (t.meets c rest).select = t.select := by
  unfold Target.meets; simp only; split <;> rfl

@[simp] theorem Target.meets_buf (c : Choice) (rest : List Reply) : (t.meets c rest).buf = t.buf := by
  unfold Target.meets; simp only; split <;> rfl

@[simp] theorem Target.meets_unread (c : Choice) (rest : List Reply) : (t.meets c rest).unread = t.unread := by
  unfold Target.meets; simp only; split <;> rfl

@[simp] theorem Target.meets_resent (c : Choice) (rest : List Reply) : (t.meets c rest).resent = t.resent := by
  unfold Target.meets; simp only; split <;> rfl

@[simp] theorem Target.meets_csw (c : Choice) (rest : List Reply) : (t.meets c rest).csw = t.csw := by
  unfold Target.meets; simp only; split <;> rfl

@[simp] theorem Target.meets_tar (c : Choice) (rest : List Reply) : (t.meets c rest).tar = t.tar := by
  unfold Target.meets; simp only; split <;> rfl

@[simp] theorem Target.meets_cfg (c : Choice) (rest : List Reply) : (t.meets c rest).cfg = t.cfg := by
  unfold Target.meets; simp only; split <;> rfl

@[simp] theorem Target.meets_base (c : Choice) (rest : List Reply) : (t.meets c rest).base = t.base := by
  unfold Target.meets; simp only; split <;> rfl

@[simp] theorem Target.meets_idr (c : Choice) (rest : List Reply) : (t.meets c rest).idr = t.idr := by
  unfold Target.meets; simp only; split <;> rfl

@[simp] theorem Target.meets_posted (c : Choice) (rest : List Reply) : (t.meets c rest).posted = t.posted := by
  unfold Target.meets; simp only; split <;> rfl

@[simp] theorem Target.meets_mem (c : Choice) (rest : List Reply) : (t.meets c rest).mem = t.mem := by
  unfold Target.meets; simp only; split <;> rfl

@[simp] theorem Target.answer_script (c : Choice) (r : RegRef) : (t.answer fresh c r).script = t.script := by
  unfold Target.answer; split <;> [(split <;> [simp; (simp only [Target.losesBuffer_script]; split <;> simp)]); simp; rfl; rfl]

@[simp] theorem Target.answer_again (c : Choice) (r : RegRef) : (t.answer fresh c r).again = t.again := by
  unfold Target.answer; split <;> [(split <;> [simp; (simp only [Target.losesBuffer_again]; split <;> simp)]); simp; rfl; rfl]

@[simp] theorem Target.answer_dpidr (c : Choice) (r : RegRef) : (t.answer fresh c r).dpidr = t.dpidr := by
  unfold Target.answer; split <;> [(split <;> [simp; (simp only [Target.losesBuffer_dpidr]; split <;> simp)]); simp; rfl; rfl]

@[simp] theorem Target.answer_select (c : Choice) (r : RegRef) : (t.answer fresh c r).select = t.select := by
  unfold Target.answer; split <;> [(split <;> [simp; (simp only [Target.losesBuffer_select]; split <;> simp)]); simp; rfl; rfl]

@[simp] theorem Target.answer_cfg (c : Choice) (r : RegRef) : (t.answer fresh c r).cfg = t.cfg := by
  unfold Target.answer; split <;> [(split <;> [simp; (simp only [Target.losesBuffer_cfg]; split <;> simp)]); simp; rfl; rfl]

@[simp] theorem Target.answer_base (c : Choice) (r : RegRef) : (t.answer fresh c r).base = t.base := by
  unfold Target.answer; split <;> [(split <;> [simp; (simp only [Target.losesBuffer_base]; split <;> simp)]); simp; rfl; rfl]

@[simp] theorem Target.answer_idr (c : Choice) (r : RegRef) : (t.answer fresh c r).idr = t.idr := by
  unfold Target.answer; split <;> [(split <;> [simp; (simp only [Target.losesBuffer_idr]; split <;> simp)]); simp; rfl; rfl]

@[simp] theorem Target.hears_dpidr (b : Header) : (t.hears fresh b).dpidr = t.dpidr := by
  unfold Target.hears; split <;> [rfl; rfl; (simp only; split <;> [rfl; (split <;> simp)])]

@[simp] theorem Target.hears_select (b : Header) : (t.hears fresh b).select = t.select := by
  unfold Target.hears; split <;> [rfl; rfl; (simp only; split <;> [rfl; (split <;> simp)])]

@[simp] theorem Target.hears_cfg (b : Header) : (t.hears fresh b).cfg = t.cfg := by
  unfold Target.hears; split <;> [rfl; rfl; (simp only; split <;> [rfl; (split <;> simp)])]

@[simp] theorem Target.hears_base (b : Header) : (t.hears fresh b).base = t.base := by
  unfold Target.hears; split <;> [rfl; rfl; (simp only; split <;> [rfl; (split <;> simp)])]

@[simp] theorem Target.hears_idr (b : Header) : (t.hears fresh b).idr = t.idr := by
  unfold Target.hears; split <;> [rfl; rfl; (simp only; split <;> [rfl; (split <;> simp)])]

@[simp] theorem Target.dpWrite_dpidr (slot : Slot) (w : Word) : (t.dpWrite fresh slot w).dpidr = t.dpidr := by
  unfold Target.dpWrite; split <;> [simp; (split <;> rfl); rfl; rfl]

@[simp] theorem Target.dpWrite_cfg (slot : Slot) (w : Word) : (t.dpWrite fresh slot w).cfg = t.cfg := by
  unfold Target.dpWrite; split <;> [simp; (split <;> rfl); rfl; rfl]

@[simp] theorem Target.dpWrite_base (slot : Slot) (w : Word) : (t.dpWrite fresh slot w).base = t.base := by
  unfold Target.dpWrite; split <;> [simp; (split <;> rfl); rfl; rfl]

@[simp] theorem Target.dpWrite_idr (slot : Slot) (w : Word) : (t.dpWrite fresh slot w).idr = t.idr := by
  unfold Target.dpWrite; split <;> [simp; (split <;> rfl); rfl; rfl]

@[simp] theorem Target.dpWrite_buf (slot : Slot) (w : Word) : (t.dpWrite fresh slot w).buf = t.buf := by
  unfold Target.dpWrite; split <;> [simp; (split <;> rfl); rfl; rfl]

@[simp] theorem Target.dpWrite_unread (slot : Slot) (w : Word) : (t.dpWrite fresh slot w).unread = t.unread := by
  unfold Target.dpWrite; split <;> [simp; (split <;> rfl); rfl; rfl]

@[simp] theorem Target.dpWrite_resent (slot : Slot) (w : Word) : (t.dpWrite fresh slot w).resent = t.resent := by
  unfold Target.dpWrite; split <;> [simp; (split <;> rfl); rfl; rfl]

@[simp] theorem Target.apTakes_dpidr (c : Choice) (slot : Slot) (w : Word) : (t.apTakes fresh c slot w).dpidr = t.dpidr := by
  unfold Target.apTakes; split <;> [(split <;> simp); rfl]

@[simp] theorem Target.apTakes_stat (c : Choice) (slot : Slot) (w : Word) : (t.apTakes fresh c slot w).stat = t.stat := by
  unfold Target.apTakes; split <;> [(split <;> simp); rfl]

@[simp] theorem Target.apTakes_select (c : Choice) (slot : Slot) (w : Word) : (t.apTakes fresh c slot w).select = t.select := by
  unfold Target.apTakes; split <;> [(split <;> simp); rfl]

@[simp] theorem Target.apTakes_cfg (c : Choice) (slot : Slot) (w : Word) : (t.apTakes fresh c slot w).cfg = t.cfg := by
  unfold Target.apTakes; split <;> [(split <;> simp); rfl]

@[simp] theorem Target.apTakes_base (c : Choice) (slot : Slot) (w : Word) : (t.apTakes fresh c slot w).base = t.base := by
  unfold Target.apTakes; split <;> [(split <;> simp); rfl]

@[simp] theorem Target.apTakes_idr (c : Choice) (slot : Slot) (w : Word) : (t.apTakes fresh c slot w).idr = t.idr := by
  unfold Target.apTakes; split <;> [(split <;> simp); rfl]

@[simp] theorem Target.apTakes_buf (c : Choice) (slot : Slot) (w : Word) : (t.apTakes fresh c slot w).buf = t.buf := by
  unfold Target.apTakes; split <;> [(split <;> simp); rfl]

@[simp] theorem Target.apTakes_unread (c : Choice) (slot : Slot) (w : Word) : (t.apTakes fresh c slot w).unread = t.unread := by
  unfold Target.apTakes; split <;> [(split <;> simp); rfl]

@[simp] theorem Target.apTakes_resent (c : Choice) (slot : Slot) (w : Word) : (t.apTakes fresh c slot w).resent = t.resent := by
  unfold Target.apTakes; split <;> [(split <;> simp); rfl]

@[simp] theorem Target.takes_dpidr (w : Word) (b : Bool) : (t.takes fresh w b).dpidr = t.dpidr := by
  unfold Target.takes; split <;> [rfl; (split <;> [(split <;> simp); simp])]

@[simp] theorem Target.takes_cfg (w : Word) (b : Bool) : (t.takes fresh w b).cfg = t.cfg := by
  unfold Target.takes; split <;> [rfl; (split <;> [(split <;> simp); simp])]

@[simp] theorem Target.takes_base (w : Word) (b : Bool) : (t.takes fresh w b).base = t.base := by
  unfold Target.takes; split <;> [rfl; (split <;> [(split <;> simp); simp])]

@[simp] theorem Target.takes_idr (w : Word) (b : Bool) : (t.takes fresh w b).idr = t.idr := by
  unfold Target.takes; split <;> [rfl; (split <;> [(split <;> simp); simp])]

@[simp] theorem Target.takes_buf (w : Word) (b : Bool) : (t.takes fresh w b).buf = t.buf := by
  unfold Target.takes; split <;> [rfl; (split <;> [(split <;> simp); simp])]

@[simp] theorem Target.takes_resent (w : Word) (b : Bool) : (t.takes fresh w b).resent = t.resent := by
  unfold Target.takes; split <;> [rfl; (split <;> [(split <;> simp); simp])]


theorem Target.performPosted_none (h : t.posted = none) : t.performPosted fresh = t := by
  simp [Target.performPosted, h]

@[simp] theorem Target.performPosted_posted : (t.performPosted fresh).posted = none := by
  unfold Target.performPosted; split <;> simp_all

@[simp] theorem Target.meets_script (c : Choice) (rest : List Reply) : (t.meets c rest).script = rest := by
  unfold Target.meets; simp only; split <;> rfl

@[simp] theorem Target.meets_out (c : Choice) (rest : List Reply) : (t.meets c rest).out = [] := by
  unfold Target.meets; simp only; split <;> rfl

@[simp] theorem Target.meets_taking (c : Choice) (rest : List Reply) : (t.meets c rest).taking = none := by
  unfold Target.meets; simp only; split <;> rfl

end Fields

/-! ### Bits of a register -/

section Bits
variable {w : Nat} (mask old new m c : BitVec w)

/-- Bits outside the mask are the old ones. -/
theorem merge_outside (mask old new m : Word) (h : mask &&& m = 0) : merge mask old new &&& m = old &&& m := by
  apply BitVec.eq_of_getLsbD_eq
  intro i hi
  have := congrArg (fun x => x.getLsbD i) h
  simp only [BitVec.getLsbD_and] at this
  simp only [merge, BitVec.getLsbD_and, BitVec.getLsbD_or, BitVec.getLsbD_not, hi, decide_true, Bool.true_and]
  revert this
  cases mask.getLsbD i <;> cases m.getLsbD i <;> simp

/-- Bits inside the mask are the new ones. -/
theorem merge_inside (mask old new m : Word) (h : mask &&& m = m) : merge mask old new &&& m = new &&& m := by
  apply BitVec.eq_of_getLsbD_eq
  intro i hi
  have := congrArg (fun x => x.getLsbD i) h
  simp only [BitVec.getLsbD_and] at this
  simp only [merge, BitVec.getLsbD_and, BitVec.getLsbD_or, BitVec.getLsbD_not, hi, decide_true, Bool.true_and]
  revert this
  cases mask.getLsbD i <;> cases m.getLsbD i <;> simp

theorem or_outside (x c m : Word) (h : c &&& m = 0) : (x ||| c) &&& m = x &&& m := by
  apply BitVec.eq_of_getLsbD_eq
  intro i hi
  have := congrArg (fun x => x.getLsbD i) h
  simp only [BitVec.getLsbD_and] at this
  simp only [BitVec.getLsbD_and, BitVec.getLsbD_or]
  revert this
  cases c.getLsbD i <;> cases m.getLsbD i <;> simp

end Bits

/-- The bits of STAT that no read changes: all but the power acknowledges and STICKYERR. -/
theorem Target.acknowledgePower_stat (t : Target) (m : Word) (h : statAcks &&& m = 0) :
    t.acknowledgePower.stat &&& m = t.stat &&& m := merge_outside _ _ _ _ h

theorem Target.meets_stat (t : Target) (c : Choice) (rest : List Reply) (m : Word) (h : statAcks &&& m = 0) :
    (t.meets c rest).stat &&& m = t.stat &&& m := by
  unfold Target.meets
  simp only
  split
  · exact Target.acknowledgePower_stat _ m h
  · rfl

/-- A sticky error is not set or cleared by the power acknowledges. -/
@[simp] theorem Target.meets_sticky (t : Target) (c : Choice) (rest : List Reply) :
    (t.meets c rest).sticky = t.sticky := by
  unfold Target.sticky
  rw [Target.meets_stat t c rest statSticky (by decide)]

/-! ### Performing a posted write and meeting a header

An AP write neither looks at nor changes the script, the levels driven, the write awaited, STAT or the read buffer. -/

section Performed
variable (fresh : Nat → Word) (t : Target) (script : List Reply) (out : List (Option Bool))
  (taking : Option (RegRef × Choice)) (stat buf : Word) (unread : Bool)

theorem Target.advance_update :
    Target.advance fresh
        { t with script := script, out := out, taking := taking, stat := stat, buf := buf, unread := unread } =
      { t.advance fresh with
        script := script, out := out, taking := taking, stat := stat, buf := buf, unread := unread } := by
  unfold Target.advance
  rw [show ({ t with script := script, out := out, taking := taking, stat := stat, buf := buf, unread := unread } :
    Target).plainDrw = t.plainDrw from rfl]
  simp only
  split
  · rfl
  · split <;> rfl

theorem Target.apWrite_update (p : PostedWrite) :
    Target.apWrite fresh p
        { t with script := script, out := out, taking := taking, stat := stat, buf := buf, unread := unread } =
      { t.apWrite fresh p with
        script := script, out := out, taking := taking, stat := stat, buf := buf, unread := unread } := by
  unfold Target.apWrite
  split
  · split
    · rfl
    · rfl
    · rw [← Target.advance_update]; rfl
    all_goals rfl
  · rfl

theorem Target.performPosted_update :
    Target.performPosted fresh
        { t with script := script, out := out, taking := taking, stat := stat, buf := buf, unread := unread } =
      { t.performPosted fresh with
        script := script, out := out, taking := taking, stat := stat, buf := buf, unread := unread } := by
  unfold Target.performPosted
  simp only
  split
  · rfl
  · rw [← Target.apWrite_update]

/-- A target that has performed its posted write meets a header as one that has yet to perform it (R308). -/
theorem Target.performPosted_meets (c : Choice) (rest : List Reply) :
    (t.meets c rest).performPosted fresh = (t.performPosted fresh).meets c rest := by
  have key : ∀ u : Target, u.stat = t.stat → u.meets c rest =
      { u with script := rest, out := [], taking := none, stat := (t.meets c rest).stat } := by
    intro u h
    unfold Target.meets Target.acknowledgePower
    simp only [h]
    split <;> rfl
  have h := key (t.performPosted fresh) (by simp)
  rw [h, key t rfl, Target.performPosted_update]
  simp only [Target.performPosted_buf, Target.performPosted_unread]

theorem Target.performPosted_ackFor (c : Choice) (r : RegRef) : (t.performPosted fresh).ackFor c r = t.ackFor c r := by
  simp [Target.ackFor, Target.sticky]

end Performed

/-! ### What a header does to the target -/

section Hears
variable (fresh : Nat → Word) (b : Header) (t : Target)

/-- A script that is not at its end is what comes. -/
theorem Target.coming_script {x : Reply} {rest : List Reply} (h : t.script = x :: rest) : t.coming = x :: rest := by
  simp only [Target.coming, h]

/-- After its script the target does what it does again and again. -/
theorem Target.coming_again (h : t.script = []) : t.coming = t.again := by simp only [Target.coming, h]

/-- A conforming reply: the target meets the header and answers. -/
theorem Target.hears_conforming {c : Choice} {rest : List Reply} (h : t.coming = .conforming c :: rest) (r : RegRef) :
    t.hears fresh (req r) = Target.answer fresh c r (t.meets c rest) := by
  simp only [Target.hears, h, headerRef_req, Target.meets]

/-- A raw reply: the target drives its levels and nothing of it changes. -/
theorem Target.hears_raw {l : List (Option Bool)} {rest : List Reply} (h : t.coming = .raw l :: rest) :
    t.hears fresh b = { t with script := rest, out := l, taking := none } := by
  simp only [Target.hears, h]

/-- What hearing a header can be: nothing but what is driven, or a conforming answer. -/
theorem Target.hears_cases :
    (∃ sc o, t.hears fresh b = { t with script := sc, out := o, taking := none }) ∨
    ∃ c rest r, t.coming = .conforming c :: rest ∧ req r = b ∧
      t.hears fresh b = Target.answer fresh c r (t.meets c rest) := by
  unfold Target.hears
  split
  · exact .inl ⟨t.script, [], rfl⟩
  · exact .inl ⟨_, _, rfl⟩
  · rename_i c rest hs
    cases hr : headerRef b with
    | none => exact .inl ⟨rest, [], rfl⟩
    | some r => exact .inr ⟨c, rest, r, hs, req_of_headerRef hr, rfl⟩

/-- What an answer that is not OK can be: a buffer lost and a sticky error at most. -/
theorem Target.answer_refused (c : Choice) (r : RegRef) (h : t.ackFor c r ≠ .ok) :
    ∃ o st u, (u = t ∨ u = t.losesBuffer fresh c r) ∧ t.answer fresh c r = { u with out := o, stat := st } ∧
      st &&& 0xFFFFFFDF = t.stat &&& 0xFFFFFFDF ∧ (r.port = .dp ∨ t.sticky = true → st = t.stat) := by
  unfold Target.answer
  cases e : t.ackFor c r with
  | ok => exact absurd e h
  | wait => exact ⟨_, t.stat, t, .inl rfl, rfl, rfl, fun _ => rfl⟩
  | noAck => exact ⟨_, t.stat, t, .inl rfl, rfl, rfl, fun _ => rfl⟩
  | fault =>
    refine ⟨_, _, _, .inr rfl, rfl, ?_, fun hk => ?_⟩
    · split
      · exact or_outside _ _ _ (by decide)
      · rfl
    · rcases hk with hk | hk <;> simp [hk]

/-- What an answer of OK is to a read header: a posted write performed and then the read. -/
theorem Target.answer_read (c : Choice) {r : RegRef} (hr : r.dir = .read) (h : t.ackFor c r = .ok) :
    ∃ o, t.answer fresh c r = { ((t.performPosted fresh).readWord fresh c r).2 with out := o } := by
  unfold Target.answer
  simp only [h, hr]
  exact ⟨_, rfl⟩

/-- What an answer of OK is to a write header: a posted write performed, but for ABORT, and the word awaited. -/
theorem Target.answer_write (c : Choice) {r : RegRef} (hr : r.dir = .write) (h : t.ackFor c r = .ok) :
    ∃ u, (u = t ∨ u = t.performPosted fresh) ∧
      t.answer fresh c r = { u.losesBuffer fresh c r with out := none :: ackLevels .ok, taking := some (r, c) } := by
  unfold Target.answer
  simp only [h, hr]
  split
  · exact ⟨_, .inl rfl, rfl⟩
  · exact ⟨_, .inr rfl, rfl⟩

end Hears

/-! ### Where memory changes -/

theorem Target.apWrite_read (fresh : Nat → Word) (p : PostedWrite) (t : Target) (x : Nat)
    (hx : outside (storeAddress p t) x) : (t.apWrite fresh p).mem.read x = t.mem.read x := by
  unfold Target.apWrite
  split
  · rename_i h1
    split
    · rfl
    · rfl
    · rename_i h2
      rw [Target.advance_mem]
      exact Memory.read_writeWord_outside _ _ _ _ _ (hx _ (by simp [storeAddress, h1, h2]))
    all_goals rfl
  · rfl

theorem Target.performPosted_read (fresh : Nat → Word) (t : Target) (x : Nat)
    (hx : outside (postedAddress t) x) : (t.performPosted fresh).mem.read x = t.mem.read x := by
  unfold Target.performPosted
  unfold postedAddress at hx
  split
  · rfl
  · rename_i p hp
    simp only [hp] at hx
    exact Target.apWrite_read _ p { t with posted := none } x hx

/-! ### What a whole transaction can change of the target -/

/-- Nothing is lost where the buffer holds no unread word (R302). -/
theorem Target.losesBuffer_unread (fresh : Nat → Word) (c : Choice) (r : RegRef) (t : Target) (h : t.unread = false) :
    t.losesBuffer fresh c r = t := by
  rw [Target.losesBuffer, if_neg (by simp [h])]

/-- Nothing is lost by a transaction that spares the buffer (R72). -/
theorem Target.losesBuffer_spared (fresh : Nat → Word) {c : Choice} {r : RegRef} (t : Target) (h : c.spares r) :
    t.losesBuffer fresh c r = t := by
  rw [Target.losesBuffer, if_neg fun k => k.2 h]

/-- What a transaction that does not spare the buffer leaves: no unread word, and a buffer of which, if it held one,
nothing is known (R302). -/
theorem Target.losesBuffer_form (fresh : Nat → Word) {c : Choice} {r : RegRef} (t : Target) (h : ¬ c.spares r) :
    t.losesBuffer fresh c r = { t with buf := if t.unread then fresh 4 else t.buf, unread := false } := by
  unfold Target.losesBuffer
  cases hu : t.unread
  · simp only [Bool.false_eq_true, false_and, if_false]
    rw [← hu]
  · simp only [h, not_false_eq_true, and_self, if_true]

/-- The buffer is not lost by a transaction when it holds no unread word, or when the transaction is the RDBUFF read
(R302). -/
theorem Target.losesBuffer_buf (fresh : Nat → Word) (c : Choice) (r : RegRef) (t : Target)
    (h : t.unread = false ∨ r = mkRef .dp .read .a3) : (t.losesBuffer fresh c r).buf = t.buf := by
  rcases h with h | h
  · rw [Target.losesBuffer_unread fresh c r t h]
  · rw [Target.losesBuffer_spared fresh t (.inl h)]

@[simp] theorem postedAddress_losesBuffer (fresh : Nat → Word) (c : Choice) (r : RegRef) (t : Target) :
    postedAddress (t.losesBuffer fresh c r) = postedAddress t := by
  simp only [postedAddress, Target.losesBuffer_posted, storeAddress, Target.drwAddress, Target.losesBuffer_tar]

/-- What a read of a reference leaves of the target. -/
structure ReadsOnly (r : RegRef) (t u : Target) : Prop where
  dpidr  : u.dpidr = t.dpidr
  select : u.select = t.select
  cfg    : u.cfg = t.cfg
  base   : u.base = t.base
  idr    : u.idr = t.idr
  again  : u.again = t.again
  stat   : u.stat &&& 0x57FFFFDF = t.stat &&& 0x57FFFFDF
  statDp : r.port = .dp → u.stat &&& 0x57FFFFFF = t.stat &&& 0x57FFFFFF
  buf    : r.port = .dp → t.unread = false ∨ r = mkRef .dp .read .a3 → u.buf = t.buf
  prompt : t.posted = none → u.posted = none ∧ u.csw = t.csw ∧
    (r.port = .dp ∨ r.slot ≠ .a3 ∨ cswAddrInc t.csw = 0 → u.tar = t.tar)
  byte   : ∀ x, outside (postedAddress t) x → u.mem.read x = t.mem.read x
  posted : ∀ x, outside (postedAddress t) x → outside (postedAddress u) x

theorem ReadsOnly.blind (r : RegRef) (t : Target) : Blind (ReadsOnly r t) := fun _ _ h =>
  ⟨h.dpidr, h.select, h.cfg, h.base, h.idr, h.again, h.stat, h.statDp, h.buf, h.prompt, h.byte, h.posted⟩

theorem ReadsOnly.refl (r : RegRef) (t : Target) : ReadsOnly r t t :=
  ⟨rfl, rfl, rfl, rfl, rfl, rfl, rfl, fun _ => rfl, fun _ _ => rfl, fun h => ⟨h, rfl, fun _ => rfl⟩, fun _ _ => rfl, fun _ h => h⟩

theorem outside_none (x : Nat) : outside none x := fun _ h => by cases h

@[simp] theorem postedAddress_meets (t : Target) (c : Choice) (rest : List Reply) :
    postedAddress (t.meets c rest) = postedAddress t := by
  simp only [postedAddress, Target.meets_posted, storeAddress, Target.drwAddress, Target.meets_tar]

theorem postedAddress_of_none {t : Target} (h : t.posted = none) : postedAddress t = none := by
  simp only [postedAddress, h]

theorem readWord_tar (fresh : Nat → Word) (c : Choice) (r : RegRef) (t : Target)
    (h : r.port = .dp ∨ r.slot ≠ .a3 ∨ cswAddrInc t.csw = 0) : (t.readWord fresh c r).2.tar = t.tar := by
  unfold Target.readWord
  cases hp : r.port with
  | dp => simp only; split <;> simp
  | ap =>
    simp only [hp, reduceCtorEq, false_or] at h
    simp only
    split; swap; · simp
    unfold Target.apRead
    split
    · split
      all_goals first
        | rfl
        | skip
      rename_i h2
      rcases h with h | h
      · exfalso
        revert h2
        unfold apRegAt
        cases hs : r.slot <;> simp_all <;> split <;> simp
      · simp [Target.advance, h]
    · rfl

theorem readWord_buf (fresh : Nat → Word) (c : Choice) (r : RegRef) (t : Target) (h : r.port = .dp)
    (h' : t.unread = false ∨ r = mkRef .dp .read .a3) : (t.readWord fresh c r).2.buf = t.buf := by
  unfold Target.readWord
  rw [h]
  simp only
  split
  all_goals first | rfl | exact Target.losesBuffer_buf fresh c r t h'

theorem and_mask {x y : Word} (h : x &&& 0xFFFFFFDF = y &&& 0xFFFFFFDF) :
    x &&& 0x57FFFFDF = y &&& 0x57FFFFDF := by
  have := congrArg (· &&& (0x57FFFFDF : Word)) h
  simpa [BitVec.and_assoc] using this

/-- Hearing a read header. -/
theorem Target.hears_reads (fresh : Nat → Word) (r : RegRef) (hr : r.dir = .read) (t : Target) :
    ReadsOnly r t (t.hears fresh (req r)) := by
  rcases t.hears_cases fresh (req r) with ⟨sc, o, h⟩ | ⟨c, rest, r', hs, hr', h⟩
  · rw [h]; exact ⟨rfl, rfl, rfl, rfl, rfl, rfl, rfl, fun _ => rfl, fun _ _ => rfl, fun h => ⟨h, rfl, fun _ => rfl⟩, fun _ _ => rfl,
      fun _ h => h⟩
  · have : r' = r := by
      have := headerRef_req r'
      rw [hr', headerRef_req] at this
      exact (Option.some.inj this).symm
    subst this
    have hm : (t.meets c rest).stat &&& 0x57FFFFDF = t.stat &&& 0x57FFFFDF := Target.meets_stat t c rest _ (by decide)
    have hd : (t.meets c rest).stat &&& 0x57FFFFFF = t.stat &&& 0x57FFFFFF := Target.meets_stat t c rest _ (by decide)
    by_cases hk : (t.meets c rest).ackFor c r' = .ok
    · obtain ⟨o, h'⟩ := (t.meets c rest).answer_read fresh c hr hk
      rw [h, h']
      refine ⟨by simp, by simp, by simp, by simp, by simp, by simp, by simpa using hm, fun _ => by simpa using hd, fun hp hb => by
        simp [readWord_buf fresh c r' ((t.meets c rest).performPosted fresh) hp (by simpa using hb)],
        fun hp => ?_, fun x hx => ?_, fun x hx => ?_⟩
      · have e : (t.meets c rest).performPosted fresh = t.meets c rest :=
          Target.performPosted_none _ _ (by simpa using hp)
        simp only [e]
        refine ⟨by simpa using hp, by simp, fun h3 => ?_⟩
        rw [readWord_tar _ _ _ _ (by simpa using h3)]
        simp
      · simp only [Target.readWord_mem]
        rw [Target.performPosted_read _ _ _ (by simpa using hx)]
        simp
      · simp only [postedAddress, Target.readWord2_posted, Target.performPosted_posted]
        exact outside_none x
    · obtain ⟨o, st, u, hu, h', hst, hsd⟩ := (t.meets c rest).answer_refused fresh c r' hk
      rw [h, h']
      rcases hu with rfl | rfl
      · exact ⟨by simp, by simp, by simp, by simp, by simp, by simp, (and_mask hst).trans hm,
        fun hp => by simpa [hsd (.inl hp)] using hd, by simp,
          fun h => ⟨by simpa using h, by simp, by simp⟩, fun x hx => by simp, fun x hx => by
            have := hx
            rw [← postedAddress_meets t c rest] at this
            exact this⟩
      · refine ⟨by simp, by simp, by simp, by simp, by simp, by simp, (and_mask hst).trans hm,
        fun hp => by simpa [hsd (.inl hp)] using hd, fun _ hb => ?_,
          fun h => ⟨by simpa using h, by simp, by simp⟩, fun x hx => by simp, fun x hx => ?_⟩
        · simp only
          rw [Target.losesBuffer_buf _ _ _ _ (by simpa using hb)]
          simp
        · have := hx
          rw [← postedAddress_meets t c rest, ← postedAddress_losesBuffer fresh c r'] at this
          exact this

/-- What hearing a write header leaves of the target. -/
structure WriteHeard (r : RegRef) (t u : Target) : Prop where
  dpidr  : u.dpidr = t.dpidr
  select : u.select = t.select
  cfg    : u.cfg = t.cfg
  base   : u.base = t.base
  idr    : u.idr = t.idr
  again  : u.again = t.again
  buf    : t.unread = false → u.buf = t.buf ∧ u.unread = false
  resent : u.resent = t.resent
  stat   : u.stat &&& 0x57FFFFDF = t.stat &&& 0x57FFFFDF
  statDp : r.port = .dp → u.stat &&& 0x57FFFFFF = t.stat &&& 0x57FFFFFF
  prompt : t.posted = none → u.posted = none ∧ u.csw = t.csw ∧ u.tar = t.tar
  byte   : ∀ x, outside (postedAddress t) x → u.mem.read x = t.mem.read x
  posted : ∀ x, outside (postedAddress t) x → outside (postedAddress u) x
  taking : u.taking = none ∨ ∃ c, u.taking = some (r, c)

/-- Hearing a write header; a target taking nothing. -/
theorem Target.hears_writes (fresh : Nat → Word) (r : RegRef) (hr : r.dir = .write) (t : Target) :
    WriteHeard r t (t.hears fresh (req r)) := by
  rcases t.hears_cases fresh (req r) with ⟨sc, o, h⟩ | ⟨c, rest, r', hs, hr', h⟩
  · rw [h]
    exact ⟨rfl, rfl, rfl, rfl, rfl, rfl, fun h => ⟨rfl, h⟩, rfl, rfl, fun _ => rfl, fun h => ⟨h, rfl, rfl⟩, fun _ _ => rfl,
      fun _ h => h, .inl rfl⟩
  · have : r' = r := by
      have := headerRef_req r'
      rw [hr', headerRef_req] at this
      exact (Option.some.inj this).symm
    subst this
    have hm : (t.meets c rest).stat &&& 0x57FFFFDF = t.stat &&& 0x57FFFFDF := Target.meets_stat t c rest _ (by decide)
    have hd : (t.meets c rest).stat &&& 0x57FFFFFF = t.stat &&& 0x57FFFFFF := Target.meets_stat t c rest _ (by decide)
    by_cases hk : (t.meets c rest).ackFor c r' = .ok
    · obtain ⟨u, hu, h'⟩ := (t.meets c rest).answer_write fresh c hr hk
      rw [h, h']
      rcases hu with rfl | rfl
      · refine ⟨by simp, by simp, by simp, by simp, by simp, by simp, fun hb => ?_, by simp, by simpa using hm, fun _ => by simpa using hd,
          fun h => ⟨by simpa using h, by simp, by simp⟩, fun x hx => by simp, fun x hx => ?_, .inr ⟨c, rfl⟩⟩
        · rw [Target.losesBuffer_unread _ _ _ _ (by simpa using hb)]
          exact ⟨by simp, by simpa using hb⟩
        · have := hx
          rw [← postedAddress_meets t c rest, ← postedAddress_losesBuffer fresh c r'] at this
          exact this
      · refine ⟨by simp, by simp, by simp, by simp, by simp, by simp, fun hb => ?_, by simp, by simpa using hm, fun _ => by simpa using hd,
          fun hp => ?_, fun x hx => ?_, fun x hx => ?_, .inr ⟨c, rfl⟩⟩
        · rw [Target.losesBuffer_unread _ _ _ _ (by simpa using hb)]
          exact ⟨by simp, by simpa using hb⟩
        · have e : (t.meets c rest).performPosted fresh = t.meets c rest :=
            Target.performPosted_none _ _ (by simpa using hp)
          simp only [e]
          exact ⟨by simpa using hp, by simp, by simp⟩
        · simp only [Target.losesBuffer_mem]
          rw [Target.performPosted_read _ _ _ (by simpa using hx)]
          simp
        · simp only [postedAddress, Target.losesBuffer_posted, Target.performPosted_posted]
          exact outside_none x
    · obtain ⟨o, st, u, hu, h', hst, hsd⟩ := (t.meets c rest).answer_refused fresh c r' hk
      rw [h, h']
      rcases hu with rfl | rfl
      · exact ⟨by simp, by simp, by simp, by simp, by simp, by simp, fun hb => ⟨by simp, by simpa using hb⟩, by simp,
          (and_mask hst).trans hm,
        fun hp => by simpa [hsd (.inl hp)] using hd, fun h => ⟨by simpa using h, by simp, by simp⟩, fun x hx => by simp, fun x hx => by
            have := hx
            rw [← postedAddress_meets t c rest] at this
            exact this, .inl (by simp)⟩
      · refine ⟨by simp, by simp, by simp, by simp, by simp, by simp, fun hb => ?_, by simp,
          (and_mask hst).trans hm,
        fun hp => by simpa [hsd (.inl hp)] using hd, fun h => ⟨by simpa using h, by simp, by simp⟩, fun x hx => by simp, fun x hx => ?_,
          .inl (by simp)⟩
        · rw [Target.losesBuffer_unread _ _ _ _ (by simpa using hb)]
          exact ⟨by simp, by simpa using hb⟩
        · have := hx
          rw [← postedAddress_meets t c rest, ← postedAddress_losesBuffer fresh c r'] at this
          exact this

end Sys2Proof.Machine
end

