-- ==== Sys2Proof/Laws/Conforming.lean ====
section
/-! SUPPORT. What a whole read and a whole write leave when the target answers with a conforming reply: the word, the
result and the target (10_state.md R41 to R55; 60_exceptions.md R259). -/

namespace Sys2Proof.Machine

variable {s : State} {c : Choice} {rest : List Reply} {port : Port} {slot : Slot} {v : Word}

/-! ### Which acknowledgement -/

/-- OK by choice, and no sticky error in the way of an AP access. -/
theorem ackFor_ok {r : RegRef} {t : Target} (ha : c.ack = .ok) (hk : r.port = .ap → t.sticky = false) :
    t.ackFor c r = .ok := by
  unfold Target.ackFor
  rw [if_neg]
  · split
    · rw [ha]
    · exact ha
  · rintro ⟨h1, h2⟩
    rw [hk h1] at h2; cases h2

/-- DPIDR reads still answer (R259). -/
theorem ackFor_dpidr {t : Target} (ha : c.ack = .ok ∨ c.ack = .fault) : t.ackFor c (mkRef .dp .read .a0) = .ok := by
  rcases ha with ha | ha <;> simp [Target.ackFor, mkRef, ha]

/-- ABORT writes still answer (R204, R259). -/
theorem ackFor_abort {t : Target} (ha : c.ack ≠ .noAck) : t.ackFor c (mkRef .dp .write .a0) = .ok := by
  cases h : c.ack <;> simp_all [Target.ackFor, mkRef]

/-- An AP access while a sticky error is set (R259, R307). -/
theorem ackFor_sticky {r : RegRef} {t : Target} (hr : r.port = .ap) (hk : t.sticky = true) : t.ackFor c r = .fault := by
  rw [Target.ackFor, if_pos ⟨hr, hk⟩]

/-- An AP access with none set: the choice. -/
theorem ackFor_ap {r : RegRef} {t : Target} (hr : r.port = .ap) (hk : t.sticky = false) : t.ackFor c r = c.ack := by
  simp [Target.ackFor, hr, hk]

/-! ### Whole transactions -/

/-- A read that a conforming target answers OK (R41, R64, R96). -/
theorem conforming_read (hs : s.target.coming = .conforming c :: rest)
    (hf : (s.target.meets c rest).ackFor c (mkRef port .read slot) = .ok) :
    let t := (s.target.meets c rest).performPosted (Config.freeWord s.draws)
    let w := (t.readWord (Config.freeWord s.draws) c (mkRef port .read slot)).1
    answered s (mkRef port .read slot) = .ok ∧
    (s.readEnds port slot).value = some w ∧
    (s.readEnds port slot).result = some (if c.flipParity then .parity else .ok) ∧
    (s.readEnds port slot).draws = s.draws + 38 ∧
    (s.readEnds port slot).target =
      { (t.readWord (Config.freeWord s.draws) c (mkRef port .read slot)).2 with out := [] } := by
  intro t w
  have ht : (s.targetHears (req (mkRef port .read slot))).target =
      { (t.readWord (Config.freeWord s.draws) c (mkRef port .read slot)).2 with
        out := none :: ackLevels .ok ++ dataLevels w (parity w ^^ c.flipParity) } := by
    rw [State.targetHears_target, Target.hears_conforming _ _ hs, Target.answer, hf]
    rfl
  have ho := congrArg Target.out ht
  have h0 := answered_ack ho
  have hl : (none :: ackLevels .ok ++ dataLevels w (parity w ^^ c.flipParity)).length = 37 := by
    simp [ackLevels, dataLevels_length]
  refine ⟨h0, ?_, ?_, ?_, ?_⟩ <;> rw [readEnds_ok h0]
  · rw [answeredWord_data ho]
  · rw [answeredWord_data ho, answeredParity_data ho]
    unfold readResult
    cases c.flipParity <;> cases parity w <;> rfl
  · rfl
  · simp only [State.afterCycles]
    rw [ht]
    simp only [List.drop_eq_nil_of_le (show _ ≤ 38 by rw [hl]; omega)]

/-- A write that a conforming target answers OK, and the word it takes (R41, R97). -/
theorem conforming_write (hs : s.target.coming = .conforming c :: rest)
    (hf : (s.target.meets c rest).ackFor c (mkRef port .write slot) = .ok) :
    let t := if port = .dp ∧ slot = .a0 then s.target.meets c rest
      else (s.target.meets c rest).performPosted (Config.freeWord s.draws)
    answered s (mkRef port .write slot) = .ok ∧
    (s.writeEnds port slot v).result = some .ok ∧
    (s.writeEnds port slot v).draws = s.draws + 5 + 1 ∧
    (s.writeEnds port slot v).selShadow = (if port = .dp ∧ slot = .a2 then some v else s.selShadow) ∧
    (s.writeEnds port slot v).target =
      Target.takes (Config.freeWord (s.draws + 5)) v (parity v)
        { t.losesBuffer (Config.freeWord s.draws) c (mkRef port .write slot) with
          out := [], taking := some (mkRef port .write slot, c) } := by
  intro t
  have ht : (s.targetHears (req (mkRef port .write slot))).target =
      { t.losesBuffer (Config.freeWord s.draws) c (mkRef port .write slot) with
        out := none :: ackLevels .ok, taking := some (mkRef port .write slot, c) } := by
    rw [State.targetHears_target, Target.hears_conforming _ _ hs, Target.answer, hf]
    rfl
  have h0 : answered s (mkRef port .write slot) = .ok :=
    answered_ack (l := []) (by simpa using congrArg Target.out ht)
  refine ⟨h0, ?_, ?_, ?_, ?_⟩ <;> rw [writeEnds_ok h0]
  · simp
  · simp
  · simp [State.afterCycles, State.shadows_selShadow]
  · simp only [State.shadows_target, takenBy, State.afterCycles]
    rw [ht]
    rfl

/-- A write word whose parity bit arrives right: the write is performed, posted, or has no effect (R41, R67). -/
theorem takes_whole {fresh : Nat → Word} {r : RegRef} {w : Word} {t : Target} (h : t.taking = some (r, c))
    (hf : c.flipParity = false) : t.takes fresh w (parity w) =
      match r.port with
      | .dp => Target.dpWrite fresh r.slot w { t with taking := none }
      | .ap => Target.apTakes fresh c r.slot w { t with taking := none } := by
  cases hp : r.port <;> simp [Target.takes, h, hf, hp]

/-- One whose parity bit arrives wrong: WDATAERR is set and nothing is written, but that a posted write is performed
(R187, R308). -/
theorem takes_broken {fresh : Nat → Word} {r : RegRef} {w : Word} {t : Target} (h : t.taking = some (r, c))
    (hf : c.flipParity = true) : t.takes fresh w (parity w) =
      Target.performPosted fresh { t with taking := none, stat := t.stat ||| 0x80 } := by
  simp [Target.takes, h, hf]

/-- An AP access while a sticky error is set: FAULT, and nothing changes, but that an unread buffer is lost (R259,
R302, R307). -/
theorem conforming_sticky {d : Dir} (hs : s.target.coming = .conforming c :: rest) (hk : s.target.sticky = true) :
    (s.targetHears (req (mkRef .ap d slot))).target =
      { (s.target.meets c rest).losesBuffer (Config.freeWord s.draws) c (mkRef .ap d slot) with
        out := none :: ackLevels .fault } := by
  have hm : (s.target.meets c rest).sticky = true := by simpa using hk
  have hf : (s.target.meets c rest).ackFor c (mkRef .ap d slot) = .fault := ackFor_sticky rfl hm
  rw [State.targetHears_target, Target.hears_conforming _ _ hs, Target.answer, hf]
  simp only [hm, Bool.true_eq_false, and_false, if_false]
  rw [← Target.losesBuffer_stat (Config.freeWord s.draws) (s.target.meets c rest) c (mkRef .ap d slot)]

theorem conforming_read_sticky (hs : s.target.coming = .conforming c :: rest) (hk : s.target.sticky = true) :
    (s.readEnds .ap slot).value = none ∧ (s.readEnds .ap slot).result = some .fault ∧
    (s.readEnds .ap slot).target =
      { (s.target.meets c rest).losesBuffer (Config.freeWord s.draws) c (mkRef .ap .read slot) with out := [] } := by
  have ht := conforming_sticky (d := .read) (slot := slot) hs hk
  have h0 := answered_fault (congrArg Target.out ht)
  have hn : answered s (mkRef .ap .read slot) ≠ .ok := by rw [h0]; simp
  refine ⟨?_, ?_, ?_⟩ <;> rw [readEnds_error hn]
  · rw [h0]; rfl
  · simp only [State.afterCycles]; rw [ht]; rfl

theorem conforming_write_sticky (hs : s.target.coming = .conforming c :: rest) (hk : s.target.sticky = true) :
    (s.writeEnds .ap slot v).result = some .fault ∧
    (s.writeEnds .ap slot v).target =
      { (s.target.meets c rest).losesBuffer (Config.freeWord s.draws) c (mkRef .ap .write slot) with out := [] } := by
  have ht := conforming_sticky (d := .write) (slot := slot) hs hk
  have h0 := answered_fault (congrArg Target.out ht)
  have hn : answered s (mkRef .ap .write slot) ≠ .ok := by rw [h0]; simp
  refine ⟨?_, ?_⟩ <;> rw [writeEnds_error hn]
  · rw [h0]; rfl
  · simp only [State.afterCycles]; rw [ht]; rfl

/-- A WAIT of any target: nothing of it changes but its script (R40, R162). -/
theorem waiting_read (hs : s.target.coming = waitReply :: rest) :
    answered s (mkRef port .read slot) = .wait ∧
    (s.readEnds port slot).value = none ∧ (s.readEnds port slot).result = some .wait ∧
    (s.readEnds port slot).target = { s.target with script := rest, out := [], taking := none } := by
  have ht : (s.targetHears (req (mkRef port .read slot))).target =
      { s.target with script := rest, out := none :: ackLevels .wait, taking := none } := by
    rw [State.targetHears_target, Target.hears_raw _ _ _ hs]
  have h0 := answered_wait (congrArg Target.out ht)
  have hn : answered s (mkRef port .read slot) ≠ .ok := by rw [h0]; simp
  refine ⟨h0, ?_, ?_, ?_⟩ <;> rw [readEnds_error hn]
  · rw [h0]; rfl
  · simp only [State.afterCycles]; rw [ht]; rfl

/-- The wire cycles of a read and of a write (R110). -/
theorem readEnds_cycles (s : State) (port : Port) (slot : Slot) :
    (s.readEnds port slot).trace.length =
      s.trace.length + if answered s (mkRef port .read slot) = .ok then 46 else 13 := by
  by_cases h : answered s (mkRef port .read slot) = .ok
  · rw [readEnds_ok h, if_pos h]; simp [State.afterCycles, headerCycles, releasedCycles, lineLevels, State.levels]
  · rw [readEnds_error h, if_neg h]; simp [State.afterCycles, headerCycles, releasedCycles, lineLevels, State.levels]

theorem writeEnds_cycles (s : State) (port : Port) (slot : Slot) (v : Word) :
    (s.writeEnds port slot v).trace.length =
      s.trace.length + if answered s (mkRef port .write slot) = .ok then 46 else 13 := by
  by_cases h : answered s (mkRef port .write slot) = .ok
  · rw [writeEnds_ok h, if_pos h]
    simp [State.afterCycles, headerCycles, releasedCycles, lineLevels, State.levels, dataCycles]
  · rw [writeEnds_error h, if_neg h]; simp [State.afterCycles, headerCycles, releasedCycles, lineLevels, State.levels]

end Sys2Proof.Machine
end

