-- ==== Sys2Proof/Laws/Frames.lean ====
section
/-! SUPPORT. What taking the word of a write changes of the target, and, from any state, what a whole transaction leaves
of it (`readTransaction_leaves`, `writeTransaction_leaves`, `lineResetTransaction_leaves`). -/

namespace Sys2Proof.Machine

/-- What taking the word of a write of a reference leaves of the target. -/
structure WriteTaken (r : RegRef) (t u : Target) : Prop where
  dpidr  : u.dpidr = t.dpidr
  select : ¬ (r.port = .dp ∧ r.slot = .a2) → u.select = t.select
  cfg    : u.cfg = t.cfg
  base   : u.base = t.base
  idr    : u.idr = t.idr
  again  : u.again = t.again
  buf    : u.buf = t.buf
  resent : u.resent = t.resent
  stat   : r.port = .ap → u.stat &&& 0x57FFFF5F = t.stat &&& 0x57FFFF5F
  statDp : r.port = .dp → r.slot ≠ .a0 → r.slot ≠ .a1 → u.stat &&& 0x57FFFF7F = t.stat &&& 0x57FFFF7F
  csw    : t.posted = none → ¬ (r.port = .ap ∧ r.slot = .a0) → u.csw = t.csw
  tar    : t.posted = none → ¬ (r.port = .ap ∧ (r.slot = .a1 ∨ r.slot = .a3)) → u.tar = t.tar
  byte   : ∀ w x, outside (postedAddress t) x →
    outside (match r.port with
      | .dp => none
      | .ap => storeAddress { select := t.select, slot := r.slot, word := w } t) x →
    u.mem.read x = t.mem.read x

theorem WriteTaken.refl (r : RegRef) (t : Target) : WriteTaken r t t :=
  ⟨rfl, fun _ => rfl, rfl, rfl, rfl, rfl, rfl, rfl, fun _ => rfl, fun _ _ _ => rfl, fun _ _ => rfl, fun _ _ => rfl, fun _ _ _ _ => rfl⟩

theorem storeAddress_word (sel : Word) (slot : Slot) (w w' : Word) (t : Target) :
    storeAddress { select := sel, slot := slot, word := w } t =
      storeAddress { select := sel, slot := slot, word := w' } t := rfl

/-- The register a slot of the banks that name any names. -/
theorem apRegAt_csw {bank : BitVec 4} {slot : Slot} (h : apRegAt bank slot = some .csw) : slot = .a0 := by
  unfold apRegAt at h; cases slot <;> simp at h <;> (try split at h) <;> simp_all

theorem apRegAt_tar {bank : BitVec 4} {slot : Slot} (h : apRegAt bank slot = some .tar) : slot = .a1 := by
  unfold apRegAt at h; cases slot <;> simp at h <;> (try split at h) <;> simp_all

theorem apRegAt_drw {bank : BitVec 4} {slot : Slot} (h : apRegAt bank slot = some .drw) : slot = .a3 := by
  unfold apRegAt at h; cases slot <;> simp at h <;> (try split at h) <;> simp_all

/-- A write of an AP slot that is not CSW's leaves CSW. -/
theorem apWrite_csw (fresh : Nat → Word) (p : PostedWrite) (t : Target) (h : p.slot ≠ .a0) :
    (t.apWrite fresh p).csw = t.csw := by
  unfold Target.apWrite
  split
  · split
    · exact absurd (apRegAt_csw ‹_›) h
    · rfl
    · simp
    all_goals rfl
  · rfl

/-- A write of an AP slot that is neither TAR's nor DRW's leaves TAR. -/
theorem apWrite_tar (fresh : Nat → Word) (p : PostedWrite) (t : Target) (h : p.slot ≠ .a1) (h' : p.slot ≠ .a3) :
    (t.apWrite fresh p).tar = t.tar := by
  unfold Target.apWrite
  split
  · split
    · rfl
    · exact absurd (apRegAt_tar ‹_›) h
    · exact absurd (apRegAt_drw ‹_›) h'
    all_goals rfl
  · rfl

theorem dpWrite_taken (fresh : Nat → Word) (r : RegRef) (hr : r.port = .dp) (w : Word) (t : Target) :
    WriteTaken r t (t.dpWrite fresh r.slot w) := by
  unfold Target.dpWrite
  cases hs : r.slot with
  | a0 =>
    refine ⟨by simp, by simp, by simp, by simp, by simp, by simp, by simp, by simp, by simp [hr], by simp [hr, hs], fun hp _ => ?_, fun hp _ => ?_,
      fun _ x hx _ => ?_⟩
    · rw [Target.performPosted_none _ _ (by simp [hp])]
    · rw [Target.performPosted_none _ _ (by simp [hp])]
    · refine Target.performPosted_read fresh _ x ?_
      unfold postedAddress
      split
      · exact outside_none x
      · rename_i p hp
        simp only at hp
        have e : (if dapAbort w = true then none else t.posted) = some p := hp
        split at e
        · cases e
        · simp only [postedAddress, e] at hx
          exact hx
  | a1 =>
    simp only
    split
    · exact ⟨rfl, by simp, rfl, rfl, rfl, rfl, rfl, rfl, by simp [hr], by simp [hr, hs], fun _ _ => rfl, fun _ _ => rfl,
        fun _ _ _ _ => rfl⟩
    · exact WriteTaken.refl r t
  | a2 => exact ⟨rfl, by simp [hr, hs], rfl, rfl, rfl, rfl, rfl, rfl, by simp, by simp, fun _ _ => rfl, fun _ _ => rfl,
      fun _ _ _ _ => rfl⟩
  | a3 => exact WriteTaken.refl r t

theorem apWrite_taken (fresh : Nat → Word) (r : RegRef) (hr : r.port = .ap) (w : Word) (t : Target) :
    WriteTaken r t (t.apWrite fresh { select := t.select, slot := r.slot, word := w }) :=
  ⟨by simp, by simp, by simp, by simp, by simp, by simp, by simp, by simp, by simp, by simp,
    fun _ h => apWrite_csw _ _ _ (by simpa [hr] using h), fun _ h => apWrite_tar _ _ _ (by
      simp only [hr, true_and, not_or] at h; exact h.1) (by simp only [hr, true_and, not_or] at h; exact h.2),
    fun v x _ hx => Target.apWrite_read fresh _ t x (by simp only [hr] at hx; rwa [storeAddress_word _ _ _ v])⟩

theorem apTakes_taken (fresh : Nat → Word) (c : Choice) (r : RegRef) (hr : r.port = .ap) (w : Word) (t : Target) :
    WriteTaken r t (t.apTakes fresh c r.slot w) := by
  unfold Target.apTakes
  split
  · split
    · exact ⟨rfl, fun _ => rfl, rfl, rfl, rfl, rfl, rfl, rfl, fun _ => rfl, fun _ _ _ => rfl, fun _ _ => rfl, fun _ _ => rfl,
        fun _ _ _ _ => rfl⟩
    · exact apWrite_taken fresh r hr w t
  · exact WriteTaken.refl r t

/-- A target that takes nothing, or the word of this reference. -/
theorem Target.takes_taken (fresh : Nat → Word) (r : RegRef) (w : Word) (b : Bool) (t : Target)
    (h : t.taking = none ∨ ∃ c, t.taking = some (r, c)) : WriteTaken r t (t.takes fresh w b) := by
  unfold Target.takes
  rcases h with h | ⟨c, h⟩ <;> simp only [h]
  · exact WriteTaken.refl r t
  · have go : ∀ u, WriteTaken r { t with taking := none } u → WriteTaken r t u := fun u h =>
      ⟨h.dpidr, h.select, h.cfg, h.base, h.idr, h.again, h.buf, h.resent, h.stat, h.statDp, h.csw, h.tar, h.byte⟩
    split
    · cases hp : r.port with
      | dp => exact go _ (dpWrite_taken fresh r hp w { t with taking := none })
      | ap => exact go _ (apTakes_taken fresh c r hp w { t with taking := none })
    · refine ⟨by simp, by simp, by simp, by simp, by simp, by simp, by simp, by simp, fun _ => ?_, fun _ _ _ => ?_,
        fun hp _ => ?_, fun hp _ => ?_, fun _ x hx _ => Target.performPosted_read _ _ x hx⟩
      · rw [Target.performPosted_stat]; exact or_outside _ _ _ (by decide)
      · rw [Target.performPosted_stat]; exact or_outside _ _ _ (by decide)
      · rw [Target.performPosted_none _ _ (by simpa using hp)]
      · rw [Target.performPosted_none _ _ (by simpa using hp)]

/-- What a whole write transaction leaves of the target. -/
structure WriteLeaves (r : RegRef) (store : Option Nat) (t u : Target) : Prop where
  dpidr  : u.dpidr = t.dpidr
  select : ¬ (r.port = .dp ∧ r.slot = .a2) → u.select = t.select
  cfg    : u.cfg = t.cfg
  base   : u.base = t.base
  idr    : u.idr = t.idr
  again  : u.again = t.again
  buf    : t.unread = false → u.buf = t.buf
  resent : u.resent = t.resent
  stat   : r.port = .ap → u.stat &&& 0x57FFFF5F = t.stat &&& 0x57FFFF5F
  statDp : r.port = .dp → r.slot ≠ .a0 → r.slot ≠ .a1 → u.stat &&& 0x57FFFF7F = t.stat &&& 0x57FFFF7F
  csw    : t.posted = none → ¬ (r.port = .ap ∧ r.slot = .a0) → u.csw = t.csw
  tar    : t.posted = none → ¬ (r.port = .ap ∧ (r.slot = .a1 ∨ r.slot = .a3)) → u.tar = t.tar
  byte   : ∀ x, outside (postedAddress t) x → outside store x → u.mem.read x = t.mem.read x

theorem WriteLeaves.blind (r : RegRef) (o : Option Nat) (t : Target) : Blind (WriteLeaves r o t) := fun _ _ h =>
  ⟨h.dpidr, h.select, h.cfg, h.base, h.idr, h.again, h.buf, h.resent, h.stat, h.statDp, h.csw, h.tar, h.byte⟩

theorem WriteLeaves.refl (r : RegRef) (o : Option Nat) (t : Target) : WriteLeaves r o t t :=
  ⟨rfl, fun _ => rfl, rfl, rfl, rfl, rfl, fun _ => rfl, rfl, fun _ => rfl, fun _ _ _ => rfl, fun _ _ => rfl, fun _ _ => rfl, fun _ _ _ => rfl⟩

theorem stat_weaken {x y : Word} (h : x &&& 0x57FFFFDF = y &&& 0x57FFFFDF) :
    x &&& 0x57FFFF5F = y &&& 0x57FFFF5F := by
  have := congrArg (· &&& (0x57FFFF5F : Word)) h
  simpa [BitVec.and_assoc] using this

theorem stat_weaken' {x y : Word} (h : x &&& 0x57FFFFFF = y &&& 0x57FFFFFF) :
    x &&& 0x57FFFF7F = y &&& 0x57FFFF7F := by
  have := congrArg (· &&& (0x57FFFF7F : Word)) h
  simpa [BitVec.and_assoc] using this

theorem WriteHeard.leaves {r : RegRef} {o : Option Nat} {t u : Target} (h : WriteHeard r t u) :
    WriteLeaves r o t u :=
  ⟨h.dpidr, fun _ => h.select, h.cfg, h.base, h.idr, h.again, fun hb => (h.buf hb).1, h.resent, fun _ => stat_weaken h.stat,
    fun hp _ _ => stat_weaken' (h.statDp hp),
    fun hp _ => (h.prompt hp).2.1, fun hp _ => (h.prompt hp).2.2, fun x hx _ => h.byte x hx⟩

theorem WriteHeard.taken {r : RegRef} {t u v : Target} (h : WriteHeard r t u) (k : WriteTaken r u v) (w : Word) :
    WriteLeaves r (match r.port with
      | .dp => none
      | .ap => storeAddress { select := u.select, slot := r.slot, word := w } u) t v :=
  ⟨k.dpidr.trans h.dpidr, fun hs => (k.select hs).trans h.select, k.cfg.trans h.cfg, k.base.trans h.base,
    k.idr.trans h.idr, k.again.trans h.again, fun hb => k.buf.trans (h.buf hb).1, k.resent.trans h.resent, fun hs => (k.stat hs).trans (stat_weaken h.stat),
    fun hp h0 h1 => (k.statDp hp h0 h1).trans (stat_weaken' (h.statDp hp)),
    fun hp hs => (k.csw (h.prompt hp).1 hs).trans (h.prompt hp).2.1,
    fun hp hs => (k.tar (h.prompt hp).1 hs).trans (h.prompt hp).2.2,
    fun x hx hx' => (k.byte w x (h.posted x hx) hx').trans (h.byte x hx)⟩

/-- A whole read, from any state, whether it ends or waits. -/
theorem readTransaction_leaves (p : Params) (port : Port) (slot : Slot) (s : State) :
    (readTransaction p port slot s).Ends (fun t => ReadsOnly (mkRef port .read slot) s.target t.target)
      fun t => ReadsOnly (mkRef port .read slot) s.target t.target :=
  by
  have h : ReadsOnly (mkRef port .read slot) s.target (s.targetHears (req (mkRef port .read slot))).target := by
    rw [State.targetHears_target]; exact Target.hears_reads _ _ rfl _
  exact readTransaction_target (ReadsOnly.blind (mkRef port .read slot) s.target) p port slot s (ReadsOnly.refl _ _) h

/-- A whole line reset, from any state: a read of DPIDR. -/
theorem lineResetTransaction_leaves (p : Params) (s : State) :
    (lineResetTransaction p s).Ends (fun t => ReadsOnly (mkRef .dp .read .a0) s.target t.target)
      fun t => ReadsOnly (mkRef .dp .read .a0) s.target t.target :=
  by
  have h : ReadsOnly (mkRef .dp .read .a0) s.target (s.targetHears (req (mkRef .dp .read .a0))).target := by
    rw [State.targetHears_target]; exact Target.hears_reads _ _ rfl _
  exact lineResetTransaction_target (ReadsOnly.blind (mkRef .dp .read .a0) s.target) p s (ReadsOnly.refl _ _) h

/-- A whole write, from any state, whether it ends or waits. -/
theorem writeTransaction_leaves (p : Params) (port : Port) (slot : Slot) (v : Word) (s : State) :
    (writeTransaction p port slot v s).Ends
      (fun t => WriteLeaves (mkRef port .write slot) (writeAddress s port slot v) s.target t.target)
      fun t => WriteLeaves (mkRef port .write slot) (writeAddress s port slot v) s.target t.target := by
  have hh := Target.hears_writes (Config.freeWord s.draws) (mkRef port .write slot) rfl s.target
  refine writeTransaction_target (WriteLeaves.blind _ _ _) p port slot v s (WriteLeaves.refl _ _ _) hh.leaves ?_
  intro t fresh w b _ he
  have e : ∀ {α : Type} (f : Target → α), f { t with out := [] } =
      f { (s.targetHears (req (mkRef port .write slot))).target with out := [] } := fun f => congrArg f he
  have h1 := e Target.select
  have h2 := e Target.tar
  have h3 := e Target.posted
  have hpa : postedAddress t = postedAddress (s.targetHears (req (mkRef port .write slot))).target := e postedAddress
  have h' : WriteHeard (mkRef port .write slot) s.target t :=
    ⟨(e Target.dpidr).trans hh.dpidr, h1.trans hh.select, (e Target.cfg).trans hh.cfg, (e Target.base).trans hh.base,
      (e Target.idr).trans hh.idr, (e Target.again).trans hh.again,
      fun hb => ⟨(e Target.buf).trans (hh.buf hb).1, (e Target.unread).trans (hh.buf hb).2⟩, (e Target.resent).trans hh.resent,
      (e fun t => t.stat &&& 0x57FFFFDF).trans hh.stat,
      fun hp => (e fun t => t.stat &&& 0x57FFFFFF).trans (hh.statDp hp),
      fun hp => ⟨h3.trans (hh.prompt hp).1, (e Target.csw).trans (hh.prompt hp).2.1, h2.trans (hh.prompt hp).2.2⟩,
      fun x hx => (e fun t => t.mem.read x).trans (hh.byte x hx), fun x hx => by rw [hpa]; exact hh.posted x hx,
      by rw [show t.taking = _ from e Target.taking]; exact hh.taking⟩
  have ha : writeAddress s port slot v = (match (mkRef port .write slot).port with
      | .dp => none
      | .ap => storeAddress { select := t.select, slot := (mkRef port .write slot).slot, word := v } t) := by
    cases port
    · rfl
    · exact (e fun t => storeAddress { select := t.select, slot := slot, word := v } t).symm
  rw [ha]
  exact h'.taken (Target.takes_taken fresh _ w b t h'.taking) v

/-! ### The same of the caller's calls and of a step of `dp_init` -/

theorem callRead_leaves {port : Port} {slot : Slot} {s t : State} (e : callRead port slot s = .next t) :
    ReadsOnly (mkRef port .read slot) s.target t.target := by
  obtain ⟨-, -, e⟩ := callOnWire_next e
  have k := (readTransaction_leaves Config.hw port slot s).andThen (f := fun s => .done s.reports)
    (P := fun t => ReadsOnly (mkRef port .read slot) s.target t.target) fun u hu => by simpa using hu
  exact (k.next e).elim id id

theorem callWrite_leaves {port : Port} {slot : Slot} {v : Word} {s t : State} (e : callWrite port slot v s = .next t) :
    WriteLeaves (mkRef port .write slot) (writeAddress s port slot v) s.target t.target := by
  obtain ⟨-, -, e⟩ := callOnWire_next e
  have k := (writeTransaction_leaves Config.hw port slot v s).andThen (f := fun s => .done s.reports)
    (P := fun t => WriteLeaves (mkRef port .write slot) (writeAddress s port slot v) s.target t.target)
    fun u hu => by simpa using hu
  exact (k.next e).elim id id

theorem execLineReset_leaves {s t : State} (e : execLineReset s = .next t) :
    ReadsOnly (mkRef .dp .read .a0) s.target t.target := by
  obtain ⟨-, -, e⟩ := callOnWire_next e
  have k := (lineResetTransaction_leaves Config.hw s).andThen (f := fun s => .done s.reports)
    (P := fun t => ReadsOnly (mkRef .dp .read .a0) s.target t.target) fun u hu => by simpa using hu
  exact (k.next e).elim id id

/-- An `RDAP` is one read of the target or two (R107). -/
theorem execRdap_leaves {ref : RegRef} {s t : State} (e : execRdap ref s = .next t) :
    ReadsOnly (mkRef .ap .read ref.slot) s.target t.target ∨
    ∃ u, ReadsOnly (mkRef .ap .read ref.slot) s.target u ∧ ReadsOnly (mkRef .dp .read .a3) u t.target := by
  obtain ⟨-, -, e⟩ := callOnWire_next e
  have k : (rdapTransactions Config.hw ref.slot s).Ends
      (fun t => ReadsOnly (mkRef .ap .read ref.slot) s.target t.target ∨
        ∃ u, ReadsOnly (mkRef .ap .read ref.slot) s.target u ∧ ReadsOnly (mkRef .dp .read .a3) u t.target)
      (fun t => ReadsOnly (mkRef .ap .read ref.slot) s.target t.target ∨
        ∃ u, ReadsOnly (mkRef .ap .read ref.slot) s.target u ∧ ReadsOnly (mkRef .dp .read .a3) u t.target) := by
    unfold rdapTransactions
    refine ((readTransaction_leaves Config.hw .ap ref.slot s).mono (fun _ h => h) fun _ h => .inl h).andThen
      fun u hu => ?_
    unfold withResult
    split
    · beta_reduce
      split
      · refine ((readTransaction_leaves Config.hw .dp .a3 u.reports).mono (fun _ h => h)
          fun _ h => .inr ⟨u.target, hu, h⟩).andThen fun v hv => ?_
        exact .inr ⟨u.target, hu, hv⟩
      all_goals exact .inl hu
    · trivial
  exact (k.next e).elim id id

/-- What a step of `dp_init` leaves of the target. -/
structure InitLeaves (t u : Target) : Prop where
  dpidr  : u.dpidr = t.dpidr
  cfg    : u.cfg = t.cfg
  base   : u.base = t.base
  idr    : u.idr = t.idr
  byte   : ∀ x, outside (postedAddress t) x → u.mem.read x = t.mem.read x

theorem ReadsOnly.initLeaves {r : RegRef} {t u : Target} (h : ReadsOnly r t u) : InitLeaves t u :=
  ⟨h.dpidr, h.cfg, h.base, h.idr, h.byte⟩

theorem writeAddress_none (s : State) (port : Port) (slot : Slot) (v : Word) (h : port = .dp ∨ slot = .a0) :
    writeAddress s port slot v = none := by
  unfold writeAddress
  cases port with
  | dp => rfl
  | ap =>
    simp only [reduceCtorEq, false_or] at h
    simp only [storeAddress, h]
    rw [if_neg]
    rintro ⟨-, h⟩
    exact absurd (apRegAt_drw h) (by simp)

theorem initAdvance_target (u : State) : (initAdvance u).Ends (fun t => t.target = u.target) fun _ => False := by
  unfold initAdvance withResult
  split
  · beta_reduce
    split
    · split
      · unfold withValue; split
        · unfold State.takesIdr; split <;> rfl
        · trivial
      · rfl
    all_goals rfl
  · trivial

theorem initStep_leaves (p : Params) (s : State) :
    (initStep p s).Ends (fun t => InitLeaves s.target t.target) fun t => InitLeaves s.target t.target := by
  have adv : ∀ {r : Run}, r.Ends (fun t => InitLeaves s.target t.target) (fun t => InitLeaves s.target t.target) →
      (r.andThen initAdvance).Ends (fun t => InitLeaves s.target t.target) fun t => InitLeaves s.target t.target :=
    fun h => h.andThen fun u hu => (initAdvance_target u).mono (fun t ht => by rw [ht]; exact hu) fun _ h => h.elim
  have rd := fun port slot => adv ((readTransaction_leaves p port slot s).mono (fun _ h => h.initLeaves)
    fun _ h => h.initLeaves)
  have wr : ∀ port slot v, port = .dp ∨ slot = .a0 → ((writeTransaction p port slot v s).andThen initAdvance).Ends
      (fun t => InitLeaves s.target t.target) fun t => InitLeaves s.target t.target := fun port slot v h => by
    have go : ∀ u : Target, WriteLeaves (mkRef port .write slot) (writeAddress s port slot v) s.target u →
        InitLeaves s.target u := fun u k =>
      ⟨k.dpidr, k.cfg, k.base, k.idr, fun x hx => k.byte x hx (by
        rw [writeAddress_none s port slot v h]; exact outside_none x)⟩
    exact adv ((writeTransaction_leaves p port slot v s).mono (fun t h => go _ h) fun t h => go _ h)
  have same : ∀ t : Target, t = s.target → InitLeaves s.target t := fun t h => by
    subst h; exact ⟨rfl, rfl, rfl, rfl, fun _ _ => rfl⟩
  unfold initStep
  split
  · exact same _ rfl
  · exact adv ((lineResetTransaction_leaves p s).mono (fun _ h => h.initLeaves) fun _ h => h.initLeaves)
  · exact wr _ _ _ (.inl rfl)
  · exact rd _ _
  · unfold withValue; split
    · exact wr _ _ _ (.inl rfl)
    · trivial
  · exact rd _ _
  · exact rd _ _
  · exact wr _ _ _ (.inl rfl)
  · exact rd _ _
  · exact rd _ _
  · unfold withValue; split
    · exact wr _ _ _ (.inr rfl)
    · trivial
  · exact rd _ _
  · unfold withValue; split
    · exact wr _ _ _ (.inl rfl)
    · trivial
  · exact same _ rfl
  · exact same _ rfl

end Sys2Proof.Machine
end

