-- ==== Sys2Proof/Laws/PerInstr.lean ====
section
/-! SUPPORT. One statement an operation as syntax: the first byte of the call word of a well-formed operation has the
bits that its row of spec/opcode_table.json fixes. One lemma a constructor. -/

namespace Sys2Proof.Laws.TableBits

/-- The match and the mask of the row of an operation, copied from spec/opcode_table.json; none for the three rows that
put nothing on the wire. -/
def row (i : Instr) : Option (Header × Header) :=
  match i with
  | .rdDpDpidr => some (0xA5, 0xFF)
  | .rdDpStat => some (0x8D, 0xFF)
  | .rdDpResend => some (0x95, 0xFF)
  | .rdDpRdbuff => some (0xBD, 0xFF)
  | .wrDpAbort _ => some (0x81, 0xFF)
  | .wrDpStat _ => some (0xA9, 0xFF)
  | .wrDpSelect _ => some (0xB1, 0xFF)
  | .wrDpA3 _ => some (0x99, 0xFF)
  | .rdApA0 => some (0x87, 0xFF)
  | .rdApA1 => some (0xAF, 0xFF)
  | .rdApA2 => some (0xB7, 0xFF)
  | .rdApA3 => some (0x9F, 0xFF)
  | .wrApA0 _ => some (0xA3, 0xFF)
  | .wrApA1 _ => some (0x8B, 0xFF)
  | .wrApA2 _ => some (0x93, 0xFF)
  | .wrApA3 _ => some (0xBB, 0xFF)
  | .rdRef _ => some (0x85, 0xC5)
  | .wrRef _ _ => some (0x81, 0xC5)
  | .lineReset => some (0xFF, 0xFF)
  | .rdap _ => some (0x87, 0xC7)
  | .dpInit => some (0xFF, 0xFF)
  | .init => none
  | .engage => none
  | .disengage => none

/-- The first byte of the call word has the bits the row fixes. -/
def Statement (i : Instr) : Prop :=
  WellFormed i → ∀ m, row i = some m → CallWord.first (encode i) &&& m.2 = m.1

theorem fixed {i : Instr} {first : Header} {form : Form} {v : Word} {m : Header × Header}
    (he : encode i = callWord first form v) (hm : row i = some m) (h : first &&& m.2 = m.1) : Statement i := by
  intro _ n hn
  rw [hm] at hn
  cases hn
  rw [he, first_callWord]
  exact h

theorem rdDpDpidr : Statement .rdDpDpidr := fixed rfl rfl (by decide)
theorem rdDpStat : Statement .rdDpStat := fixed rfl rfl (by decide)
theorem rdDpResend : Statement .rdDpResend := fixed rfl rfl (by decide)
theorem rdDpRdbuff : Statement .rdDpRdbuff := fixed rfl rfl (by decide)
theorem wrDpAbort (v : Word) : Statement (.wrDpAbort v) := fixed rfl rfl (by decide)
theorem wrDpStat (v : Word) : Statement (.wrDpStat v) := fixed rfl rfl (by decide)
theorem wrDpSelect (v : Word) : Statement (.wrDpSelect v) := fixed rfl rfl (by decide)
theorem wrDpA3 (v : Word) : Statement (.wrDpA3 v) := fixed rfl rfl (by decide)
theorem rdApA0 : Statement .rdApA0 := fixed rfl rfl (by decide)
theorem rdApA1 : Statement .rdApA1 := fixed rfl rfl (by decide)
theorem rdApA2 : Statement .rdApA2 := fixed rfl rfl (by decide)
theorem rdApA3 : Statement .rdApA3 := fixed rfl rfl (by decide)
theorem wrApA0 (v : Word) : Statement (.wrApA0 v) := fixed rfl rfl (by decide)
theorem wrApA1 (v : Word) : Statement (.wrApA1 v) := fixed rfl rfl (by decide)
theorem wrApA2 (v : Word) : Statement (.wrApA2 v) := fixed rfl rfl (by decide)
theorem wrApA3 (v : Word) : Statement (.wrApA3 v) := fixed rfl rfl (by decide)

theorem rdRef (ref : RegRef) : Statement (.rdRef ref) := by
  obtain ⟨p, d, a⟩ := ref
  intro hw
  exact fixed (first := req ⟨p, d, a⟩) rfl rfl (by
    have : d = .read := by simpa [WellFormed, Instr.illFormed] using hw
    subst this
    cases p <;> cases a <;> decide) hw

theorem wrRef (ref : RegRef) (v : Word) : Statement (.wrRef ref v) := by
  obtain ⟨p, d, a⟩ := ref
  intro hw
  exact fixed (first := req ⟨p, d, a⟩) rfl rfl (by
    have : d = .write := by simpa [WellFormed, Instr.illFormed] using hw
    subst this
    cases p <;> cases a <;> decide) hw

theorem lineReset : Statement .lineReset := fixed rfl rfl (by decide)

theorem rdap (ref : RegRef) : Statement (.rdap ref) := by
  obtain ⟨p, d, a⟩ := ref
  intro hw
  exact fixed (first := req ⟨p, d, a⟩) rfl rfl (by
    cases p <;> cases d <;> simp [WellFormed, Instr.illFormed] at hw
    cases a <;> decide) hw

theorem dpInit : Statement .dpInit := fixed rfl rfl (by decide)
theorem init : Statement .init := fun _ _ h => by cases h
theorem engage : Statement .engage := fun _ _ h => by cases h
theorem disengage : Statement .disengage := fun _ _ h => by cases h

end Sys2Proof.Laws.TableBits
end

