-- ==== Sys2Proof/Tests/Slice0.lean ====
section
/-! SUPPORT. The author's own tests: the checks of `WellFormed`, decoding, the operation syntax, one step of each
operation on a small state, and for every statement with hypotheses a theorem `meets_…` with a state that meets them
(each clause at the ends of its range). Expected values are those of spec/95_test_vectors.md, by section, unless a
comment names a rule. -/

namespace Sys2Proof.Tests

open Sys2Proof Sys2Proof.Machine

/-! ### The checks of `WellFormed` refuse (R106, R107, R176, R185) -/

theorem test_rd_of_a_write_reference : (Instr.rdRef (mkRef .dp .write .a0)).illFormed = some .readNeedsReadRef := by
  decide

theorem test_wr_of_a_read_reference : (Instr.wrRef (mkRef .ap .read .a3) 0).illFormed = some .writeNeedsWriteRef := by
  decide

theorem test_rdap_of_a_write_reference :
    (Instr.rdap (mkRef .ap .write .a3)).illFormed = some .rdapNeedsReadRef := by decide

theorem test_rdap_of_a_dp_reference : (Instr.rdap (mkRef .dp .read .a3)).illFormed = some .rdapNeedsApRef := by decide

/-! ### Decoding: a word of each constructor, written out from the bytes of R93 and R100 -/

theorem test_decode_dp_reads :
    decode 0x0000000000A5 = .ok .rdDpDpidr ∧ decode 0x00000000008D = .ok .rdDpStat ∧
    decode 0x000000000095 = .ok .rdDpResend ∧ decode 0x0000000000BD = .ok .rdDpRdbuff := by decide

theorem test_decode_dp_writes :
    decode 0x0000001E0081 = .ok (.wrDpAbort 0x1E) ∧ decode 0x5000000000A9 = .ok (.wrDpStat 0x50000000) ∧
    decode 0x000000F000B1 = .ok (.wrDpSelect 0xF0) ∧ decode 0xFFFFFFFF0099 = .ok (.wrDpA3 0xFFFFFFFF) := by decide

theorem test_decode_ap_reads :
    decode 0x000000000087 = .ok .rdApA0 ∧ decode 0x0000000000AF = .ok .rdApA1 ∧
    decode 0x0000000000B7 = .ok .rdApA2 ∧ decode 0x00000000009F = .ok .rdApA3 := by decide

theorem test_decode_ap_writes :
    decode 0x2300000200A3 = .ok (.wrApA0 0x23000002) ∧ decode 0x20000000008B = .ok (.wrApA1 0x20000000) ∧
    decode 0x000000000093 = .ok (.wrApA2 0) ∧ decode 0xDEADBEEF00BB = .ok (.wrApA3 0xDEADBEEF) := by decide

theorem test_decode_general_and_sequences :
    decode 0x0000000001B7 = .ok (.rdRef (mkRef .ap .read .a2)) ∧
    decode 0x123456780199 = .ok (.wrRef (mkRef .dp .write .a3) 0x12345678) ∧
    decode 0x0000000000FF = .ok .lineReset ∧ decode 0x0000000002AF = .ok (.rdap (mkRef .ap .read .a1)) ∧
    decode 0x0000000003FF = .ok .dpInit ∧ decode 0x000000000400 = .ok .init ∧
    decode 0x000000000500 = .ok .engage ∧ decode 0x000000000600 = .ok .disengage := by decide

/-- R108: Start, Parity, Stop and Park wrong in turn; a read with an operand; an RDAP of a write; no form. -/
theorem test_decode_refuses :
    decode 0x0000000000A4 = .error .noSuchHeader ∧ decode 0x000000000085 = .error .noSuchHeader ∧
    decode 0x0000000000E5 = .error .noSuchHeader ∧ decode 0x000000000025 = .error .noSuchHeader ∧
    decode 0x0000000100A5 = .error .strayOperand ∧ decode 0x0000000002BB = .error .noSuchForm ∧
    decode 0x0000000007A5 = .error .noSuchForm := by decide

theorem test_decode_table_words :
    decodeTableWord 8 0xA5 = some .rdDpDpidr ∧ decodeTableWord 8 0xBB = some (.wrApA3 0) ∧
    decodeTableWord 8 0xFF = some .lineReset := by decide

/-! ### The operation syntax (R106) -/

theorem test_syntax_reads :
    assemble "RD DP.DPIDR".toList = some .rdDpDpidr ∧ assemble "RD DP.RDBUFF".toList = some .rdDpRdbuff ∧
    assemble "RD AP.BASE".toList = some .rdApA2 ∧ assemble "RDAP AP.IDR".toList = some (.rdap (mkRef .ap .read .a3)) := by
  decide

theorem test_syntax_writes :
    assemble "WR DP.SELECT, 0xF0".toList = some (.wrDpSelect 0xF0) ∧
    assemble "WR AP.TAR,0x20000000".toList = some (.wrApA1 0x20000000) ∧
    assemble "WR DP.A3, 0xffffffff".toList = some (.wrDpA3 0xFFFFFFFF) := by decide

/-- A name in the direction where it is not legal, nine digits, none, and a slot that is none. -/
theorem test_syntax_refuses :
    assemble "WR DP.DPIDR, 0x0".toList = none ∧ assemble "RD DP.ABORT".toList = none ∧
    assemble "RD DP.SELECT".toList = none ∧ assemble "WR DP.RESEND, 0x0".toList = none ∧
    assemble "WR AP.DRW, 0x123456789".toList = none ∧ assemble "WR AP.DRW, 0x".toList = none ∧
    assemble "RD AP.A4".toList = none ∧ assemble "RDAP DP.DPIDR".toList = none := by decide

/-! ### States -/

/-- A reply of the conforming target. -/
def replies (a : AckCode) (flip : Bool) : Reply :=
  .conforming
    { ack := a, flipParity := flip, powerAck := true, post := false, unpowered := true, dropsUnread := false }

/-- The reference target RT after `DPINIT` (section 2.10): SELECT 0, requests acknowledged, buffer = CSW. -/
def rt (script : List Reply) : Target :=
  { Target.reset with
    script := script, dpidr := 0x0BB11477, stat := 0xF0000000, buf := 0x23000002, resent := 0x23000002
    csw := 0x23000002, base := 0xE00FF003, idr := 0x04770021 }

/-- An engaged, idle engine and RT, which will answer with these replies. -/
def idle (script : List Reply) : State := { State.reset with phase := .engaged, target := rt script }

/-- RT answers OK. -/
def ok : State := idle [replies .ok false]

/-- RT answers OK, its SELECT naming bank 0xF. -/
def bank15 : State :=
  { ok with target := { ok.target with select := 0x000000F0 } }

/-- In `dp_init`, in a given state of it. -/
def inInit (i : InitState) (script : List Reply) : State :=
  { idle script with seq := [.dpInit], initState := i, value := some 0x50000000 }

/-- What a next state holds. -/
def after {α : Type} (o : Host.Outcome State Fault Refusal) (f : State → α) : Option α :=
  match o with
  | .next s => some (f s)
  | .fault _ | .refused _ => none

/-- The reason of a refusal. -/
def refusal (o : Host.Outcome State Fault Refusal) : Option Refusal :=
  match o with
  | .refused e => some e
  | .next _ | .fault _ => none

/-- Value, result and cycles. -/
def ends (s : State) : Option Word × Option Result × Nat := (s.value, s.result, s.trace.length)

theorem ready_idle (script : List Reply) : ReadyIdle (idle script) := ⟨⟨rfl, rfl, rfl, rfl⟩, rfl⟩

theorem ready_bank15 : ReadyIdle bank15 := ⟨⟨rfl, rfl, rfl, rfl⟩, rfl⟩

theorem ready_inInit (i : InitState) (script : List Reply) : ReadyInit (inInit i script) := ⟨⟨rfl, rfl, rfl, rfl⟩, rfl⟩

/-! ### One step of each operation (section 2.10) -/

theorem test_rd_dpidr : after (exec .rdDpDpidr ok) ends = some (some 0x0BB11477, some .ok, 46) := by decide

theorem test_rd_stat : after (exec .rdDpStat ok) ends = some (some 0xF0000000, some .ok, 46) := by decide

theorem test_rd_resend : after (exec .rdDpResend ok) ends = some (some 0x23000002, some .ok, 46) := by decide

theorem test_rd_rdbuff : after (exec .rdDpRdbuff ok) ends = some (some 0x23000002, some .ok, 46) := by decide

/-- Frames 0x01E, 0x000, 0x000: the word and its parity bit on the wire. -/
theorem test_wr_abort : after (exec (.wrDpAbort 0x1E) ok) (fun s => s.trace.drop 13) =
    some ([false, true, true, true, true].map Cycle.h ++ List.replicate 28 (Cycle.h false)) := by decide

theorem test_wr_stat : after (exec (.wrDpStat 0x50000000) ok) (fun s => (ends s, s.target.stat)) =
    some ((none, some .ok, 46), 0x50000000 ||| 0xA0000000) := by decide

theorem test_wr_select : after (exec (.wrDpSelect 0xF0) ok) (fun s => (ends s, s.selShadow, s.target.select)) =
    some ((none, some .ok, 46), some 0x000000F0, 0x000000F0) := by decide

theorem test_wr_dp_a3 : after (exec (.wrDpA3 0) ok) (fun s => (ends s, s.selShadow)) =
    some ((none, some .ok, 46), none) := by decide

theorem test_rd_ap_a0 : after (exec .rdApA0 ok) (fun s => (ends s, s.target.buf)) =
    some ((some 0x23000002, some .ok, 46), 0x23000002) := by decide

theorem test_rd_ap_a1 : after (exec .rdApA1 ok) (fun s => (ends s, s.target.buf)) =
    some ((some 0x23000002, some .ok, 46), 0) := by decide

theorem test_rd_ap_a2 : after (exec .rdApA2 bank15) (fun s => (ends s, s.target.buf)) =
    some ((some 0x23000002, some .ok, 46), 0xE00FF003) := by decide

theorem test_rd_ap_a3 : after (exec .rdApA3 bank15) (fun s => (ends s, s.target.buf)) =
    some ((some 0x23000002, some .ok, 46), 0x04770021) := by decide

theorem test_wr_ap_a0 : after (exec (.wrApA0 0x23000002) ok) (fun s => (ends s, s.target.csw)) =
    some ((none, some .ok, 46), 0x23000002) := by decide

theorem test_wr_ap_a1 : after (exec (.wrApA1 0x20000000) ok) (fun s => (ends s, s.target.tar)) =
    some ((none, some .ok, 46), 0x20000000) := by decide

theorem test_wr_ap_a2 : after (exec (.wrApA2 0) ok) ends = some (none, some .ok, 46) := by decide

/-- `mem[TAR] <- 0xDEADBEEF`, TAR = 0. -/
theorem test_wr_ap_a3 : after (exec (.wrApA3 0xDEADBEEF) ok) (fun s => (ends s, s.target.mem.readWord false 0)) =
    some ((none, some .ok, 46), 0xDEADBEEF) := by decide

/-- Section 1.5: the parity bit flipped. -/
theorem test_rd_ref_parity : after (exec (.rdRef (mkRef .dp .read .a0)) (idle [replies .ok true])) ends =
    some (some 0x0BB11477, some .parity, 46) := by decide

/-- Section 2.4: the acknowledgement WAIT. -/
theorem test_rd_ref_wait : after (exec (.rdRef (mkRef .ap .read .a1)) (idle [replies .wait false])) ends =
    some (none, some .wait, 13) := by decide

/-- Section 2.6: frames 0x678, 0x68A, 0x448 for 0x12345678. -/
theorem test_wr_ref : after (exec (.wrRef (mkRef .dp .write .a3) 0x12345678) ok) (fun s => s.trace.drop 13) =
    some ((bitsOf 11 0x678 ++ bitsOf 11 0x68A ++ bitsOf 11 0x448).map Cycle.h) := by decide

/-- Section 2.3: the acknowledgement 0b111 on the line. -/
theorem test_wr_ref_no_ack :
    after (exec (.wrRef (mkRef .dp .write .a2) 0xF0) (idle [.raw (List.replicate 5 (some true))]))
      (fun s => (ends s, s.selShadow)) = some ((none, some .noAck, 13), none) := by decide

/-- Section 2.8: `LINERESET` against RT. -/
theorem test_line_reset : after (exec .lineReset ok) ends = some (some 0x0BB11477, some .ok, 374) := by decide +kernel

/-- Section 2.8: `LINERESET`, FAULT. -/
theorem test_line_reset_fault : after (exec .lineReset (idle [.raw (none :: ackLevels .fault)])) ends =
    some (none, some .fault, 341) := by decide +kernel

/-- R302: an AP read leaves a word unread, the RDBUFF read takes it. -/
theorem test_buffer_unread : after (exec .rdApA0 ok) (fun s => s.target.unread) = some true ∧
    after (exec .rdDpRdbuff { ok with target := { ok.target with unread := true } })
      (fun s => (s.value, s.target.buf, s.target.unread)) = some (some 0x23000002, 0x23000002, false) := by decide

/-- R72: a STAT read has no side effect on an unread word. R302: a RESEND read has. -/
theorem test_buffer_spared :
    let s := { ok with target := { ok.target with unread := true } }
    after (exec .rdDpStat s) (fun s => (s.target.buf, s.target.unread)) = some (0x23000002, true) ∧
    after (exec .rdDpResend s) (fun s => s.target.unread) = some false := by decide

/-- R187: a parity error in write data is reported by the target's own state, never in the write's result. -/
theorem test_write_parity_error : after (exec (.wrApA0 0x23000012) (idle [replies .ok true]))
    (fun s => (s.result, s.target.stat, s.target.csw)) = some (some .ok, 0xF0000080, 0x23000002) := by decide

/-- R134, R136: waits without end after the cycles: no sample yet; the header is out and the target has not heard it
(the model's choice, notes/assumptions/17.md). -/
theorem test_wait_after_the_cycles :
    (match xchgFrame Config.hw { ok with rxEn := true, signals := some 1 } with
      | .hung s => some (s.trace.length, s.rx)
      | .done _ | .fault _ | .refused _ => none) = some (8, []) ∧
    after (exec .rdDpStat { ok with signals := some 1 }) (fun s => (s.trace.length, s.target)) =
      some (8, ok.target) := by decide

/-- R72 (and P5): a STAT read answered FAULT leaves STAT. R200, R259: DPIDR is answered where the choice is FAULT. -/
theorem test_dp_fault :
    after (exec .rdDpStat (idle [replies .fault false])) (fun s => (s.result, s.target.stat)) =
      some (some .fault, 0xF0000000) ∧
    after (exec .rdDpDpidr (idle [replies .fault false])) ends = some (some 0x0BB11477, some .ok, 46) := by decide

/-- R303: with no power-up acknowledged a CSW write has no effect, on a target that needs it. -/
theorem test_unpowered_write :
    after (exec (.wrApA0 0x23000012) { ok with target := { ok.target with stat := 0 } })
      (fun s => (s.result, s.target.csw)) = some (some .ok, 0x23000002) := by decide

/-- R211: AddrInc single, Size word, TAR aligned. -/
theorem test_tar_advances :
    after (exec .rdApA3 { ok with target := { ok.target with csw := 0x23000012, tar := 0x20000000 } })
      (fun s => s.target.tar) = some 0x20000004 := by decide

/-- P4: `RDAP AP.IDR` in bank 0xF, before any power-up request: RT has power all the same. -/
theorem test_rdap :
    let powered : Reply :=
      .conforming
        { ack := .ok, flipParity := false, powerAck := true, post := false, unpowered := false, dropsUnread := false }
    after (exec (.rdap (mkRef .ap .read .a3))
      { bank15 with target := { bank15.target with stat := 0, buf := 0, script := [powered, powered] } }) ends =
      some (some 0x04770021, some .ok, 92) := by decide

/-- R107: the second read is not issued after a first that failed. -/
theorem test_rdap_wait :
    after (exec (.rdap (mkRef .ap .read .a3)) (idle [replies .wait false, replies .ok false]))
      (fun s => (ends s, s.target.script.length)) = some ((none, some .wait, 13), 1) := by decide

/-- R220, R221: the call starts at `S1_Reset`, with `idr` none. -/
theorem test_dpinit_starts : after (exec .dpInit ok) (fun s => (s.initState, s.idr, s.seq, s.trace.length)) =
    some (.s1Reset, none, [.dpInit], 0) := by decide

/-- Section 2.9, trace P2, transaction 9: the step-6 test on 0x23000012. -/
theorem test_dpinit_step6 :
    after (step (inInit .s6ReadBuf [.raw (none :: ackLevels .ok ++ dataLevels 0x23000012 (parity (0x23000012 : Word)))]))
      (fun s => (s.initState, s.value)) = some (.s6WriteCsw, some 0x23000012) := by decide

/-- Section 2.7. -/
theorem test_init : after (exec .init State.reset) (fun s => (s.phase, s.width, s.rxEn, s.trace)) =
    some (.released, .w8, false, []) := by decide

theorem test_init_again :
    refusal (exec .init { State.reset with phase := .released }) = some .initNotOff := by decide

theorem test_engage : after (exec .engage { State.reset with phase := .released }) (fun s => (s.phase, s.trace)) =
    some (.engaged, []) := by decide

theorem test_engage_off : refusal (exec .engage State.reset) = some .engageNotReleased := by decide

theorem test_disengage : after (exec .disengage ok) (fun s => (s.phase, s.trace)) = some (.released, []) := by decide

theorem test_disengage_released :
    refusal (exec .disengage { State.reset with phase := .released }) = some .disengageNotEngaged := by decide

/-- Section 2.7: the transport primitives. -/
theorem test_tx_frame : txFrame 0xA5 ok = .done { ok with
    trace := [true, false, true, false, false, true, false, true].map Cycle.h } := rfl

theorem test_primitives_refuse :
    txFrame 0x1A5 ok = .refused .txValueTooWide ∧ txFrame 0 { ok with rxEn := true } = .refused .txWhileRx ∧
    xchgFrame Config.hw ok = .refused .rxDisabled ∧ setWidth 7 ok = .refused .badWidth := ⟨rfl, rfl, rfl, rfl⟩

/-- Sections 2.3, 2.6, 2.9: acknowledgements, words in frames, the tests and the rewrites of `dp_init`. -/
theorem test_write_frames :
    (txData0 0x12345678, txData1 0x12345678, txData2 0x12345678) = (0x678, 0x68A, 0x448) ∧
    (txData0 0x80000000, txData1 0x80000000, txData2 0x80000000) = (0x000, 0x000, 0x600) := by decide

theorem test_step3 :
    debugPowered 0x30000000 = true ∧ debugPowered 0x300000F2 = true ∧ debugPowered 0x20000001 = false ∧
    debugPowered 0x30000004 = false ∧ debugPowered 0x30001000 = false ∧ debugPowered 0x30000100 = false ∧
    statWrite 0x24000000 cdbgPwrUpReq = 0x14000000 ∧ statWrite 0x50000000 cdbgPwrUpReq = 0x50000000 := by decide

theorem test_step6 :
    cswConfigured 0x2300000A = true ∧ cswConfigured 0x23000022 = false ∧ cswConfigured 0x23000006 = false ∧
    cswRewrite 0x23000052 = 0x23000042 ∧ cswRewrite 0x23000000 = 0x23000002 := by decide

/-- Section 2.5: DPIDR under both sample offsets. -/
theorem test_sample_offsets :
    rxWord { Config.hw with rxOffset := .late } (bitsOf 5 0x07) (bitsOf 11 0x477) (bitsOf 11 0x622) (bitsOf 11 0x42E) =
      0x0BB11477 ∧
    rxWord { Config.hw with rxOffset := .same } (bitsOf 5 0x13) (bitsOf 11 0x23B) (bitsOf 11 0x311) (bitsOf 11 0x617) =
      0x0BB11477 := by decide

/-- Sections 2.9 and 3 P2: `DPINIT` against RT as it stands at start, call and 17 steps: 16 transactions. -/
theorem test_dpinit_whole :
    after (Host.Core.run core 18
      { State.reset with
        phase := .engaged, calls := [0x0000000003FF]
        target := { rt (List.replicate 16 promptReply) with
          stat := 0, buf := 0, resent := 0, csw := 0x23000012 } })
      (fun s => (ends s, s.initState, s.selShadow, s.target.csw, s.target.script.length)) =
      some ((some 0x04770021, some .ok, 1064), .idle, some 0, 0x23000002, 0) := by decide +kernel

/-! ### The hypotheses of the statements can be met -/

theorem meets_DecodeOfEncode : WellFormed (.wrRef (mkRef .ap .write .a3) 0xFFFFFFFF) ∧
    WellFormed (.rdap (mkRef .ap .read .a0)) := by decide

theorem meets_EncodeOfDecode : decode 0xDEADBEEF01BB = .ok (.wrRef (mkRef .ap .write .a3) 0xDEADBEEF) := by decide

theorem meets_WrittenOperationReadsBack : WellFormed (.rdRef (mkRef .dp .read .a2)) ∧ WellFormed (.wrApA0 0x8000000F) ∧
    (Slot.a0 = .a0 ∧ ApName.csw = .csw) ∧ (Slot.a3 = .a3 ∧ ApName.idr = .idr) := by decide

theorem meets_PowerOnState : Instr.engage ≠ .init ∧ (after (step ok) (fun _ => true) = some true ∧ ok.phase ≠ .off) ∧
    (after (exec .init State.reset) State.phase ≠ some .off) := by decide

theorem meets_ResetTable : State.reset.phase = .off := by decide

theorem meets_InitOperation : State.reset.phase = .off ∧ ok.phase ≠ .off ∧
    State.phase { ok with phase := .released } ≠ .off := by decide

theorem meets_EngageOperation : State.phase { State.reset with phase := .released } = .released ∧
    State.reset.rxEn = false ∧ State.reset.phase ≠ .released ∧ ok.phase ≠ .released := by decide

theorem meets_DisengageOperation : ok.phase = .engaged ∧ ok.seq = [] ∧ State.reset.phase ≠ .engaged ∧
    (inInit .s1Reset []).seq ≠ [] := by decide

theorem ok_invariant : Invariant ok :=
  ⟨by decide, by decide, by decide, by decide, by decide, by decide, by decide⟩

theorem meets_WirePrecondition : onWire .lineReset = true ∧ onWire (.wrApA3 0) = true ∧
    State.reset.phase ≠ .engaged ∧ (inInit .s1Reset []).phase = .engaged ∧ (inInit .s1Reset []).seq ≠ [] ∧
    Invariant ok ∧ ok.phase = .engaged ∧ ok.seq = [] :=
  ⟨by decide, by decide, by decide, by decide, by decide, ok_invariant, by decide, by decide⟩

theorem meets_SetWidthPrimitive : ok.phase = .engaged ∧ State.reset.phase ≠ .engaged ∧
    ∀ n, n = 0 ∨ n = 4 ∨ n = 6 ∨ n = 7 ∨ n = 9 ∨ n = 10 ∨ n = 12 → n ≠ 5 ∧ n ≠ 8 ∧ n ≠ 11 := by
  refine ⟨rfl, by decide, ?_⟩
  omega

theorem meets_ReceivePathSwitch : ok.phase = .engaged ∧ State.reset.phase ≠ .engaged := by decide

/-- The widest value each width takes, and the narrowest it does not. -/
theorem meets_TxFramePrimitive :
    (ok.phase = .engaged ∧ ok.rxEn = false ∧ 255 < 2 ^ ok.width.bits ∧ ok.signals = none) ∧
    State.reset.phase ≠ .engaged ∧ State.rxEn { ok with rxEn := true } = true ∧ 2 ^ ok.width.bits ≤ 256 ∧
    State.signals { ok with signals := some 0 } = some 0 := by decide

theorem meets_TxDoublePrimitive :
    0x7FF < 2 ^ (State.width { ok with width := .w11 }).bits ∧ 2 ^ (State.width { ok with width := .w11 }).bits ≤ 0x800 ∧
    ok.phase = .engaged ∧ ok.rxEn = false ∧ ok.signals = none ∧ State.reset.phase ≠ .engaged ∧
    State.rxEn { ok with rxEn := true } = true := by decide

theorem meets_XchgFramePrimitive :
    ({ Config.hw with rxOffset := .same } : Params).rxOffset = .same ∧
    ({ Config.hw with rxOffset := .late } : Params).rxOffset = .late ∧
    ok.phase = .engaged ∧ State.rxEn { ok with rxEn := true } = true ∧ ok.signals = none ∧ ok.rxEn = false ∧
    State.signals { ok with signals := some 0 } = some 0 := by decide

theorem meets_ReadFormsComplete : readForm .rdApA3 = some (.ap, .a3) ∧ ReadyIdle ok ∧ ReadyIdle (idle [waitReply]) ∧
    answered ok (mkRef .ap .read .a3) = .ok ∧ answered (idle [waitReply]) (mkRef .ap .read .a3) ≠ .ok :=
  ⟨rfl, ready_idle _, ready_idle _, by decide, by decide⟩

theorem meets_WriteFormsComplete : writeForm (.wrDpSelect 0xF0) = some (.dp, .a2, 0xF0) ∧ ReadyIdle ok ∧
    ReadyIdle (idle [waitReply]) ∧ answered ok (mkRef .dp .write .a2) = .ok ∧
    answered (idle [waitReply]) (mkRef .dp .write .a2) ≠ .ok :=
  ⟨rfl, ready_idle _, ready_idle _, by decide, by decide⟩

theorem meets_LineResetCompletes : ReadyIdle ok ∧ answered ok (mkRef .dp .read .a0) = .ok ∧
    ReadyIdle (idle [waitReply]) ∧ answered (idle [waitReply]) (mkRef .dp .read .a0) ≠ .ok :=
  ⟨ready_idle _, by decide, ready_idle _, by decide⟩

theorem meets_RdapIsTwoReads : WellFormed (.rdap (mkRef .ap .read .a3)) ∧ ReadyIdle ok ∧
    (after (exec (.rdRef (mkRef .ap .read .a3)) ok) State.result = some (some .ok)) ∧
    (after (exec (.rdRef (mkRef .ap .read .a3)) (idle [waitReply])) State.result ≠ some (some .ok)) :=
  ⟨by decide, ready_idle _, by decide, by decide⟩

theorem meets_SampleOffsetUnobservable : Ready ok ∧ Config.hw.Valid ∧ ({ Config.hw with rxOffset := .same } : Params).Valid :=
  ⟨(ready_idle _).toReady, by decide, by decide⟩

theorem meets_ReadBitErrors : (0 < 32 ∧ 31 < 32) ∧ (0 : Nat) ≠ 31 := by decide

theorem meets_UnusedCyclesIgnored : readForm .rdDpStat = some (.dp, .a1) ∧ ReadyIdle ok ∧
    ∀ k, 1 ≤ k → k ≤ 36 →
      (some true :: ackLevels .ok ++ dataLevels 0 false).getD k none =
        (none :: ackLevels .ok ++ dataLevels 0 false ++ [some true]).getD k none := by
  refine ⟨rfl, ready_idle _, ?_⟩
  intro k h1 h2
  interval_cases k <;> rfl

/-- Section 1.2: v = 0x00000000 and v = 0xFFFFFFFF, the bits driven and echoed. -/
def echoing (echo : List Bool) : State :=
  idle [.raw (none :: ackLevels .ok), .raw (none :: ackLevels .ok ++ echo.map some)]

theorem meets_WriteReadRoundTrip : (∀ echo, ReadyIdle (echoing echo)) ∧
    after (exec (.wrRef (mkRef .ap .write .a1) 0) (echoing (List.replicate 33 false))) (fun s => s.lastDriven 33) =
      some (List.replicate 33 false) ∧
    after (exec (.wrRef (mkRef .ap .write .a1) 0xFFFFFFFF) (echoing (List.replicate 32 true ++ [false])))
      (fun s => s.lastDriven 33) = some (List.replicate 32 true ++ [false]) :=
  ⟨fun _ => ready_idle _, by decide, by decide⟩

theorem meets_CycleCounts : ReadyIdle ok ∧ readForm (.rdRef (mkRef .dp .read .a3)) = some (.dp, .a3) ∧
    writeForm (.wrApA2 0) = some (.ap, .a2, 0) := ⟨ready_idle _, rfl, rfl⟩

/-- It ends, and it waits. -/
theorem meets_TransportRestored : onWire (.rdap (mkRef .ap .read .a3)) = true ∧
    after (exec (.rdap (mkRef .ap .read .a3)) (idle [waitReply])) State.seq = some [] ∧
    after (exec .rdDpStat { ok with signals := some 1 }) (fun s => (s.seq, s.signals)) = some ([.read 0], some 0) := by
  decide

/-- The word of a posted DRW write: it stores at TAR. -/
def postsDrw : State :=
  { ok with target := { ok.target with
      tar := 0x20000000, posted := some { select := 0, slot := .a3, word := 0x12345678 } } }

theorem meets_ReadFrame : readForm .rdDpStat = some (.dp, .a1) ∧
    after (exec .rdDpStat postsDrw) (fun _ => true) = some true ∧
    postedAddress postsDrw.target = some 0x20000000 ∧ outside (postedAddress postsDrw.target) 0x1FFFFFFF ∧
    outside (postedAddress postsDrw.target) 0x20000004 ∧ ok.target.posted = none ∧ cswAddrInc ok.target.csw = 0 ∧
    ok.target.unread = false := by
  have e : postedAddress postsDrw.target = some 0x20000000 := by decide
  refine ⟨rfl, by decide, e, ?_, ?_, rfl, by decide, rfl⟩ <;> (rw [e]; intro a h; cases h; omega)

theorem meets_WriteFrame : writeForm (.wrApA3 0xFF) = some (.ap, .a3, 0xFF) ∧
    after (exec (.wrApA3 0xFF) ok) (fun _ => true) = some true ∧
    writeAddress ok .ap .a3 0xFF = some 0 ∧ outside (writeAddress ok .ap .a3 0xFF) 4 ∧
    outside (postedAddress ok.target) 4 ∧ outside (writeAddress ok .dp .a1 0) 0 ∧ ok.target.unread = false := by
  have e : writeAddress ok .ap .a3 0xFF = some 0 := by decide
  refine ⟨rfl, by decide, e, ?_, fun _ h => by simp [postedAddress, ok, idle, rt, Target.reset] at h,
    fun _ h => by simp [writeAddress] at h, rfl⟩
  rw [e]; intro a h; cases h; omega

theorem meets_OtherFrames : after (exec .lineReset (idle [waitReply])) (fun _ => true) = some true ∧
    after (exec (.rdap (mkRef .ap .read .a1)) (idle [waitReply])) (fun _ => true) = some true ∧
    after (exec .dpInit ok) (fun _ => true) = some true ∧
    (inInit .s4ReadBuf [waitReply]).seq = [.dpInit] ∧
    after (step (inInit .s4ReadBuf [waitReply])) (fun _ => true) = some true := by decide +kernel

theorem meets_IdentityRegistersReadOnly :
    after (step { ok with calls := [0xDEADBEEF00BB] }) (fun _ => true) = some true := by decide

theorem meets_BankPersists : (∀ v, writeForm (.wrDpA3 0xF0) ≠ some (.dp, .a2, v)) ∧
    after (exec (.wrDpA3 0xF0) ok) (fun _ => true) = some true := ⟨fun _ => by simp [writeForm], by decide⟩

theorem meets_SelShadowRule : after (exec .rdDpDpidr ok) (fun _ => true) = some true ∧
    after (exec (.wrDpSelect 0xF0) ok) (fun s => (s.seq, s.result)) = some ([], some .ok) ∧
    after (exec (.wrDpSelect 0xF0) (idle [waitReply])) (fun s => (s.seq, s.result)) = some ([], some .wait) ∧
    after (exec .init State.reset) (fun _ => true) = some true ∧
    after (step (inInit .s2SelBank15 [replies .ok false])) State.selShadow = some (some 0xF0) ∧
    after (step (inInit .s5SelBank0 [replies .ok false])) State.selShadow = some (some 0) := by decide

theorem meets_SignalNeverComes : ¬ State.atRest { ok with seq := [.read 0] } ∧ onWire .rdDpStat = true ∧
    State.signals { ok with signals := some 0 } = some 0 ∧ ok.width = .w8 ∧ ok.rxEn = false ∧ ok.seq = [] := by decide

theorem meets_DpInitTransitions : (∀ i, ReadyInit (inInit i [])) ∧ (inInit .s3WriteStat []).value = some 0x50000000 ∧
    (State.readEnds (inInit .s3ReadStat [replies .ok false]) .dp .a1).value = some 0xF0000000 ∧
    (State.readEnds (inInit .s3ReadStat [waitReply]) .dp .a1).value = none :=
  ⟨fun i => ready_inInit i _, rfl, by decide, by decide⟩

theorem meets_DpInitStartsAndEnds : ReadyIdle ok ∧ (inInit .done []).seq = [.dpInit] ∧
    (inInit .done []).initState = .done ∧ (inInit .failed []).initState = .failed := ⟨ready_idle _, rfl, rfl, rfl⟩

theorem meets_ApReadThenRdbuff : ReadyInit (inInit .s4ApReadIdr [replies .ok false]) ∧
    after (step (inInit .s4ApReadIdr [replies .ok false])) State.result = some (some .ok) ∧
    after (step (inInit .s6ApReadCsw [replies .ok false])) State.result = some (some .ok) :=
  ⟨ready_inInit _ _, by decide, by decide⟩

/-- The step-3 test holds for the word 0x20000000, with `n` = 1. -/
theorem meets_WaitsCountStatReads :
    ReadyInit (inInit .s3ReadStat (List.replicate 1 waitReply ++
      [.raw (none :: ackLevels .ok ++ dataLevels 0x20000000 (parity (0x20000000 : Word)))])) ∧
    (0x20000000 : Word).getLsbD 29 = true ∧ (0x20000000 : Word) &&& 0x00FFFF0D = 0 :=
  ⟨ready_inInit _ _, by decide, by decide⟩

/-- A script at its end, and a target that does one thing for ever. -/
def forever (i : InitState) (r : Reply) : State :=
  { inInit i [] with target := { rt [] with again := [r] } }

/-- The words for ever read: neither acknowledge, and a CSW of Size word with AddrInc single. -/
theorem meets_PollLoopsUnbounded : (∀ n i, ReadyInit (inInit i (List.replicate n waitReply ++ []))) ∧
    (∀ i r, ReadyInit (forever i r)) ∧ (forever .s3ReadStat waitReply).target.script = [] ∧
    (forever .s3ReadStat waitReply).target.again = [waitReply] ∧
    ¬ ((0x50000000 : Word).getLsbD 29 = true ∧ (0x50000000 : Word) &&& 0x00FFFF0D = 0) ∧
    (0x23000012 : Word) &&& 0x37 ≠ 0x02 ∧ (0x50000000 : Word).getLsbD 31 = false :=
  ⟨fun _ i => ready_inInit i _, fun _ _ => ⟨⟨rfl, rfl, rfl, rfl⟩, rfl⟩, rfl, rfl, by decide, by decide, by decide⟩

theorem meets_DpInitEstablishesLink : ReadyIdle (idle (List.replicate 16 promptReply ++ [])) ∧
    (rt (List.replicate 16 promptReply)).sticky = false := ⟨ready_idle _, by decide⟩

/-- The choice of `replies .ok false`: its domain is powered where CDBGPWRUPACK is set. -/
def choiceOk : Choice :=
  { ack := .ok, flipParity := false, powerAck := true, post := false, unpowered := true, dropsUnread := false }

theorem meets_DpReadsReturnRegisters : ReadyIdle ok ∧ ok.target.posted = none ∧ dpBankSel ok.target.select = 0 ∧
    ok.target.unread = false ∧ choiceOk.ack = .ok ∧ choiceOk.flipParity = false ∧ choiceOk.dropsUnread = false ∧
    promptReply = .conforming { choiceOk with dropsUnread := true } :=
  ⟨ready_idle _, rfl, by decide, rfl, rfl, rfl, rfl, rfl⟩

theorem meets_apReached : (ok.target.meets choiceOk []).apReached choiceOk = true ∧ ok.target.script = [.conforming choiceOk] :=
  ⟨by decide, rfl⟩

/-- The registers of both banks. `meets_apReached` gives the reply. -/
theorem meets_ApReadIsOneBehind : ReadyIdle ok ∧ ReadyIdle bank15 ∧ ok.target.posted = none ∧ ok.target.sticky = false ∧
    ok.target.slotNames .a0 = some .csw ∧ ok.target.slotNames .a1 = some .tar ∧ ok.target.slotNames .a3 = some .drw ∧
    ok.target.plainDrw = true ∧ bank15.target.slotNames .a1 = some .cfg ∧ bank15.target.slotNames .a2 = some .base ∧
    bank15.target.slotNames .a3 = some .idr ∧ readForm .rdApA3 = some (.ap, .a3) ∧ cswAddrInc ok.target.csw = 0 ∧
    cswAddrInc 0x23000012 = 1 ∧ Target.plainDrw { ok.target with csw := 0x23000012 } = true :=
  ⟨ready_idle _, ready_bank15, rfl, by decide, by decide, by decide, by decide, by decide, by decide, by decide,
    by decide, rfl, by decide, by decide, by decide⟩

theorem meets_RdapReturnsNamedRegister :
    ReadyIdle (idle [replies .ok false, replies .ok false, replies .ok false]) ∧ ok.target.posted = none ∧
    ok.target.sticky = false ∧ ok.target.slotNames .a0 = some .csw ∧ ok.target.slotNames .a3 = some .drw ∧
    (ok.target.meets choiceOk [.conforming choiceOk, .conforming choiceOk]).apReached choiceOk = true :=
  ⟨ready_idle _, rfl, by decide, by decide, by decide, by decide⟩

theorem meets_SelectWriteSelectsBank : ReadyIdle ok ∧ ok.target.posted = none ∧ ok.target.unread = false ∧
    ok.target.script = [.conforming choiceOk] ∧ choiceOk.flipParity = false := ⟨ready_idle _, rfl, rfl, rfl, rfl⟩

theorem meets_PowerHandshake : ReadyIdle (idle [replies .ok false, replies .ok false]) ∧ ok.target.posted = none ∧
    dpBankSel ok.target.select = 0 ∧ replies .ok false = .conforming choiceOk ∧ choiceOk.powerAck = true ∧
    choiceOk.flipParity = false := ⟨ready_idle _, rfl, by decide, rfl, rfl, rfl⟩

theorem meets_CswRewriteConfigures : ReadyIdle ok ∧ ok.target.posted = none ∧ ok.target.sticky = false ∧
    ok.target.slotNames .a0 = some .csw ∧ ok.target.script = [.conforming choiceOk] ∧ choiceOk.flipParity = false ∧
    choiceOk.post = false := ⟨ready_idle _, rfl, by decide, by decide, rfl, rfl, rfl⟩

/-- RT with this STAT. -/
def withStat (stat : Word) : State := { ok with target := { ok.target with stat := stat } }

/-- The choice of a reply whose data phase has a line error. -/
def choiceFlip : Choice := { choiceOk with flipParity := true }

/-- STICKYERR set; no power-up requested, so none acknowledged; a write answered OK whose parity bit arrives wrong. -/
theorem meets_StickyErrorRefusesAp : (∀ x, ReadyIdle (withStat x)) ∧ (withStat 0xF0000020).target.sticky = true ∧
    (withStat 0xF0000020).target.unread = false ∧ choiceOk.ack = .ok ∧ choiceOk.flipParity = false ∧
    readForm .rdApA0 = some (.ap, .a0) ∧ writeForm (.wrApA3 1) = some (.ap, .a3, 1) ∧
    (withStat 0).target.sticky = false ∧ (withStat 0).target.posted = none ∧
    ((withStat 0).target.meets choiceOk []).apReached choiceOk = false ∧ choiceFlip.flipParity = true ∧
    (ok.target.meets choiceFlip []).ackFor choiceFlip (mkRef .ap .write .a3) = .ok :=
  ⟨fun _ => ⟨⟨rfl, rfl, rfl, rfl⟩, rfl⟩, by decide, rfl, rfl, rfl, rfl, rfl, by decide, rfl, by decide, rfl, by decide⟩

theorem meets_DrwWriteStoresWord : writeForm (.wrApA3 1) = some (.ap, .a3, 1) ∧ ReadyIdle ok ∧
    ok.target.posted = none ∧ ok.target.sticky = false ∧ ok.target.slotNames .a3 = some .drw ∧
    ok.target.plainDrw = true ∧ ok.target.mem.wf ∧ cswAddrInc ok.target.csw = 0 ∧ cswAddrInc 0x23000012 = 1 ∧
    Target.plainDrw { ok.target with csw := 0x23000012 } = true ∧ choiceOk.flipParity = false ∧ choiceOk.post = false :=
  ⟨rfl, ready_idle _, rfl, by decide, by decide, by decide, by decide, by decide, by decide, by decide, rfl, rfl⟩

/-- The choice of a target that posts. -/
def choicePost : Choice := { choiceOk with powerAck := false, post := true }

/-- Each clause: the three registers; a read, a write and an ABORT write that follow. -/
theorem meets_PostedWritePerformedNext :
    ReadyIdle (idle [.conforming choicePost, .conforming choiceOk]) ∧ writeForm (.wrApA3 1) = some (.ap, .a3, 1) ∧
    (ok.target.meets choicePost [.conforming choiceOk]).apReached choicePost = true ∧ ok.target.sticky = false ∧
    ok.target.slotNames .a0 = some .csw ∧ ok.target.slotNames .a1 = some .tar ∧ ok.target.slotNames .a3 = some .drw ∧
    ok.target.plainDrw = true ∧ ok.target.mem.wf ∧
    (postsDrw.target.meets choiceOk []).ackFor choiceOk (mkRef .ap .read .a3) = .ok ∧
    (postsDrw.target.meets choiceOk []).ackFor choiceOk (mkRef .ap .write .a3) = .ok ∧
    ¬ (Port.dp = .dp ∧ Slot.a0 = .a0 ∧ (0x1E : Word).getLsbD 0 = true) ∧ (0x1 : Word).getLsbD 0 = true ∧
    choicePost.flipParity = false ∧ choicePost.post = true ∧ choiceOk.flipParity = false :=
  ⟨ready_idle _, rfl, by decide, by decide, by decide, by decide, by decide, by decide, by decide, by decide,
    by decide, by decide, by decide, rfl, rfl, rfl⟩

theorem meets_StepKeepsInv : Invariant ok ∧ after (step { ok with calls := [0xDEADBEEF00BB] }) (fun _ => true) = some true ∧
    Invariant { ok with calls := [0xDEADBEEF00BB] } :=
  ⟨ok_invariant, by decide, ⟨by decide, by decide, by decide, by decide, by decide, by decide, by decide⟩⟩

theorem meets_NoRunFaults : Invariant ok := ok_invariant

theorem meets_StepRunsDecodedCall : ok.seq = [] ∧ decode 0x0000000000A5 = .ok .rdDpDpidr ∧
    decode 0x000000000085 = .error .noSuchHeader ∧ (inInit .s1Reset []).seq = [.dpInit] ∧
    decodeTableWord 8 0xA5 = some .rdDpDpidr := by decide

theorem meets_TraceAndOutputsGrow : readForm .rdDpDpidr ≠ none ∧ writeForm (.wrDpStat 0) ≠ none ∧
    after (exec .rdDpDpidr ok) State.seq = some [] ∧ after (exec (.wrDpStat 0) ok) State.seq = some [] := by decide

theorem meets_ResultTable : ok.result ≠ some .timeout ∧
    after (step (inInit .done [])) State.seq = some [] ∧ (inInit .done []).initState ≠ .idle ∧
    after (exec .engage { State.reset with phase := .released }) State.result = some none := by decide

theorem meets_LineResetParametersUnobservable : Config.hw.Valid ∧
    ({ Config.hw with nPre := 160, nPost := 152, nIdle := 16 } : Params).Valid ∧ Ready ok :=
  ⟨by decide, by decide, (ready_idle _).toReady⟩

end Sys2Proof.Tests
end

section
/-! R7 and R8: what a line reset leaves, and how long it is, for every choice of its parameters. -/

namespace Sys2Proof.Machine

/-- R100: the line reset is `N_PRE + 16 + N_POST + N_IDLE` cycles long before its DPIDR read. -/
@[simp] theorem lineResetCycles_length (p : Params) :
    (lineResetCycles p).length = p.nPre + 16 + p.nPost + p.nIdle := by
  simp [lineResetCycles]
  omega

/-- R8: line resets with different parameters leave states that differ in the trace alone. -/
theorem lineResetEnds_params (s : State) (p q : Params) :
    s.lineResetEnds q = { s.lineResetEnds p with trace := (s.lineResetEnds q).trace } := by
  rw [lineResetEnds_eq s q, lineResetEnds_eq s p]

/-- The wire cycles of a line reset and its DPIDR read, for any parameters (R100, R110). -/
theorem lineResetEnds_cycles (s : State) (p : Params) :
    (s.lineResetEnds p).trace.length = s.trace.length + p.nPre + 16 + p.nPost + p.nIdle +
      (if answered s (mkRef .dp .read .a0) = .ok then 46 else 13) := by
  have sameAnswer : answered { s with trace := s.trace ++ lineResetCycles p } (mkRef .dp .read .a0) =
      answered s (mkRef .dp .read .a0) := rfl
  rw [State.lineResetEnds, readEnds_cycles, sameAnswer, List.length_append, lineResetCycles_length]
  omega

/-- Settles O60: on a ready engine the reset runs to its end, and its end depends on the parameters in the trace
alone. -/
theorem lineResetParametersUnobservable : Obligations.LineResetParametersUnobservable := by
  intro p q s hp hq h
  have same := lineResetEnds_params s p q
  exact ⟨s.lineResetEnds p, s.lineResetEnds q, lineResetTransaction_ready h p hp, lineResetTransaction_ready h q hq,
    (congrArg State.value same).symm, (congrArg State.result same).symm, (congrArg State.target same).symm, same,
    lineResetEnds_cycles s p⟩

end Sys2Proof.Machine
end

section
/-! R31 and R35: the operations on the wire read neither the ghost nor an output. Two states that differ in the ghost
alone run alike, and no run that keeps the invariant reads an output that does not exist. -/

namespace Sys2Proof.Machine

/-! ### Runs that differ in the ghost alone -/

/-- The same state with another ghost (R35). -/
def State.withGhost (s : State) (g : Option Word) : State := { s with selShadow := g }

section
variable (s : State) (g : Option Word)

@[simp] theorem State.withGhost_phase : (s.withGhost g).phase = s.phase := rfl
@[simp] theorem State.withGhost_seq : (s.withGhost g).seq = s.seq := rfl
@[simp] theorem State.withGhost_value : (s.withGhost g).value = s.value := rfl
@[simp] theorem State.withGhost_result : (s.withGhost g).result = s.result := rfl
@[simp] theorem State.withGhost_initState : (s.withGhost g).initState = s.initState := rfl
@[simp] theorem State.withGhost_calls : (s.withGhost g).calls = s.calls := rfl
@[simp] theorem State.withGhost_signals : (s.withGhost g).signals = s.signals := rfl
@[simp] theorem State.withGhost_ackCode (p : Params) : (s.withGhost g).ackCode p = s.ackCode p := rfl

end

/-- Two runs end the same way, in states that differ in the ghost alone. -/
def Run.Alike (r r' : Run) : Prop :=
  match r with
  | .done t => ∃ g, r' = .done (t.withGhost g)
  | .hung t => ∃ g, r' = .hung (t.withGhost g)
  | .fault e => r' = .fault e
  | .refused e => r' = .refused e

/-- What an operation does, it does with any ghost. -/
def GhostBlind (f : State → Run) : Prop := ∀ s g, (f s).Alike (f (s.withGhost g))

/-- An operation that looks at no ghost and reads no output. -/
structure WireOp (f : State → Run) : Prop where
  ghost : GhostBlind f
  safe  : ∀ s e, f s ≠ .fault e

/-- An update that passes the ghost on. -/
def PassesGhost (u : State → State) : Prop := ∀ s g, u (s.withGhost g) = (u s).withGhost g

section Compose
variable {f k : State → Run} {u : State → State}

theorem Run.Alike.andThen {r r' : Run} (h : r.Alike r') (hk : GhostBlind k) : (r.andThen k).Alike (r'.andThen k) := by
  cases r with
  | done t => obtain ⟨g, rfl⟩ := h; exact hk t g
  | hung t => obtain ⟨g, rfl⟩ := h; exact ⟨g, rfl⟩
  | fault e => cases h; rfl
  | refused e => cases h; rfl

theorem GhostBlind.andThen (hf : GhostBlind f) (hk : GhostBlind k) : GhostBlind fun s => (f s).andThen k :=
  fun s g => (hf s g).andThen hk

theorem GhostBlind.after (hf : GhostBlind f) (hu : PassesGhost u) : GhostBlind fun s => f (u s) := by
  intro s g
  simp only [hu s g]
  exact hf (u s) g

theorem GhostBlind.ite {c : State → Prop} [DecidablePred c] (hc : ∀ s g, c (s.withGhost g) ↔ c s) (hf : GhostBlind f)
    (hk : GhostBlind k) : GhostBlind fun s => if c s then f s else k s := by
  intro s g
  by_cases h : c s
  · simpa only [h, hc, if_true] using hf s g
  · simpa only [h, hc, if_false] using hk s g

theorem Run.andThen_safe {r : Run} (hr : ∀ e, r ≠ .fault e) (hk : ∀ s, r = .done s → ∀ e, k s ≠ .fault e) :
    ∀ e, r.andThen k ≠ .fault e := by
  cases r with
  | done s => exact hk s rfl
  | hung s => intro e he; cases he
  | fault x => exact absurd rfl (hr x)
  | refused x => intro e he; cases he

theorem WireOp.andThen (hf : WireOp f) (hk : WireOp k) : WireOp fun s => (f s).andThen k :=
  ⟨hf.ghost.andThen hk.ghost, fun s => Run.andThen_safe (hf.safe s) fun t _ => hk.safe t⟩

theorem WireOp.after (hf : WireOp f) (hu : PassesGhost u) : WireOp fun s => f (u s) :=
  ⟨hf.ghost.after hu, fun s => hf.safe (u s)⟩

theorem WireOp.ends (hu : PassesGhost u) : WireOp fun s => .done (u s) :=
  ⟨fun s g => ⟨g, congrArg Run.done (hu s g)⟩, fun _ _ h => by cases h⟩

theorem WireOp.refuses (e : Refusal) : WireOp fun _ => .refused e := ⟨fun _ _ => rfl, fun _ _ h => by cases h⟩

/-- A branch on something other than the ghost. -/
theorem WireOp.ite {c : State → Prop} [DecidablePred c] (hc : ∀ s g, c (s.withGhost g) ↔ c s) (hf : WireOp f)
    (hk : WireOp k) : WireOp fun s => if c s then f s else k s := by
  refine ⟨.ite hc hf.ghost hk.ghost, fun s => ?_⟩
  by_cases h : c s
  · simpa only [h, if_true] using hf.safe s
  · simpa only [h, if_false] using hk.safe s

end Compose

/-! ### The operations on the wire -/

theorem awaitSignal_wireOp : WireOp awaitSignal := by
  constructor
  · intro s g
    unfold awaitSignal
    rw [State.withGhost_signals]
    split <;> exact ⟨g, rfl⟩
  · intro s e h
    unfold awaitSignal at h
    split at h <;> cases h

theorem setWidth_wireOp (w : Width) : WireOp (setWidth w.bits) := by
  cases w <;> exact .ite (c := fun s => s.phase = .engaged) (fun _ _ => .rfl) (.ends fun _ _ => rfl) (.refuses _)

theorem rxEnable_wireOp : WireOp rxEnable :=
  .ite (c := fun s => s.phase = .engaged) (fun _ _ => .rfl) (.ends fun _ _ => rfl) (.refuses _)

theorem rxDisable_wireOp : WireOp rxDisable :=
  .ite (c := fun s => s.phase = .engaged) (fun _ _ => .rfl) (.ends fun _ _ => rfl) (.refuses _)

theorem txFrame_wireOp (v : Nat) : WireOp (txFrame v) :=
  .ite (c := fun s => s.phase = .engaged) (fun _ _ => .rfl)
    (.ite (c := fun s => s.rxEn = false) (fun _ _ => .rfl)
      (.ite (c := fun s => v < 2 ^ s.width.bits) (fun _ _ => .rfl)
        (awaitSignal_wireOp.andThen (awaitSignal_wireOp.after fun _ _ => rfl)) (.refuses _))
      (.refuses _))
    (.refuses _)

/-- The samples are those of the line before the wait for RxDataReady, which leaves the ghost where it was. -/
theorem receive_wireOp (p : Params) : WireOp fun s =>
    (awaitSignal (s.release s.width.bits)).andThen fun t => .done (t.sampled (s.samples p s.width.bits)) := by
  constructor
  · intro s g
    exact (awaitSignal_wireOp.ghost (s.release s.width.bits) g).andThen (WireOp.ends fun _ _ => rfl).ghost
  · intro s
    exact Run.andThen_safe (awaitSignal_wireOp.safe _) fun _ _ _ h => by cases h

theorem xchgFrame_wireOp (p : Params) : WireOp (xchgFrame p) :=
  .ite (c := fun s => s.phase = .engaged) (fun _ _ => .rfl)
    (.ite (c := fun s => s.rxEn = true) (fun _ _ => .rfl) (awaitSignal_wireOp.andThen (receive_wireOp p)) (.refuses _))
    (.refuses _)

theorem targetHears_passesGhost (b : Header) : PassesGhost fun s => s.targetHears b := by
  intro s g
  simp only [State.targetHears, State.withGhost]

theorem requestPhase_wireOp (p : Params) (step : Nat → Pos) (r : RegRef) : WireOp (requestPhase p step r) := by
  have hears : PassesGhost fun s => (s.targetHears (req r)).goto (step 1) := fun s g =>
    congrArg (fun t : State => t.goto (step 1)) (targetHears_passesGhost (req r) s g)
  unfold requestPhase
  refine ((txFrame_wireOp (req r).toNat).after (u := fun s => s.opens (step 0) r) fun _ _ => rfl).andThen ?_
  refine (rxEnable_wireOp.after hears).andThen ?_
  refine ((setWidth_wireOp .w5).after (u := fun s => s.goto (step 2)) fun _ _ => rfl).andThen ?_
  refine ((xchgFrame_wireOp p).after (u := fun s => s.goto (step 3)) fun _ _ => rfl).andThen ?_
  exact .ends fun _ _ => rfl

theorem errorExit_wireOp (a b : Pos) (code : AckCode) : WireOp (errorExit a b code) :=
  ((setWidth_wireOp .w8).after (u := fun s => s.goto a) fun _ _ => rfl).andThen <|
  (rxDisable_wireOp.after (u := fun s => s.goto b) fun _ _ => rfl).andThen <|
  .ends fun _ _ => rfl

/-- The word and the parity bit of a read come from the samples alone. -/
theorem readReturns_wireOp (p : Params) : WireOp fun s =>
    (setWidth 8 (s.goto (.read 10))).andThen fun t =>
    (rxDisable (t.goto (.read 11))).andThen fun t =>
    .done (t.returns (some (rxWord p (s.sample 0) (s.sample 1) (s.sample 2) (s.sample 3)))
      (readResult (rxWord p (s.sample 0) (s.sample 1) (s.sample 2) (s.sample 3)) (rxParity p (s.sample 3)))) := by
  have restores : ∀ v r, WireOp fun s => (setWidth 8 (s.goto (.read 10))).andThen fun t =>
      (rxDisable (t.goto (.read 11))).andThen fun t => .done (t.returns v r) := fun v r =>
    ((setWidth_wireOp .w8).after (u := fun s => s.goto (.read 10)) fun _ _ => rfl).andThen <|
    (rxDisable_wireOp.after (u := fun s => s.goto (.read 11)) fun _ _ => rfl).andThen <|
    .ends fun _ _ => rfl
  exact ⟨fun s g => (restores _ _).ghost s g, fun s => (restores _ _).safe s⟩

theorem readData_wireOp (p : Params) : WireOp (readData p) :=
  ((setWidth_wireOp .w11).after (u := fun s => s.goto (.read 6)) fun _ _ => rfl).andThen <|
  ((xchgFrame_wireOp p).after (u := fun s => s.goto (.read 7)) fun _ _ => rfl).andThen <|
  ((xchgFrame_wireOp p).after (u := fun s => s.goto (.read 8)) fun _ _ => rfl).andThen <|
  ((xchgFrame_wireOp p).after (u := fun s => s.goto (.read 9)) fun _ _ => rfl).andThen <|
  readReturns_wireOp p

/-- How a transaction goes on from its acknowledgement, which does not come from the ghost (R95). -/
theorem onAck_wireOp {f : State → Run} (p : Params) (hf : WireOp f) (a b : Pos) : WireOp fun s =>
    match s.ackCode p with
    | .ok => f s
    | .wait => errorExit a b .wait s
    | .fault => errorExit a b .fault s
    | .noAck => errorExit a b .noAck s := by
  constructor
  · intro s g
    simp only [State.withGhost_ackCode]
    cases s.ackCode p with
    | ok => exact hf.ghost s g
    | wait => exact (errorExit_wireOp a b .wait).ghost s g
    | fault => exact (errorExit_wireOp a b .fault).ghost s g
    | noAck => exact (errorExit_wireOp a b .noAck).ghost s g
  · intro s
    cases s.ackCode p with
    | ok => exact hf.safe s
    | wait => exact (errorExit_wireOp a b .wait).safe s
    | fault => exact (errorExit_wireOp a b .fault).safe s
    | noAck => exact (errorExit_wireOp a b .noAck).safe s

theorem readTransaction_wireOp (p : Params) (port : Port) (slot : Slot) : WireOp (readTransaction p port slot) :=
  (requestPhase_wireOp p .read _).andThen (onAck_wireOp p (readData_wireOp p) _ _)

theorem targetTakes_passesGhost : PassesGhost State.targetTakes := fun _ _ => rfl

theorem writeData_wireOp (v : Word) : WireOp (writeData v) := by
  have takes : PassesGhost fun s => s.targetTakes.goto (.write 10) := fun s g =>
    congrArg (fun t : State => t.goto (.write 10)) (targetTakes_passesGhost s g)
  unfold writeData txDouble
  refine (rxDisable_wireOp.after (u := fun s => s.goto (.write 6)) fun _ _ => rfl).andThen ?_
  refine ((setWidth_wireOp .w11).after (u := fun s => s.goto (.write 7)) fun _ _ => rfl).andThen ?_
  refine (((txFrame_wireOp _).andThen (txFrame_wireOp _)).after (u := fun s => s.goto (.write 8)) fun _ _ => rfl).andThen ?_
  refine ((txFrame_wireOp _).after (u := fun s => s.goto (.write 9)) fun _ _ => rfl).andThen ?_
  exact ((setWidth_wireOp .w8).after takes).andThen (.ends fun _ _ => rfl)

/-- A write sets the ghost or passes it on (R35). -/
theorem shadows_wireOp (port : Port) (slot : Slot) (v : Word) : WireOp fun s => .done (s.shadows port slot v) := by
  refine ⟨fun s g => ?_, fun _ _ h => by cases h⟩
  unfold State.shadows
  split
  · exact ⟨some v, rfl⟩
  · exact ⟨g, rfl⟩

theorem writeTransaction_wireOp (p : Params) (port : Port) (slot : Slot) (v : Word) :
    WireOp (writeTransaction p port slot v) :=
  ((requestPhase_wireOp p .write _).after (u := fun s => { s with opWdata := v }) fun _ _ => rfl).andThen
    (onAck_wireOp p ((writeData_wireOp v).andThen (shadows_wireOp port slot v)) _ _)

theorem sendFrames_wireOp (k : Nat) (l : List Nat) : WireOp (sendFrames k l) := by
  induction l generalizing k with
  | nil => exact .ends fun _ _ => rfl
  | cons v l ih => exact ((txFrame_wireOp v).after (u := fun s => s.goto (.lineReset k)) fun _ _ => rfl).andThen (ih (k + 1))

theorem lineResetTransaction_wireOp (p : Params) : WireOp (lineResetTransaction p) :=
  ((sendFrames_wireOp 0 (lineResetFrames p)).after (u := fun s => { s with seq := .lineReset 0 :: s.seq })
    fun _ _ => rfl).andThen <|
  (readTransaction_wireOp p .dp .a0).andThen <|
  .ends fun _ _ => rfl

/-! ### The operations that read an output look at no ghost -/

theorem withResult_ghostBlind {f : Result → State → Run} (h : ∀ r, GhostBlind (f r)) :
    GhostBlind fun s => withResult s fun r => f r s := by
  intro s g
  simp only [withResult, State.withGhost_result]
  split
  · exact h _ s g
  · rfl

theorem withValue_ghostBlind {f : Word → State → Run} (h : ∀ w, GhostBlind (f w)) :
    GhostBlind fun s => withValue s fun w => f w s := by
  intro s g
  simp only [withValue, State.withGhost_value]
  split
  · exact h _ s g
  · rfl

theorem reports_ghostBlind : GhostBlind fun s => .done s.reports := fun _ g => ⟨g, rfl⟩

theorem rdapTransactions_ghostBlind (p : Params) (slot : Slot) : GhostBlind (rdapTransactions p slot) := by
  refine (readTransaction_wireOp p .ap slot).ghost.andThen (withResult_ghostBlind fun r => ?_)
  have second : GhostBlind fun s => (readTransaction p .dp .a3 s.reports).andThen fun s => .done s.reports :=
    ((readTransaction_wireOp p .dp .a3).ghost.after (u := State.reports) fun _ _ => rfl).andThen reports_ghostBlind
  cases r with
  | ok => exact second
  | wait | fault | noAck | parity | timeout => exact reports_ghostBlind

theorem takesIdr_passesGhost (w : Word) : PassesGhost fun s => s.takesIdr w := by
  intro s g
  by_cases h : s.initState = .s4ReadBuf <;> simp only [State.takesIdr, State.withGhost_initState, h] <;> rfl

theorem initAdvance_ghostBlind : GhostBlind initAdvance := by
  refine withResult_ghostBlind fun r => ?_
  cases r with
  | ok =>
    exact .ite (c := fun s => usesWord s.initState = true) (fun _ _ => .rfl)
      (withValue_ghostBlind fun w s g => ⟨g, by simp only [takesIdr_passesGhost w s g]; rfl⟩) fun _ g => ⟨g, rfl⟩
  | wait | fault | noAck | parity | timeout => exact fun _ g => ⟨g, rfl⟩

theorem initStep_ghostBlind (p : Params) : GhostBlind (initStep p) := by
  have advance : ∀ {f}, WireOp f → GhostBlind fun s => (f s).andThen initAdvance := fun h =>
    h.ghost.andThen initAdvance_ghostBlind
  have rewrites : ∀ port slot (new : Word → Word), GhostBlind fun s =>
      withValue s fun w => (writeTransaction p port slot (new w) s).andThen initAdvance := fun port slot new =>
    withValue_ghostBlind fun w => advance (writeTransaction_wireOp p port slot (new w))
  have reads := fun port slot => advance (readTransaction_wireOp p port slot)
  have writes := fun port slot v => advance (writeTransaction_wireOp p port slot v)
  intro s g
  simp only [initStep, State.withGhost_initState]
  cases s.initState with
  | idle => exact ⟨g, rfl⟩
  | s1Reset => exact advance (lineResetTransaction_wireOp p) s g
  | s2SelBank15 => exact writes .dp .a2 selectBank15 s g
  | s5SelBank0 => exact writes .dp .a2 selectBank0 s g
  | s3ReadStat | s7ReadStat => exact reads .dp .a1 s g
  | s4ApReadIdr => exact reads .ap .a3 s g
  | s4ReadBuf | s6ReadBuf => exact reads .dp .a3 s g
  | s6ApReadCsw => exact reads .ap .a0 s g
  | s3WriteStat => exact rewrites .dp .a1 (fun w => statWrite w cdbgPwrUpReq) s g
  | s6WriteCsw => exact rewrites .ap .a0 cswRewrite s g
  | s7WriteStat => exact rewrites .dp .a1 (fun w => statWrite w csysPwrUpReq) s g
  | done | failed => exact ⟨g, rfl⟩

theorem resume_ghostBlind (p : Params) : GhostBlind (resume p) :=
  .ite (c := fun s => s.seq = [.dpInit]) (fun _ _ => .rfl) (initStep_ghostBlind p) fun _ g => ⟨g, rfl⟩

theorem callOnWire_ghostBlind {body : State → Run} (h : GhostBlind body) : GhostBlind (callOnWire body) :=
  .ite (c := fun s => s.phase = .engaged) (fun _ _ => .rfl)
    (.ite (c := fun s => s.seq = []) (fun _ _ => .rfl) h fun _ _ => rfl) fun _ _ => rfl

/-! ### The operations of the caller -/

/-- An operation is one of the read forms, one of the write forms, or one of the six others. -/
theorem instr_forms (i : Instr) : (∃ port slot, readForm i = some (port, slot)) ∨
    (∃ port slot v, writeForm i = some (port, slot, v)) ∨ i = .lineReset ∨ (∃ ref, i = .rdap ref) ∨ i = .dpInit ∨
    i = .init ∨ i = .engage ∨ i = .disengage := by
  cases i <;> simp [readForm, writeForm]

/-- Two steps answer the same, in next states that differ in the ghost alone. -/
def AnswersAlike (o o' : Host.Outcome State Fault Refusal) : Prop :=
  match o with
  | .next t => ∃ g, o' = .next (t.withGhost g)
  | .fault e => o' = .fault e
  | .refused e => o' = .refused e

theorem Run.Alike.outcome {r r' : Run} (h : r.Alike r') : AnswersAlike r.outcome r'.outcome := by
  cases r with
  | done t | hung t => obtain ⟨g, rfl⟩ := h; exact ⟨g, rfl⟩
  | fault e | refused e => cases h; rfl

theorem exec_alike (i : Instr) (s : State) (g : Option Word) : AnswersAlike (exec i s) (exec i (s.withGhost g)) := by
  have reported : ∀ {f}, WireOp f → AnswersAlike (callOnWire (fun s => (f s).andThen fun s => .done s.reports) s).outcome
      (callOnWire (fun s => (f s).andThen fun s => .done s.reports) (s.withGhost g)).outcome := fun h =>
    (callOnWire_ghostBlind (h.ghost.andThen reports_ghostBlind) s g).outcome
  rcases instr_forms i with ⟨port, slot, h⟩ | ⟨port, slot, v, h⟩ | rfl | ⟨ref, rfl⟩ | rfl | rfl | rfl | rfl
  · rw [exec_readForm h, exec_readForm h]
    exact reported (readTransaction_wireOp Config.hw port slot)
  · rw [exec_writeForm h, exec_writeForm h]
    exact reported (writeTransaction_wireOp Config.hw port slot v)
  · exact reported (lineResetTransaction_wireOp Config.hw)
  · exact (callOnWire_ghostBlind (rdapTransactions_ghostBlind Config.hw ref.slot) s g).outcome
  · exact (callOnWire_ghostBlind (body := fun s => .done s.startsInit) (fun _ g => ⟨g, rfl⟩) s g).outcome
  · by_cases h : s.phase = .off <;> simp only [exec, execInit, State.withGhost_phase, h, if_true, if_false]
    · exact ⟨none, rfl⟩
    · rfl
  · by_cases h : s.phase = .released <;> simp only [exec, execEngage, State.withGhost_phase, h, if_true, if_false]
    · exact ⟨g, rfl⟩
    · rfl
  · by_cases h : s.phase = .engaged ∧ s.seq = [] <;>
      simp only [exec, execDisengage, State.withGhost_phase, State.withGhost_seq, h, if_false]
    · exact ⟨g, rfl⟩
    · rfl

theorem step_alike (s : State) (g : Option Word) : AnswersAlike (step s) (step (s.withGhost g)) := by
  unfold step State.nextCall
  rw [State.withGhost_seq, State.withGhost_calls]
  split
  · cases s.calls with
    | nil => exact ⟨g, rfl⟩
    | cons c rest =>
      dsimp only
      cases decode c with
      | ok i => exact exec_alike i { s with calls := rest } g
      | error e => rfl
  · exact (resume_ghostBlind Config.hw s g).outcome

/-- Settles O37: every operation passes the ghost on or sets it, and none looks at it. -/
theorem selShadowInvisible : Obligations.SelShadowInvisible := by
  intro s g
  have alike := step_alike s g
  cases h : step s <;> rw [h] at alike <;> exact alike

end Sys2Proof.Machine
end

section
/-! R28 to R37: the invariant of the machine holds at power-on and every step keeps it; a step from a state with it
never faults (R31), and so no run does. -/

namespace Sys2Proof.Machine

/-! ### A step of `dp_init` that has a next state -/

/-- Where a step of `dp_init` can lead, from any state: it ends the call, runs a transaction and moves on, or waits for
ever in one. -/
theorem initStep_next {p : Params} {s t : State} (e : (initStep p s).outcome = .next t) :
    (s.initState = .idle ∧ t = s) ∨ (s.initState = .done ∧ t = s.endsInit s.idr (some .ok)) ∨
    (s.initState = .failed ∧ t = s.endsInit none s.result) ∨ InitMoved s t ∨ InitStuck s t := by
  by_cases hi : s.initState = .idle
  · simp only [initStep, hi] at e; cases e; exact .inl ⟨hi, rfl⟩
  by_cases hd : s.initState = .done
  · simp only [initStep, hd] at e; cases e; exact .inr (.inl ⟨hd, rfl⟩)
  by_cases hf : s.initState = .failed
  · simp only [initStep, hf] at e; cases e; exact .inr (.inr (.inl ⟨hf, rfl⟩))
  have word : writesReadWord s.initState = true → s.value.isSome = true := by
    intro hw
    cases hv : s.value with
    | some w => rfl
    | none =>
      exfalso
      revert hw e
      unfold initStep withValue
      rw [hv]
      cases s.initState <;> simp [writesReadWord]
  rcases (initStep_ends p word hi hd hf).next e with h | h
  · exact .inr (.inr (.inr (.inl h)))
  · exact .inr (.inr (.inr (.inr h)))

/-! ### What keeps the invariant -/

/-- A state with the invariant that differs in what the invariant does not speak of. -/
theorem Invariant.with_calls {s : State} (h : Invariant s) (l : List CallWord) : Invariant { s with calls := l } :=
  ⟨h.transport, h.engaged, h.waiting, h.initIdle, h.transient, h.wordRead, h.memory⟩

theorem Invariant.with_opWdata {s : State} (h : Invariant s) (v : Word) : Invariant { s with opWdata := v } :=
  ⟨h.transport, h.engaged, h.waiting, h.initIdle, h.transient, h.wordRead, h.memory⟩

theorem Invariant.reports {s : State} (h : Invariant s) : Invariant s.reports :=
  ⟨h.transport, h.engaged, h.waiting, h.initIdle, h.transient, h.wordRead, h.memory⟩

/-- Where no operation runs, `initState` is Idle (R33). -/
theorem Invariant.idle {s : State} (h : Invariant s) (hq : s.seq = []) : s.initState = .idle :=
  h.initIdle.mpr (by simp [hq])

/-- A transaction that has ended restores what the invariant says of a state at rest (R163). -/
theorem Invariant.ended {s t : State} (h : Invariant s) (hp : s.phase = .engaged) (he : Ended s t)
    (hr : s.atRest) (hw : writesReadWord t.initState = true → t.value.isSome = true) : Invariant t where
  transport _ _ := ⟨he.width, he.rxEn⟩
  engaged _ := he.keeps.phase.trans hp
  waiting hn := absurd (by simpa only [State.atRest, he.seq] using hr) hn
  initIdle := by rw [he.keeps.initState, he.seq]; exact h.initIdle
  transient _ := ⟨he.ack, he.rx⟩
  wordRead := hw
  memory := he.keeps.mem h.memory

/-- A caller's transaction, made while no operation runs. -/
theorem Invariant.calledEnded {s t : State} (h : Invariant s) (hp : s.phase = .engaged) (hq : s.seq = [])
    (he : Ended s t) : Invariant t :=
  h.ended hp he (.inl hq) (by rw [he.keeps.initState, h.idle hq]; simp [writesReadWord])

/-- An engine that waits for ever in a transaction waits for a signal that does not come (R262). -/
theorem Invariant.stuck {s t : State} (h : Invariant s) (hp : s.phase = .engaged) (hr : s.atRest)
    (hs : Stuck s s.seq t) : Invariant t := by
  obtain ⟨l, hl, hd, hseq⟩ := hs.seq
  have away : ¬ t.atRest := by
    rintro (k | k) <;> rw [hseq] at k
    · exact hl (List.append_eq_nil_iff.mp k).1
    · rcases hr with hr | hr <;> rw [hr] at k
      · rw [List.append_nil] at k; exact hd (by simp [k])
      · exact hl (by simpa using k)
  refine ⟨fun _ k => absurd k away, fun _ => hs.keeps.phase.trans hp, fun _ => hs.signals, ?_, fun k => absurd k away, ?_,
    hs.keeps.mem h.memory⟩
  · rw [hs.keeps.initState, h.initIdle, hseq]; simp [hd]
  · rw [hs.keeps.initState, hs.value]; exact h.wordRead

/-! ### The operations of the caller -/

theorem exec_keeps_invariant {i : Instr} {s t : State} (h : Invariant s) (e : exec i s = .next t) : Invariant t := by
  have called : ∀ {u x}, Invariant u → u.phase = .engaged → u.seq = [] → (∃ w, Ended u w ∧ x = w.reports) ∨ Stuck u [] x →
      Invariant x := by
    rintro u x hu hp hq (⟨w, hw, rfl⟩ | hx)
    · exact (hu.calledEnded hp hq hw).reports
    · exact hu.stuck hp (.inl hq) (hx.from hq.symm)
  rcases instr_forms i with ⟨port, slot, hi⟩ | ⟨port, slot, v, hi⟩ | rfl | ⟨ref, rfl⟩ | rfl | rfl | rfl | rfl
  · obtain ⟨hp, hq, k⟩ := callRead_next (exec_readForm hi s ▸ e)
    exact called h hp hq (k.imp (fun ⟨w, hw, hx⟩ => ⟨w, hw.toEnded, hx⟩) id)
  · obtain ⟨hp, hq, k⟩ := callWrite_next (exec_writeForm hi s ▸ e)
    exact called (h.with_opWdata v) hp hq (k.imp (fun ⟨w, hw, hx⟩ => ⟨w, hw.toEnded, hx⟩) id)
  · obtain ⟨hp, hq, k⟩ := execLineReset_next e
    exact called h hp hq (k.imp (fun ⟨w, hw, hx⟩ => ⟨w, hw.toEnded, hx⟩) id)
  · obtain ⟨hp, hq, k⟩ := execRdap_next e
    have second : ∀ {u}, ReadEnded s u → (∃ w, Ended u.reports w ∧ t = w.reports) ∨ Stuck u.reports [] t → Invariant t :=
      fun hu => called (h.calledEnded hp hq hu.toEnded).reports (hu.keeps.phase.trans hp) (hu.seq.trans hq)
    rcases k with ⟨u, hu, -, rfl⟩ | ⟨u, w, hu, -, hw, rfl⟩ | k | ⟨u, hu, -, k⟩
    · exact called h hp hq (.inl ⟨u, hu.toEnded, rfl⟩)
    · exact second hu (.inl ⟨w, hw.toEnded, rfl⟩)
    · exact called h hp hq (.inr k)
    · exact second hu (.inr k)
  · obtain ⟨hp, hq, k⟩ := callOnWire_next e
    cases k
    exact ⟨fun hn _ => h.transport hn (.inl hq), fun _ => hp, fun k => absurd (.inr rfl) k, by simp,
      fun _ => h.transient (.inl hq), by simp [writesReadWord], h.memory⟩
  · simp only [exec, execInit] at e
    split at e <;> cases e
    exact ⟨fun _ _ => ⟨rfl, rfl⟩, fun k => absurd rfl k, fun k => absurd (.inl rfl) k, by simp [State.initialised],
      fun _ => ⟨rfl, rfl⟩, by simp [State.initialised, writesReadWord], h.memory⟩
  · simp only [exec, execEngage] at e
    split at e <;> cases e
    rename_i hp
    exact ⟨fun _ => h.transport (by simp [hp]), fun _ => rfl, h.waiting, h.initIdle, h.transient, h.wordRead, h.memory⟩
  · simp only [exec, execDisengage] at e
    split at e <;> cases e
    rename_i hp
    exact ⟨fun _ => h.transport (by simp [hp.1]), fun k => absurd hp.2 k, h.waiting, h.initIdle, h.transient, h.wordRead,
      h.memory⟩

/-! ### A step of `dp_init` -/

/-- The state machine never goes back to Idle by itself (R221). -/
theorem initAfter_ne_idle {i : InitState} (h : i ≠ .idle) (r : Result) (w : Word) : initAfter i r w ≠ .idle := by
  cases r with
  | ok => cases i <;> simp [initAfter, initNextOk, ite_eq_iff] at h ⊢
  | wait => cases i <;> simp [initAfter, initNextWait] at h ⊢
  | fault | noAck | parity | timeout => simp [initAfter]

/-- A state that writes a word made from the word read last comes right after the read of it (R220). -/
theorem afterRead_of_writesReadWord {i : InitState} {r : Result} {w : Word}
    (h : writesReadWord (initAfter i r w) = true) : r = .ok ∧ usesWord i = true := by
  cases r with
  | ok => cases i <;> simp [initAfter, initNextOk, writesReadWord, usesWord] at h ⊢
  | wait => cases i <;> simp [initAfter, initNextWait, writesReadWord] at h
  | fault | noAck | parity | timeout => simp [initAfter, writesReadWord] at h

theorem initStep_keeps_invariant {s t : State} (h : Invariant s) (hq : s.seq = [.dpInit])
    (e : (initStep Config.hw s).outcome = .next t) : Invariant t := by
  have hp : s.phase = .engaged := h.engaged (by simp [hq])
  have hi : s.initState ≠ .idle := fun k => h.initIdle.mp k (by simp [hq])
  have ended : ∀ v r, Invariant (s.endsInit v r) := fun v r =>
    ⟨fun hn _ => h.transport hn (.inr hq), fun k => absurd rfl k, fun k => absurd (.inl rfl) k, by simp,
      fun _ => h.transient (.inr hq), by simp [writesReadWord], h.memory⟩
  rcases initStep_next e with ⟨k, -⟩ | ⟨-, rfl⟩ | ⟨-, rfl⟩ | ⟨w, u, hu, ha⟩ | ⟨w, hs⟩
  · exact absurd k hi
  · exact ended _ _
  · exact ended _ _
  · obtain ⟨r, hr, hn⟩ := ha.result
    rw [hu.keeps.initState] at hn
    rw [ha.rest]
    exact
      { transport := fun _ _ => ⟨hu.width, hu.rxEn⟩
        engaged := fun _ => hu.keeps.phase.trans hp
        waiting := fun k => absurd (.inr (hu.seq.trans hq)) k
        initIdle := by simp [hn, initAfter_ne_idle hi, hu.seq, hq]
        transient := fun _ => ⟨hu.ack, hu.rx⟩
        wordRead := fun k => by
          obtain ⟨rfl, huse⟩ := afterRead_of_writesReadWord (hn ▸ k)
          exact hu.word huse hr
        memory := hu.keeps.mem h.memory }
  · exact (h.with_opWdata w).stuck hp (.inr hq) hs

/-! ### Every step -/

/-- Settles O55: a call is made while no operation runs, so it starts from the invariant's clauses of a state at rest; a
step of `dp_init` starts from them too. -/
theorem stepKeepsInv : Obligations.StepKeepsInv := by
  intro s t h e
  rcases step_cases e with ⟨-, -, rfl⟩ | ⟨-, c, rest, i, -, -, e⟩ | ⟨hq, e⟩ | ⟨-, -, rfl⟩
  · exact h
  · exact exec_keeps_invariant (h.with_calls rest) e
  · exact initStep_keeps_invariant h hq e
  · exact h

/-- Settles O54: at power-on no operation runs, every output is none and memory has no cell. -/
theorem invAtReset : Obligations.InvAtReset where
  transport h := absurd rfl h
  engaged h := absurd rfl h
  waiting h := absurd (.inl rfl) h
  initIdle := by simp [State.reset]
  transient _ := ⟨rfl, rfl⟩
  wordRead h := by simp [State.reset, writesReadWord] at h
  memory := ⟨List.Pairwise.nil, fun _ h => by cases h⟩

/-! ### No step faults -/

theorem Run.Ends.of_done {P Q : State → Prop} {r : Run} {t : State} (h : r.Ends P Q) (e : r = .done t) : P t := by
  subst e; exact h

theorem Run.outcome_safe {r : Run} (h : ∀ e, r ≠ .fault e) (e : Fault) : r.outcome ≠ .fault e := by
  cases r with
  | fault x => exact absurd rfl (h x)
  | done t | hung t | refused x => exact fun k => by cases k

theorem callOnWire_safe {body : State → Run} {s : State} (h : ∀ e, body s ≠ .fault e) (e : Fault) :
    (callOnWire body s).outcome ≠ .fault e := by
  refine Run.outcome_safe (fun e => ?_) e
  unfold callOnWire
  split
  · split
    · exact h e
    · exact fun k => by cases k
  · exact fun k => by cases k

theorem WireOp.reported_safe {f : State → Run} (h : WireOp f) (s : State) :
    ∀ e, ((f s).andThen fun s => .done s.reports) ≠ .fault e :=
  Run.andThen_safe (h.safe s) fun _ _ _ k => by cases k

/-- The result that `RDAP` looks at is that of the read before it (R107). -/
theorem rdapTransactions_safe (p : Params) (slot : Slot) (s : State) : ∀ e, rdapTransactions p slot s ≠ .fault e := by
  refine Run.andThen_safe ((readTransaction_wireOp p .ap slot).safe s) fun u hu => ?_
  obtain ⟨r, hr, -⟩ := ((readTransaction_ends p .ap slot s).of_done hu).result
  rw [withResult_some hr]
  cases r with
  | ok => exact (readTransaction_wireOp p .dp .a3).reported_safe u.reports
  | wait | fault | noAck | parity | timeout => exact fun _ k => by cases k

/-- No call faults, from any state. -/
theorem exec_safe (i : Instr) (s : State) (e : Fault) : exec i s ≠ .fault e := by
  rcases instr_forms i with ⟨port, slot, hi⟩ | ⟨port, slot, v, hi⟩ | rfl | ⟨ref, rfl⟩ | rfl | rfl | rfl | rfl
  · rw [exec_readForm hi]
    exact callOnWire_safe ((readTransaction_wireOp Config.hw port slot).reported_safe s) e
  · rw [exec_writeForm hi]
    exact callOnWire_safe ((writeTransaction_wireOp Config.hw port slot v).reported_safe s) e
  · exact callOnWire_safe ((lineResetTransaction_wireOp Config.hw).reported_safe s) e
  · exact callOnWire_safe (rdapTransactions_safe Config.hw ref.slot s) e
  · exact callOnWire_safe (body := fun s => .done s.startsInit) (fun _ k => by cases k) e
  · simp only [exec, execInit]; split <;> exact fun k => by cases k
  · simp only [exec, execEngage]; split <;> exact fun k => by cases k
  · simp only [exec, execDisengage]; split <;> exact fun k => by cases k

/-- The outputs that the move after a transaction reads are those the transaction has written (R31). -/
theorem initAdvance_safe {u : State} (hr : ∃ r, u.result = some r ∧ r ≠ .timeout)
    (hv : usesWord u.initState = true → u.result = some .ok → u.value.isSome = true) (e : Fault) :
    initAdvance u ≠ .fault e := by
  obtain ⟨r, hr, -⟩ := hr
  obtain ⟨t, ht, -⟩ := initAdvance_ends ⟨r, hr⟩ hv
  rw [ht]
  exact fun k => by cases k

/-- A step of `dp_init` reads a word only where one has been read (R220). -/
theorem initStep_safe (p : Params) {s : State} (hw : writesReadWord s.initState = true → s.value.isSome = true) :
    ∀ e, initStep p s ≠ .fault e := by
  have reads : ∀ {f}, WireOp f → (f s).Ends (ReadEnded s) (Stuck s s.seq) → ∀ e, (f s).andThen initAdvance ≠ .fault e :=
    fun hf hr => Run.andThen_safe (hf.safe s) fun u hu =>
      have hu := hr.of_done hu
      initAdvance_safe hu.result fun _ => hu.value
  have read := fun port slot => reads (readTransaction_wireOp p port slot) (readTransaction_ends p port slot s)
  have write : usesWord s.initState = false → ∀ port slot v e,
      (writeTransaction p port slot v s).andThen initAdvance ≠ .fault e := fun hn port slot v =>
    Run.andThen_safe ((writeTransaction_wireOp p port slot v).safe s) fun u hu =>
      have hu := (writeTransaction_ends p port slot v s).of_done hu
      initAdvance_safe hu.result fun hk => by rw [hu.keeps.initState, hn] at hk; cases hk
  have rewrite : writesReadWord s.initState = true → usesWord s.initState = false → ∀ port slot (new : Word → Word) e,
      withValue s (fun w => (writeTransaction p port slot (new w) s).andThen initAdvance) ≠ .fault e := by
    intro hk hn port slot new
    obtain ⟨w, hv⟩ := Option.isSome_iff_exists.mp (hw hk)
    rw [withValue_some hv]
    exact write hn port slot (new w)
  unfold initStep
  cases hi : s.initState <;> rw [hi] at write rewrite <;> dsimp only
  case idle | done | failed => exact fun _ k => by cases k
  case s1Reset => exact reads (lineResetTransaction_wireOp p) (lineResetTransaction_ends p s)
  case s2SelBank15 | s5SelBank0 => exact write rfl _ _ _
  case s3ReadStat | s4ApReadIdr | s4ReadBuf | s6ApReadCsw | s6ReadBuf | s7ReadStat => exact read _ _
  case s3WriteStat => exact rewrite rfl rfl _ _ fun w => statWrite w cdbgPwrUpReq
  case s6WriteCsw => exact rewrite rfl rfl _ _ cswRewrite
  case s7WriteStat => exact rewrite rfl rfl _ _ fun w => statWrite w csysPwrUpReq

/-- A step from a state with the invariant reads no output that does not exist (R31). -/
theorem step_safe {s : State} (h : Invariant s) (e : Fault) : step s ≠ .fault e := by
  unfold step State.nextCall resume
  split
  · cases s.calls with
    | nil => exact fun k => by cases k
    | cons c rest =>
      dsimp only
      cases decode c with
      | ok i => exact exec_safe i _ e
      | error r => exact fun k => by cases k
  · refine Run.outcome_safe (fun e => ?_) e
    split
    · exact initStep_safe Config.hw h.wordRead e
    · exact fun k => by cases k

/-- No run of a machine faults whose steps keep a property and do not fault where it holds. -/
theorem run_never_faults {M : Host.Core} {I : M.State → Prop} (keeps : ∀ s t, I s → M.step s = .next t → I t)
    (safe : ∀ s e, I s → M.step s ≠ .fault e) (n : Nat) : ∀ s e, I s → M.run n s ≠ .fault e := by
  induction n with
  | zero => exact fun s e _ k => by cases k
  | succ n ih =>
    intro s e h
    rw [Host.Core.run]
    cases hs : M.step s with
    | next t => exact ih t e (keeps s t h hs)
    | fault x => exact absurd hs (safe s x h)
    | refused x => exact fun k => by cases k

/-- Settles O56: each step of a run keeps the invariant and does not fault where it holds. -/
theorem noRunFaults : Obligations.NoRunFaults := fun n s h e =>
  run_never_faults (M := core) (I := Invariant) stepKeepsInv (fun _ e h => step_safe h e) n s e h

end Sys2Proof.Machine
end

section
/-! What the operations leave unchanged (R35, R38, R42, R53 to R55, R63, R72), from any state: the frames of the read
forms, of the write forms and of the others, what sets the ghost, and what a step adds to the wire trace and to the
outputs. -/

namespace Sys2Proof.Machine

/-- Two words that agree on a mask agree on every part of it. -/
theorem and_of_and_mask {x y m k : Word} (h : x &&& m = y &&& m) (hk : m &&& k = k) : x &&& k = y &&& k := by
  rw [← hk, ← BitVec.and_assoc, ← BitVec.and_assoc, h]

/-! ### The engine across a call and a step -/

/-- The wire trace and the outputs have grown (R38). -/
structure Grows (s t : State) : Prop where
  trace   : ∃ l, t.trace = s.trace ++ l
  outputs : ∃ o, t.outputs = s.outputs ++ o

/-- What every transaction leaves, with its report or without. -/
structure KeepsPhase (s t : State) : Prop extends Grows s t where
  phase : t.phase = s.phase
  calls : t.calls = s.calls

/-- What every transaction that a caller calls leaves. -/
structure KeepsCall (s t : State) : Prop extends KeepsPhase s t where
  opWdata   : t.opWdata = s.opWdata
  initState : t.initState = s.initState
  idr       : t.idr = s.idr

theorem Grows.refl (s : State) : Grows s s := ⟨⟨[], by simp⟩, ⟨[], by simp⟩⟩

theorem Grows.trans {s t u : State} (h : Grows s t) (k : Grows t u) : Grows s u := by
  obtain ⟨⟨l, hl⟩, ⟨o, ho⟩⟩ := h
  obtain ⟨⟨m, hm⟩, ⟨p, hp⟩⟩ := k
  exact ⟨⟨l ++ m, by rw [hm, hl, List.append_assoc]⟩, ⟨o ++ p, by rw [hp, ho, List.append_assoc]⟩⟩

theorem KeepsCall.trans {s t u : State} (h : KeepsCall s t) (k : KeepsCall t u) : KeepsCall s u :=
  ⟨⟨h.toGrows.trans k.toGrows, k.phase.trans h.phase, k.calls.trans h.calls⟩, k.opWdata.trans h.opWdata,
    k.initState.trans h.initState, k.idr.trans h.idr⟩

theorem Keeps.call {s t : State} (h : Keeps s t) : KeepsCall s t :=
  ⟨⟨⟨h.trace, ⟨[], by simp [h.outputs]⟩⟩, h.phase, h.calls⟩, h.opWdata, h.initState, h.idr⟩

/-- The one output that a report adds (R38). -/
theorem Keeps.reports_outputs {s t : State} (h : Keeps s t) :
    t.reports.outputs = s.outputs ++ [(t.reports.value, t.reports.result)] := by
  rw [State.reports_outputs, h.outputs]; rfl

theorem Keeps.reports {s t : State} (h : Keeps s t) : KeepsCall s t.reports :=
  ⟨⟨⟨h.trace, ⟨_, h.reports_outputs⟩⟩, h.phase, h.calls⟩, h.opWdata, h.initState, h.idr⟩

/-- An engine that waits inside a call has not come back to Idle (R28). -/
theorem Stuck.seq_ne_nil {s t : State} (h : Stuck s [] t) : t.seq ≠ [] := by
  obtain ⟨l, hl, -, hseq⟩ := h.seq
  simpa [hseq] using hl

theorem callRead_keeps {port : Port} {slot : Slot} {s t : State} (e : callRead port slot s = .next t) :
    KeepsCall s t ∧ t.selShadow = s.selShadow := by
  obtain ⟨-, -, ⟨u, hu, rfl⟩ | ht⟩ := callRead_next e
  · exact ⟨hu.keeps.reports, hu.shadow⟩
  · exact ⟨ht.keeps.call, ht.shadow⟩

theorem execLineReset_keeps {s t : State} (e : execLineReset s = .next t) :
    KeepsCall s t ∧ t.selShadow = s.selShadow := by
  obtain ⟨-, -, ⟨u, hu, rfl⟩ | ht⟩ := execLineReset_next e
  · exact ⟨hu.keeps.reports, hu.shadow⟩
  · exact ⟨ht.keeps.call, ht.shadow⟩

theorem execRdap_keeps {ref : RegRef} {s t : State} (e : execRdap ref s = .next t) :
    KeepsCall s t ∧ t.selShadow = s.selShadow := by
  obtain ⟨-, -, ⟨u, hu, -, rfl⟩ | ⟨u, w, hu, -, hw, rfl⟩ | ht | ⟨u, hu, -, ht⟩⟩ := execRdap_next e
  · exact ⟨hu.keeps.reports, hu.shadow⟩
  · exact ⟨hu.keeps.reports.trans hw.keeps.reports, hw.shadow.trans hu.shadow⟩
  · exact ⟨ht.keeps.call, ht.shadow⟩
  · exact ⟨hu.keeps.reports.trans ht.keeps.call, ht.shadow.trans hu.shadow⟩

/-- A write starts by writing `op.wdata` (R27), and only one of SELECT sets the ghost (R35). -/
theorem callWrite_keeps {port : Port} {slot : Slot} {v : Word} {s t : State} (e : callWrite port slot v s = .next t) :
    KeepsCall { s with opWdata := v } t ∧ (¬ (port = .dp ∧ slot = .a2) → t.selShadow = s.selShadow) := by
  obtain ⟨-, -, ⟨u, hu, rfl⟩ | ht⟩ := callWrite_next e
  · exact ⟨hu.keeps.reports, fun hn => hu.shadow.trans (if_neg fun h => hn ⟨h.1, h.2.1⟩)⟩
  · exact ⟨ht.keeps.call, fun _ => ht.shadow⟩

/-- The session operations and the call of `DPINIT` touch neither the wire, the outputs nor the target. -/
theorem sessionCall_keeps {i : Instr} {s t : State} (hi : i = .init ∨ i = .engage ∨ i = .disengage ∨ i = .dpInit)
    (e : exec i s = .next t) : t.trace = s.trace ∧ t.outputs = s.outputs ∧ t.calls = s.calls ∧ t.opRef = s.opRef ∧
      t.opWdata = s.opWdata ∧ t.signals = s.signals ∧ t.draws = s.draws ∧ t.target = s.target := by
  rcases hi with rfl | rfl | rfl | rfl
  · simp only [exec, execInit] at e
    split at e <;> cases e
    exact ⟨rfl, rfl, rfl, rfl, rfl, rfl, rfl, rfl⟩
  · simp only [exec, execEngage] at e
    split at e <;> cases e
    exact ⟨rfl, rfl, rfl, rfl, rfl, rfl, rfl, rfl⟩
  · simp only [exec, execDisengage] at e
    split at e <;> cases e
    exact ⟨rfl, rfl, rfl, rfl, rfl, rfl, rfl, rfl⟩
  · obtain ⟨-, -, k⟩ := callOnWire_next e
    cases k
    exact ⟨rfl, rfl, rfl, rfl, rfl, rfl, rfl, rfl⟩

/-- A step of `dp_init` runs one transaction, or ends the call with one output (R220). -/
theorem initStep_keeps {p : Params} {s t : State} (e : (initStep p s).outcome = .next t) : KeepsPhase s t := by
  have ended : ∀ v r, KeepsPhase s (s.endsInit v r) := fun v r => ⟨⟨⟨[], by simp⟩, ⟨_, rfl⟩⟩, rfl, rfl⟩
  rcases initStep_next e with ⟨-, rfl⟩ | ⟨-, rfl⟩ | ⟨-, rfl⟩ | ⟨w, u, hu, ha⟩ | ⟨w, hs⟩
  · exact ⟨.refl t, rfl, rfl⟩
  · exact ended _ _
  · exact ended _ _
  · have k := hu.keeps.call
    rw [ha.rest]
    exact ⟨⟨k.trace, k.outputs⟩, k.phase, k.calls⟩
  · have k := hs.keeps.call
    exact ⟨⟨k.trace, k.outputs⟩, k.phase, k.calls⟩

theorem exec_grows {i : Instr} {s t : State} (e : exec i s = .next t) : Grows s t := by
  have session : (i = .init ∨ i = .engage ∨ i = .disengage ∨ i = .dpInit) → Grows s t := fun hi => by
    obtain ⟨htrace, houtputs, -⟩ := sessionCall_keeps hi e
    exact ⟨⟨[], by simp [htrace]⟩, ⟨[], by simp [houtputs]⟩⟩
  rcases instr_forms i with ⟨port, slot, hi⟩ | ⟨port, slot, v, hi⟩ | rfl | ⟨ref, rfl⟩ | hi | hi | hi | hi
  · exact (callRead_keeps (exec_readForm hi s ▸ e)).1.toGrows
  · have k := (callWrite_keeps (exec_writeForm hi s ▸ e)).1
    exact ⟨k.trace, k.outputs⟩
  · exact (execLineReset_keeps e).1.toGrows
  · exact (execRdap_keeps e).1.toGrows
  all_goals exact session (by simp [hi])

/-- Settles O58: every step is a transaction at most, and what comes back to Idle from a `RD`, a `WR` or a `LINERESET`
has reported once. -/
theorem traceAndOutputsGrow : Obligations.TraceAndOutputsGrow := by
  refine ⟨fun s t e => ?_, fun i s t hi e hq => ?_⟩
  · have g : Grows s t := by
      rcases step_cases e with ⟨-, -, rfl⟩ | ⟨-, c, rest, i, -, -, e⟩ | ⟨-, e⟩ | ⟨-, -, rfl⟩
      · exact .refl t
      · have k := exec_grows e
        exact ⟨k.trace, k.outputs⟩
      · exact (initStep_keeps e).toGrows
      · exact .refl t
    exact ⟨g.trace, g.outputs⟩
  · rcases hi with hi | hi | rfl
    · obtain ⟨⟨port, slot⟩, hi⟩ := Option.ne_none_iff_exists'.mp hi
      obtain ⟨-, -, ⟨u, hu, rfl⟩ | ht⟩ := callRead_next (exec_readForm hi s ▸ e)
      · exact hu.keeps.reports_outputs
      · exact absurd hq ht.seq_ne_nil
    · obtain ⟨⟨port, slot, v⟩, hi⟩ := Option.ne_none_iff_exists'.mp hi
      obtain ⟨-, -, ⟨u, hu, rfl⟩ | ht⟩ := callWrite_next (exec_writeForm hi s ▸ e)
      · exact hu.keeps.reports_outputs
      · exact absurd hq ht.seq_ne_nil
    · obtain ⟨-, -, ⟨u, hu, rfl⟩ | ht⟩ := execLineReset_next e
      · exact hu.keeps.reports_outputs
      · exact absurd hq ht.seq_ne_nil

/-! ### The frames -/

/-- Settles O31: the target has at most heard the header of the read, from any state and whatever the engine reads. -/
theorem readFrame : Obligations.ReadFrame := by
  intro i port slot s t hi e
  rw [exec_readForm hi] at e
  obtain ⟨k, hghost⟩ := callRead_keeps e
  have r := callRead_leaves e
  refine ⟨k.phase, k.opWdata, k.initState, k.idr, hghost, k.calls, r.dpidr, r.select, r.cfg, r.base, r.idr, r.again,
    and_of_and_mask r.stat (by decide), fun hp => and_of_and_mask (r.statDp hp) (by decide), fun hp hb => ?_, r.prompt,
    r.byte⟩
  exact r.buf hp (hb.imp id fun h => by rw [hp, h])

/-- Settles O32: the target has at most heard the header of the write and taken its word. -/
theorem writeFrame : Obligations.WriteFrame := by
  intro i port slot v s t hi e
  rw [exec_writeForm hi] at e
  obtain ⟨k, hghost⟩ := callWrite_keeps e
  have l := callWrite_leaves e
  exact ⟨k.phase, k.opWdata, k.initState, k.idr, k.calls, fun hn => ⟨hghost hn, l.select hn⟩, l.dpidr, l.cfg, l.base,
    l.idr, l.again, l.resent, l.buf, l.csw, l.tar, fun hp => and_of_and_mask (l.stat hp) (by decide),
    fun hp h0 h1 => and_of_and_mask (l.statDp hp h0 h1) (by decide), l.byte⟩

/-- What one read of the target or more leaves of it. -/
structure KeepsBank (t u : Target) : Prop where
  select : u.select = t.select
  byte   : ∀ x, outside (postedAddress t) x → u.mem.read x = t.mem.read x
  csw    : t.posted = none → u.csw = t.csw

theorem ReadsOnly.keepsBank {r : RegRef} {t u : Target} (h : ReadsOnly r t u) : KeepsBank t u :=
  ⟨h.select, h.byte, fun hp => (h.prompt hp).2.1⟩

/-- A second read finds no write posted, or the one the first has found. -/
theorem ReadsOnly.keepsBank_twice {r r' : RegRef} {t u v : Target} (h : ReadsOnly r t u) (k : ReadsOnly r' u v) :
    KeepsBank t v :=
  ⟨k.select.trans h.select, fun x hx => (k.byte x (h.posted x hx)).trans (h.byte x hx), fun hp =>
    (k.prompt (h.prompt hp).1).2.1.trans (h.prompt hp).2.1⟩

/-- Settles O33: a line reset is to the target one read and `RDAP` one or two; a step of `dp_init` is a transaction that
stores nothing itself. -/
theorem otherFrames : Obligations.OtherFrames := by
  refine ⟨fun i s t hi e => ?_, fun i s t hi e => sessionCall_keeps hi e, fun s t hq e => ?_⟩
  · have frame : (KeepsCall s t ∧ t.selShadow = s.selShadow) ∧ KeepsBank s.target t.target := by
      rcases hi with rfl | ⟨ref, rfl⟩
      · exact ⟨execLineReset_keeps e, (execLineReset_leaves e).keepsBank⟩
      · exact ⟨execRdap_keeps e, (execRdap_leaves e).elim (fun h => h.keepsBank) fun ⟨_, h, k⟩ => h.keepsBank_twice k⟩
    obtain ⟨⟨k, hghost⟩, b⟩ := frame
    exact ⟨k.phase, k.opWdata, k.initState, k.idr, hghost, k.calls, b.select, b.byte, b.csw⟩
  · simp only [step, resume, hq, if_true, if_false, reduceCtorEq] at e
    have k := initStep_keeps e
    exact ⟨k.phase, k.calls, ((initStep_leaves Config.hw s).next e).elim (fun h => h.byte) fun h => h.byte⟩

/-! ### The identity registers -/

/-- The registers that identify the target (R42, R53 to R55). -/
structure KeepsIdentity (t u : Target) : Prop where
  dpidr : u.dpidr = t.dpidr
  cfg   : u.cfg = t.cfg
  base  : u.base = t.base
  idr   : u.idr = t.idr

theorem ReadsOnly.keepsIdentity {r : RegRef} {t u : Target} (h : ReadsOnly r t u) : KeepsIdentity t u :=
  ⟨h.dpidr, h.cfg, h.base, h.idr⟩

theorem KeepsIdentity.trans {t u v : Target} (h : KeepsIdentity t u) (k : KeepsIdentity u v) : KeepsIdentity t v :=
  ⟨k.dpidr.trans h.dpidr, k.cfg.trans h.cfg, k.base.trans h.base, k.idr.trans h.idr⟩

theorem exec_keepsIdentity {i : Instr} {s t : State} (e : exec i s = .next t) : KeepsIdentity s.target t.target := by
  have session : (i = .init ∨ i = .engage ∨ i = .disengage ∨ i = .dpInit) → KeepsIdentity s.target t.target := fun hi => by
    obtain ⟨-, -, -, -, -, -, -, htarget⟩ := sessionCall_keeps hi e
    rw [htarget]; exact ⟨rfl, rfl, rfl, rfl⟩
  rcases instr_forms i with ⟨port, slot, hi⟩ | ⟨port, slot, v, hi⟩ | rfl | ⟨ref, rfl⟩ | hi | hi | hi | hi
  · exact (callRead_leaves (exec_readForm hi s ▸ e)).keepsIdentity
  · have l := callWrite_leaves (exec_writeForm hi s ▸ e)
    exact ⟨l.dpidr, l.cfg, l.base, l.idr⟩
  · exact (execLineReset_leaves e).keepsIdentity
  · exact (execRdap_leaves e).elim (fun h => h.keepsIdentity) fun ⟨_, h, k⟩ => h.keepsIdentity.trans k.keepsIdentity
  all_goals exact session (by simp [hi])

/-- Settles O34: no header heard and no word taken changes them. -/
theorem identityRegistersReadOnly : Obligations.IdentityRegistersReadOnly := by
  intro s t e
  have k : KeepsIdentity s.target t.target := by
    rcases step_cases e with ⟨-, -, rfl⟩ | ⟨-, c, rest, i, -, -, e⟩ | ⟨-, e⟩ | ⟨-, -, rfl⟩
    · exact ⟨rfl, rfl, rfl, rfl⟩
    · have k := exec_keepsIdentity e
      exact ⟨k.dpidr, k.cfg, k.base, k.idr⟩
    · have l := ((initStep_leaves Config.hw s).next e).elim id id
      exact ⟨l.dpidr, l.cfg, l.base, l.idr⟩
    · exact ⟨rfl, rfl, rfl, rfl⟩
  exact ⟨k.dpidr, k.cfg, k.base, k.idr⟩

/-! ### What sets the ghost -/

theorem exec_keepsGhost {i : Instr} {s t : State} (e : exec i s = .next t) (hinit : i ≠ .init)
    (hsel : ∀ v, writeForm i ≠ some (.dp, .a2, v)) : t.selShadow = s.selShadow := by
  rcases instr_forms i with ⟨port, slot, hi⟩ | ⟨port, slot, v, hi⟩ | rfl | ⟨ref, rfl⟩ | rfl | rfl | rfl | rfl
  · exact (callRead_keeps (exec_readForm hi s ▸ e)).2
  · refine (callWrite_keeps (exec_writeForm hi s ▸ e)).2 ?_
    rintro ⟨rfl, rfl⟩
    exact hsel v hi
  · exact (execLineReset_keeps e).2
  · exact (execRdap_keeps e).2
  · obtain ⟨-, -, k⟩ := callOnWire_next e
    cases k; rfl
  · exact absurd rfl hinit
  · simp only [exec, execEngage] at e
    split at e <;> cases e; rfl
  · simp only [exec, execDisengage] at e
    split at e <;> cases e; rfl

/-- The two words of SELECT that `dp_init` writes (R220 S2, S5). -/
theorem initSelect_cases {i : InitState} {w : Word} (h : initSelect i = some w) :
    (i = .s2SelBank15 ∧ w = 0x000000F0) ∨ (i = .s5SelBank0 ∧ w = 0x00000000) := by
  cases i <;> cases h
  · exact .inl ⟨rfl, by decide⟩
  · exact .inr ⟨rfl, by decide⟩

/-- Settles O36: the ghost is set where a write of SELECT ends OK and nowhere else but by `INIT`. -/
theorem selShadowRule : Obligations.SelShadowRule := by
  refine ⟨fun i s t e => exec_keepsGhost e, fun i v s t hi e hq => ?_, fun s t e => ?_, fun s t hq e => ?_⟩
  · obtain ⟨-, -, ⟨u, hu, rfl⟩ | ht⟩ := callWrite_next (exec_writeForm hi s ▸ e)
    · by_cases hok : u.result = some .ok <;> simp [hu.shadow, hok]
    · exact absurd hq ht.seq_ne_nil
  · simp only [exec, execInit] at e
    split at e <;> cases e; rfl
  · simp only [step, resume, hq, if_true, if_false, reduceCtorEq] at e
    rcases initStep_next e with ⟨-, rfl⟩ | ⟨-, rfl⟩ | ⟨-, rfl⟩ | ⟨w, u, hu, ha⟩ | ⟨w, hs⟩
    · exact .inl rfl
    · exact .inl rfl
    · exact .inl rfl
    · have hshadow : t.selShadow = u.selShadow := by rw [ha.rest]
      have hresult : t.result = u.result := by rw [ha.rest]
      rw [hshadow, hresult, hu.shadow]
      by_cases hok : u.result = some .ok
      · cases hsel : initSelect s.initState with
        | none => exact .inl (by simp [hok])
        | some x =>
          rcases initSelect_cases hsel with ⟨hi, rfl⟩ | ⟨hi, rfl⟩
          · exact .inr (.inl ⟨hi, hok, by simp [hok]⟩)
          · exact .inr (.inr ⟨hi, hok, by simp [hok]⟩)
      · exact .inl (if_neg hok)
    · exact .inl hs.shadow

/-! ### Reset values and the decoding of a call -/

/-- Settles O9: both columns of R39's table. -/
theorem resetTable : Obligations.ResetTable := by
  refine ⟨⟨rfl, rfl, rfl, rfl, rfl, rfl, rfl, rfl, rfl⟩, fun s h => ⟨s.initialised, ?_⟩⟩
  exact ⟨if_pos h, rfl, rfl, rfl, rfl, rfl, rfl, rfl, rfl, rfl, rfl, rfl⟩

/-- A step while no operation runs takes up the next call. -/
theorem step_decoded {s : State} {c : CallWord} {rest : List CallWord} {i : Instr} (hq : s.seq = [])
    (hc : s.calls = c :: rest) (hd : decode c = .ok i) : step s = exec i { s with calls := rest } := by
  simp only [step, hq, State.nextCall, hc, hd, if_true]

/-- Settles O57: a step is `decode` and `exec` of the next call word, or the step of `dp_init` in progress. -/
theorem stepRunsDecodedCall : Obligations.StepRunsDecodedCall := by
  refine ⟨fun s c rest i hq hc hd => ?_, fun s c rest e hq hc hd => ?_, fun s hq hc => ?_, fun s hq => ?_,
    fun s nbits w i hq hd => ?_⟩
  · exact step_decoded hq hc hd
  · simp only [step, hq, State.nextCall, hc, hd, if_true]
  · simp only [step, hq, State.nextCall, hc, if_true]
  · simp only [step, resume, hq, if_true, if_false, reduceCtorEq]
  · have hd' : decode (tableWord nbits w) = .ok i := by
      unfold decodeTableWord at hd
      split at hd <;> cases hd
      assumption
    exact step_decoded (s := s.withFetchWord nbits w) hq rfl hd'

end Sys2Proof.Machine
end

section
/-! What a conforming target that answers OK does to its registers (R42 to R48, R52, R72, R215, R223, R225): the DP
reads, and the writes of SELECT, STAT and DRW, each without a line error and with no write posted before it. -/

namespace Sys2Proof.Machine

variable {i : Instr} {s : State} {c : Choice} {rest : List Reply} {port : Port} {slot : Slot} {v : Word}

/-! ### A read and a write answered OK -/

/-- The target that has met a header and answered it OK, where the transaction does not spare an unread buffer: the word
in it is lost (R302). -/
def Target.metLosing (t : Target) (c : Choice) (rest : List Reply) (lost : Word) : Target :=
  { t.meets c rest with buf := if t.unread then lost else t.buf, unread := false }

section
variable (t : Target) (c : Choice) (rest : List Reply) (lost : Word)

@[simp] theorem Target.metLosing_stat : (t.metLosing c rest lost).stat = (t.meets c rest).stat := rfl
@[simp] theorem Target.metLosing_script : (t.metLosing c rest lost).script = rest := t.meets_script c rest
@[simp] theorem Target.metLosing_select : (t.metLosing c rest lost).select = t.select := t.meets_select c rest
@[simp] theorem Target.metLosing_csw : (t.metLosing c rest lost).csw = t.csw := t.meets_csw c rest
@[simp] theorem Target.metLosing_tar : (t.metLosing c rest lost).tar = t.tar := t.meets_tar c rest
@[simp] theorem Target.metLosing_cfg : (t.metLosing c rest lost).cfg = t.cfg := t.meets_cfg c rest
@[simp] theorem Target.metLosing_posted : (t.metLosing c rest lost).posted = t.posted := t.meets_posted c rest
@[simp] theorem Target.metLosing_mem : (t.metLosing c rest lost).mem = t.mem := t.meets_mem c rest

end

theorem Target.with_out_nil {t : Target} (h : t.out = []) : { t with out := [] } = t := by
  rw [← h]

/-- A read that a conforming target answers OK, with the right parity bit and no write posted before it. -/
theorem exec_read_answered (hi : readForm i = some (port, slot)) (h : ReadyIdle s)
    (hs : s.target.script = .conforming c :: rest) (ha : c.ack = .ok) (hf : c.flipParity = false)
    (hp : s.target.posted = none) (hk : port = .ap → s.target.sticky = false) :
    let answer := (s.target.meets c rest).readWord (Config.freeWord s.draws) c (mkRef port .read slot)
    ∃ u, exec i s = .next u ∧ u.result = some .ok ∧ u.value = some answer.1 ∧ u.target = answer.2 := by
  intro answer
  obtain ⟨-, hvalue, hresult, -, htarget⟩ := conforming_read (port := port) (slot := slot)
    (Target.coming_script _ hs) (ackFor_ok ha (by simpa [mkRef] using hk))
  rw [Target.performPosted_none _ _ (by simpa using hp)] at hvalue htarget
  refine ⟨(s.readEnds port slot).reports, by rw [exec_readForm hi, callRead_ready h], ?_, ?_, ?_⟩
  · simpa [hf] using hresult
  · rw [State.reports_value, hvalue]
  · rw [State.reports_target, htarget]
    exact Target.with_out_nil (by simp)

/-- A write that a conforming target answers OK, with no line error and no write posted before it. -/
theorem exec_write_taken (hi : writeForm i = some (port, slot, v)) (h : ReadyIdle s)
    (hs : s.target.script = .conforming c :: rest) (ha : c.ack = .ok) (hf : c.flipParity = false)
    (hp : s.target.posted = none) (hk : port = .ap → s.target.sticky = false) :
    ∃ t lost fresh, exec i s = .next t ∧ ReadyIdle t ∧ t.result = some .ok ∧
      t.selShadow = (if port = .dp ∧ slot = .a2 then some v else s.selShadow) ∧
      t.target = match port with
        | .dp => (s.target.metLosing c rest lost).dpWrite fresh slot v
        | .ap => (s.target.metLosing c rest lost).apTakes fresh c slot v := by
  obtain ⟨-, hresult, -, hghost, htarget⟩ := conforming_write (port := port) (slot := slot) (v := v)
    (Target.coming_script _ hs) (ackFor_ok ha (by simpa [mkRef] using hk))
  rw [Target.performPosted_none _ _ (by simpa using hp), ite_self, takes_whole rfl hf,
    Target.losesBuffer_form _ _ (by simp [Choice.spares, mkRef])] at htarget
  refine ⟨(s.writeEnds port slot v).reports, Config.freeWord s.draws 4, Config.freeWord (s.draws + 5),
    by rw [exec_writeForm hi, callWrite_ready h], h.writeEnds port slot v, ?_, ?_, ?_⟩
  · rw [State.reports_result, hresult]
  · rw [State.reports_selShadow, hghost]
  rw [State.reports_target, htarget]
  have met : s.target.metLosing c rest (Config.freeWord s.draws 4) =
      { s.target.meets c rest with
        buf := if (s.target.meets c rest).unread then Config.freeWord s.draws 4 else (s.target.meets c rest).buf
        unread := false, out := [], taking := none } := by
    unfold Target.metLosing Target.meets
    cases c.powerAck <;> rfl
  rw [met]
  cases port <;> rfl

/-! ### The DP reads -/

/-- A transaction that does not spare the buffer changes nothing else, and of the buffer only an unread word. -/
theorem Target.losesBuffer_buffered (fresh : Nat → Word) {c : Choice} {r : RegRef} (t : Target) (h : ¬ c.spares r) :
    t.losesBuffer fresh c r = { t with buf := (t.losesBuffer fresh c r).buf, unread := false } ∧
      (t.unread = false → (t.losesBuffer fresh c r).buf = t.buf) := by
  rw [Target.losesBuffer_form fresh t h]
  exact ⟨rfl, fun hu => by simp [hu]⟩

/-- A read that leaves its target as the header found it, or that loses an unread word of the buffer. -/
theorem Target.losesBuffer_quiet (fresh : Nat → Word) (c : Choice) {r : RegRef} (t : Target)
    (hr : r = mkRef .dp .read .a0 ∨ r = mkRef .dp .read .a1) :
    if c.dropsUnread = true then
      t.losesBuffer fresh c r = { t with buf := (t.losesBuffer fresh c r).buf, unread := false } ∧
        (t.unread = false → (t.losesBuffer fresh c r).buf = t.buf)
    else t.losesBuffer fresh c r = t := by
  split
  · rename_i hd
    refine t.losesBuffer_buffered fresh ?_
    rcases hr with rfl | rfl <;> simp [Choice.spares, mkRef, hd]
  · rename_i hd
    exact t.losesBuffer_spared fresh (.inr ⟨by simpa using hd, hr⟩)

/-- Settles O45: the word each read sends is the register's, and what it changes is the buffer's loss. -/
theorem dpReadsReturnRegisters : Obligations.DpReadsReturnRegisters := by
  intro s c rest h hs ha hf hp t buffered quiet
  have read := fun (i : Instr) (slot : Slot) (hi : readForm i = some (.dp, slot)) =>
    exec_read_answered hi h hs ha hf hp (fun k => by cases k)
  have hunread : t.unread = s.target.unread := Target.meets_unread _ _ _
  have hbuf : t.buf = s.target.buf := Target.meets_buf _ _ _
  refine ⟨?_, fun hbank => ?_, ?_, ?_⟩
  · obtain ⟨u, e, hresult, hvalue, htarget⟩ := read .rdDpDpidr .a0 rfl
    refine ⟨u, e, hresult, ?_, ?_⟩
    · rw [hvalue]; simp [Target.readWord, mkRef, Target.dpidrRead]
    · simp only [quiet, buffered, htarget, ← hunread, ← hbuf]
      exact t.losesBuffer_quiet _ c (.inl rfl)
  · obtain ⟨u, e, hresult, hvalue, htarget⟩ := read .rdDpStat .a1 rfl
    refine ⟨u, e, hresult, ?_, ?_⟩
    · rw [hvalue]; simp [Target.readWord, mkRef, Target.statRead, statReserved, hbank, t]
    · simp only [quiet, buffered, htarget, ← hunread, ← hbuf]
      exact t.losesBuffer_quiet _ c (.inr rfl)
  · obtain ⟨u, e, hresult, hvalue, htarget⟩ := read .rdDpResend .a2 rfl
    refine ⟨u, e, hresult, ?_, ?_⟩
    · rw [hvalue]; simp [Target.readWord, mkRef]
    · simp only [buffered, htarget, ← hunread, ← hbuf]
      exact t.losesBuffer_buffered _ (by simp [Choice.spares, mkRef])
  · obtain ⟨u, e, hresult, hvalue, htarget⟩ := read .rdDpRdbuff .a3 rfl
    refine ⟨u, e, hresult, ?_, ?_⟩
    · rw [hvalue]; simp [Target.readWord, mkRef]
    · rw [htarget, ← hbuf]; rfl

/-! ### The write of SELECT -/

/-- Settles O48: the word written is SELECT as it stands, whose fields are those of R45. -/
theorem selectWriteSelectsBank : Obligations.SelectWriteSelectsBank := by
  intro v s c rest h hs ha hf hp
  obtain ⟨t, lost, fresh, e, -, hresult, hghost, htarget⟩ :=
    exec_write_taken (i := .wrDpSelect v) rfl h hs ha hf hp (fun k => by cases k)
  simp only [Target.dpWrite] at htarget
  refine ⟨t, e, hresult, hghost, ?_, fun hu => ?_, ?_, ?_, ?_⟩
  · rw [htarget]; rfl
  · rw [htarget]; simp [Target.metLosing, hu]
  all_goals rw [htarget]; rfl

/-! ### The power-up handshake -/

theorem merge_getLsbD (mask old new : Word) (k : Nat) :
    (merge mask old new).getLsbD k = if mask.getLsbD k then new.getLsbD k else old.getLsbD k := by
  rcases Nat.lt_or_ge k 32 with hk | hk
  · simp only [merge, BitVec.getLsbD_or, BitVec.getLsbD_and, BitVec.getLsbD_not, hk, decide_true, Bool.true_and]
    cases mask.getLsbD k <;> simp
  · simp only [BitVec.getLsbD_of_ge _ k hk, ite_self]

/-- STAT as it reads when a word has been written to it and the target has then acknowledged what it requests (R43). -/
def statReadBack (old w : Word) : Word :=
  merge statAcks (merge statWritable old w) (merge statWritable old w <<< 1) &&& ~~~statReserved

/-- A bit that is written and is no acknowledge reads back as it was written. -/
theorem statReadBack_written (old w : Word) {k : Nat} (hk : k < 32) (ha : statAcks.getLsbD k = false)
    (hw : statWritable.getLsbD k = true) (hr : statReserved.getLsbD k = false) :
    (statReadBack old w).getLsbD k = w.getLsbD k := by
  simp only [statReadBack, BitVec.getLsbD_and, BitVec.getLsbD_not, merge_getLsbD, ha, hw, hr, hk, if_true, decide_true,
    Bool.false_eq_true, if_false, Bool.not_false, Bool.and_true]

/-- An acknowledge reads back as its request was written, one bit below it. -/
theorem statReadBack_acknowledge (old w : Word) {k : Nat} (hk : k + 1 < 32) (ha : statAcks.getLsbD (k + 1) = true)
    (hw : statWritable.getLsbD k = true) (hr : statReserved.getLsbD (k + 1) = false) :
    (statReadBack old w).getLsbD (k + 1) = w.getLsbD k := by
  simp only [statReadBack, BitVec.getLsbD_and, BitVec.getLsbD_not, BitVec.getLsbD_shiftLeft, merge_getLsbD, ha, hw, hr, hk,
    if_true, decide_true, Bool.not_false, Bool.and_true, Bool.true_and, Nat.add_sub_cancel]
  simp

/-- A field that is written and holds no acknowledge reads back as it was written. -/
theorem statReadBack_field (old w m : Word) (ha : statAcks &&& m = 0) (hw : statWritable &&& m = m)
    (hr : ~~~statReserved &&& m = m) : statReadBack old w &&& m = w &&& m := by
  rw [statReadBack, BitVec.and_assoc, hr, merge_outside _ _ _ _ ha, merge_inside _ _ _ _ hw]

/-- What a target acknowledges before it answers, it acknowledges as requested (R43). -/
theorem Target.meets_acknowledged (t : Target) {c : Choice} (rest : List Reply) (h : c.powerAck = true) :
    (t.meets c rest).stat = merge statAcks t.stat (t.stat <<< 1) := by
  simp only [Target.meets, h, if_true, Target.acknowledgePower]

/-- A write of STAT and a read of it, both answered OK: the bits that no acknowledge holds read as they were written,
and an acknowledge as its request (R43). -/
theorem stat_write_read {s : State} {c d : Choice} {rest : List Reply} (w : Word) (h : ReadyIdle s)
    (hs : s.target.script = .conforming c :: .conforming d :: rest) (hc : c.ack = .ok) (hcf : c.flipParity = false)
    (hd : d.ack = .ok) (hdf : d.flipParity = false) (hpow : d.powerAck = true) (hp : s.target.posted = none)
    (hbank : dpBankSel s.target.select = 0) :
    ∃ t u old, exec (.wrDpStat w) s = .next t ∧ exec .rdDpStat t = .next u ∧ u.result = some .ok ∧
      u.value = some (statReadBack old w) := by
  obtain ⟨t, lost, fresh, e, ht, -, -, htarget⟩ :=
    exec_write_taken (i := .wrDpStat w) rfl h hs hc hcf hp (fun k => by cases k)
  simp only [Target.dpWrite, Target.metLosing_select, hbank, if_true] at htarget
  have hscript : t.target.script = .conforming d :: rest := by simp [htarget]
  have hposted : t.target.posted = none := by simpa [htarget] using hp
  have hselect : dpBankSel t.target.select = 0 := by simpa [htarget] using hbank
  have hstat : t.target.stat = merge statWritable (s.target.meets c (.conforming d :: rest)).stat w := by simp [htarget]
  obtain ⟨u, e', hresult, hvalue, -⟩ :=
    exec_read_answered (i := .rdDpStat) rfl ht hscript hd hdf hposted (fun k => by cases k)
  refine ⟨t, u, (s.target.meets c (.conforming d :: rest)).stat, e, e', hresult, hvalue.trans (congrArg some ?_)⟩
  simp only [Target.readWord, mkRef, Target.meets_select, hselect, if_true, Target.statRead,
    t.target.meets_acknowledged rest hpow, hstat, statReadBack]

/-- Settles O49: a request written reads back acknowledged, the fields of the step-3 test as the write has them. -/
theorem powerHandshake : Obligations.PowerHandshake := by
  intro x s c d rest h hs hc hcf hd hdf hpow hp hbank
  have written := fun w => stat_write_read w h hs hc hcf hd hdf hpow hp hbank
  constructor
  · obtain ⟨t, u, old, e, e', hresult, hvalue⟩ := written ((x &&& 0x54000000) ||| 0x10000000)
    refine ⟨t, u, _, e, e', hvalue, hresult, ?_, ?_⟩
    · rw [statReadBack_acknowledge (k := 28) _ _ (by decide) (by decide) (by decide) (by decide)]
      simp
    · rw [statReadBack_field _ _ _ (by decide) (by decide) (by decide), or_outside _ _ _ (by decide), BitVec.and_assoc]
      simp
  · obtain ⟨t, u, old, e, e', hresult, hvalue⟩ := written ((x &&& 0x54000000) ||| 0x40000000)
    refine ⟨t, u, _, e, e', hvalue, hresult, ?_, ?_⟩
    · rw [statReadBack_acknowledge (k := 30) _ _ (by decide) (by decide) (by decide) (by decide)]
      simp
    · rw [statReadBack_written _ _ (by decide) (by decide) (by decide) (by decide)]
      simp

/-! ### The write of DRW -/

/-- A write of DRW in the bank SELECT names: the word is stored, then TAR moves on (R52, R215). -/
theorem Target.apWrite_drw (fresh : Nat → Word) {t : Target} {slot : Slot} (v : Word)
    (hslot : t.slotNames slot = some .drw) (hplain : t.plainDrw = true) :
    t.apWrite fresh { select := t.select, slot := slot, word := v } =
      Target.advance fresh { t with mem := t.mem.writeWord t.bigEndian t.drwAddress v } := by
  unfold Target.slotNames at hslot
  split at hslot
  · rename_i hap
    simp only [Target.apWrite, hap, hslot, hplain, if_true]
  · cases hslot

/-- A write of DRW that reaches the AP and is performed at once. -/
theorem Target.apTakes_drw (fresh : Nat → Word) {c : Choice} {t : Target} {slot : Slot} (v : Word)
    (hreach : t.apReached c = true) (hpost : c.post = false) (hslot : t.slotNames slot = some .drw)
    (hplain : t.plainDrw = true) :
    t.apTakes fresh c slot v = Target.advance fresh { t with mem := t.mem.writeWord t.bigEndian t.drwAddress v } := by
  simp only [Target.apTakes, hreach, hpost, if_true, Bool.false_eq_true, if_false]
  exact Target.apWrite_drw fresh v hslot hplain

theorem Target.advance_tar_off (fresh : Nat → Word) {t : Target} (h : cswAddrInc t.csw = 0) :
    (t.advance fresh).tar = t.tar := by
  simp [Target.advance, h]

theorem Target.advance_tar_single (fresh : Nat → Word) {t : Target} (h : cswAddrInc t.csw = 1)
    (hplain : t.plainDrw = true) : (t.advance fresh).tar = t.tar + 4 := by
  simp [Target.advance, h, hplain]

/-- Settles O52: the write is performed on the target as it has met the header, whose TAR, CSW, CFG and memory are those
it had. -/
theorem drwWriteStoresWord : Obligations.DrwWriteStoresWord := by
  intro i v s c rest hi h hs ha hf hpost hp hk hreach hslot hplain hwf
  obtain ⟨t, lost, fresh, e, -, hresult, -, htarget⟩ := exec_write_taken hi h hs ha hf hp fun _ => hk
  let T := s.target.metLosing c rest lost
  have hT : T.apReached c = true := hreach
  have hTslot : T.slotNames .a3 = some .drw := by simpa [T, Target.slotNames] using hslot
  have hTplain : T.plainDrw = true := by simpa [T, Target.plainDrw] using hplain
  have hbig : T.bigEndian = s.target.bigEndian := by simp [T, Target.bigEndian]
  have haddr : T.drwAddress = s.target.drwAddress := by simp [T, Target.drwAddress]
  have performed : t.target = Target.advance fresh { T with mem := T.mem.writeWord T.bigEndian T.drwAddress v } :=
    htarget.trans (Target.apTakes_drw fresh v hT hpost hTslot hTplain)
  have hmem : t.target.mem = s.target.mem.writeWord s.target.bigEndian s.target.drwAddress v := by
    rw [performed, Target.advance_mem, hbig, haddr]
    simp only [T, Target.metLosing_mem]
  refine ⟨t, e, hresult, ?_, fun x hx => ?_, fun hinc => ?_, fun hinc => ?_⟩
  · rw [hmem, Memory.readWord_writeWord _ _ _ _ hwf]
  · rw [State.byte, hmem, Memory.read_writeWord_outside _ _ _ _ _ hx]; rfl
  · rw [performed, Target.advance_tar_off _ (by simpa [T] using hinc)]; simp [T]
  · rw [performed, Target.advance_tar_single _ (by simpa [T] using hinc) (by exact hTplain)]; simp [T]

end Sys2Proof.Machine
end

section
/-! What persists in the target and what reads one behind (R63, R64, R65, R67, R107, R202, R308): the selected bank, the
RDBUFF read that follows an AP read of `dp_init`, the AP read and `RDAP`, and a posted AP write with what follows it. -/

namespace Sys2Proof.Machine

/-! ### The selected bank -/

/-- Settles O35: no header heard changes SELECT, and of the words taken only that of DP slot 2. -/
theorem bankPersists : Obligations.BankPersists := by
  intro i s t hsel e
  have session (hi : i = .init ∨ i = .engage ∨ i = .disengage ∨ i = .dpInit) : t.target.select = s.target.select := by
    obtain ⟨-, -, -, -, -, -, -, htarget⟩ := sessionCall_keeps hi e
    rw [htarget]
  rcases instr_forms i with ⟨port, slot, hi⟩ | ⟨port, slot, v, hi⟩ | rfl | ⟨ref, rfl⟩ | hi | hi | hi | hi
  · exact (callRead_leaves (exec_readForm hi s ▸ e)).select
  · refine (callWrite_leaves (exec_writeForm hi s ▸ e)).select ?_
    rintro ⟨rfl, rfl⟩
    exact hsel v hi
  · exact (execLineReset_leaves e).select
  · exact (execRdap_leaves e).elim (fun h => h.select) fun ⟨_, h, k⟩ => k.select.trans h.select
  all_goals exact session (by simp [hi])

/-! ### The reads of `dp_init` -/

/-- The read that a state of `dp_init` makes, if it makes one (R220). -/
def initReads (i : InitState) : Option (Port × Slot) :=
  match i with
  | .s3ReadStat | .s7ReadStat => some (.dp, .a1)
  | .s4ApReadIdr => some (.ap, .a3)
  | .s6ApReadCsw => some (.ap, .a0)
  | .s4ReadBuf | .s6ReadBuf => some (.dp, .a3)
  | .idle | .s1Reset | .s2SelBank15 | .s3WriteStat | .s5SelBank0 | .s6WriteCsw | .s7WriteStat | .done | .failed => none

theorem initStep_reads (p : Params) {s : State} {port : Port} {slot : Slot}
    (hi : initReads s.initState = some (port, slot)) :
    initStep p s = (readTransaction p port slot s).andThen initAdvance := by
  unfold initStep
  cases hk : s.initState <;> simp only [hk, initReads, Option.some.injEq, Prod.mk.injEq, reduceCtorEq] at hi <;>
    (obtain ⟨rfl, rfl⟩ := hi; rfl)

/-- A read of `dp_init` on a ready engine is the whole read and the move after it (R221). -/
theorem step_reads {s : State} {port : Port} {slot : Slot} (h : ReadyInit s)
    (hi : initReads s.initState = some (port, slot)) : ∃ t, step s = .next t ∧ Advanced (s.readEnds port slot) t := by
  have whole := readTransaction_ready h.toReady Config.hw port slot
  have ended := (readTransaction_ends Config.hw port slot s).of_done whole
  obtain ⟨r, hr, -⟩ := ended.result
  obtain ⟨t, ht, moved⟩ := initAdvance_ends ⟨r, hr⟩ fun _ => ended.value
  obtain ⟨-, -, -, inDpInit, -⟩ := stepRunsDecodedCall
  refine ⟨t, ?_, moved⟩
  rw [inDpInit s h.seq, initStep_reads _ hi, Run.andThen_eq _ whole, ht]
  rfl

/-- The move of the state machine leaves what the transaction left (R221). -/
theorem Advanced.leaves {u t : State} (k : Advanced u t) :
    t.opRef = u.opRef ∧ t.trace = u.trace ∧ t.result = u.result := by
  rw [k.rest]
  exact ⟨rfl, rfl, rfl⟩

theorem Advanced.readyInit {s t : State} {port : Port} {slot : Slot} (h : ReadyInit s)
    (k : Advanced (s.readEnds port slot) t) : ReadyInit t := by
  obtain ⟨hphase, hwidth, hrxEn, hsignals⟩ := h.toReady.readEnds port slot
  have hseq : (s.readEnds port slot).seq = [.dpInit] := (readEnds_seq s port slot).trans h.seq
  rw [k.rest]
  exact ⟨⟨hphase, hwidth, hrxEn, hsignals⟩, hseq⟩

/-- A whole read opens with its header (R99). -/
theorem readEnds_trace (s : State) (port : Port) (slot : Slot) :
    ∃ l, (s.readEnds port slot).trace = s.trace ++ headerCycles (mkRef port .read slot) ++ l := by
  simp only [State.readEnds]
  split <;> exact ⟨_, rfl⟩

/-- Where an AP read of `dp_init` is answered OK the state machine goes to an RDBUFF read (R221, R226). -/
theorem initReads_afterApRead {i : InitState} {slot : Slot} (h : initReads i = some (.ap, slot)) (w : Word) :
    initReads (initNextOk i w) = some (.dp, .a3) := by
  cases i with
  | s4ApReadIdr => rfl
  | s6ApReadCsw => rfl
  | _ => cases h

/-- Settles O41: the state an AP read goes to is one that reads RDBUFF. -/
theorem apReadThenRdbuff : Obligations.ApReadThenRdbuff := by
  intro s t h hi e hok
  obtain ⟨slot, hread⟩ : ∃ slot, initReads s.initState = some (.ap, slot) := by
    rcases hi with hi | hi <;> rw [hi] <;> exact ⟨_, rfl⟩
  obtain ⟨t', e', moved⟩ := step_reads h hread
  obtain rfl : t' = t := by rw [e] at e'; exact (Host.Outcome.next.inj e').symm
  have rdbuff : initReads t'.initState = some (.dp, .a3) := by
    obtain ⟨r, hr, hnext⟩ := moved.result
    obtain ⟨-, -, hresult⟩ := moved.leaves
    obtain rfl : r = .ok := Option.some.inj (hr.symm.trans (hresult.symm.trans hok))
    rw [hnext, State.readEnds_initState]
    exact initReads_afterApRead hread _
  obtain ⟨u, eu, next⟩ := step_reads (moved.readyInit h) rdbuff
  obtain ⟨hopRef, htrace, -⟩ := next.leaves
  refine ⟨u, eu, ?_, ?_⟩
  · rw [hopRef, State.readEnds_opRef]
  · rw [htrace]; exact readEnds_trace _ _ _

/-! ### The AP read -/

section
variable (fresh : Nat → Word) {t : Target} {slot : Slot} {reg : ApReg}

theorem Target.slotNames_some (h : t.slotNames slot = some reg) :
    apSel t.select = Config.apSel ∧ apRegAt (apBankSel t.select) slot = some reg := by
  unfold Target.slotNames at h
  split at h
  · exact ⟨‹_›, h⟩
  · cases h

/-- A read of the slot of a named register: its word, and TAR moved on by a read of DRW (R49, R64). -/
theorem Target.apRead_named (hslot : t.slotNames slot = some reg) (hplain : reg = .drw → t.plainDrw = true) :
    t.apRead fresh slot = (t.named reg, if reg = .drw then t.advance fresh else t) := by
  obtain ⟨hap, hreg⟩ := Target.slotNames_some hslot
  cases reg with
  | drw => simp [Target.apRead, hap, hreg, Target.named, hplain rfl]
  | _ => simp [Target.apRead, hap, hreg, Target.named]

/-- An AP read that reaches its domain sends the old buffer and loads the register (R64, R303). -/
theorem Target.readWord_named {c : Choice} (hreach : t.apReached c = true) (hslot : t.slotNames slot = some reg)
    (hplain : reg = .drw → t.plainDrw = true) :
    t.readWord fresh c (mkRef .ap .read slot) =
      (t.buf, {
        if reg = .drw then t.advance fresh else t with buf := t.named reg, unread := true, resent := t.buf }) := by
  simp only [Target.readWord, mkRef, hreach, if_true, Target.apRead_named fresh hslot hplain]

end

section
variable (t : Target) (c : Choice) (rest : List Reply)

/-- What a target has in its AP it has as it meets a header. -/
theorem Target.meets_slotNames (slot : Slot) : (t.meets c rest).slotNames slot = t.slotNames slot := by
  simp only [Target.slotNames, Target.meets_select]

theorem Target.meets_plainDrw : (t.meets c rest).plainDrw = t.plainDrw := by
  simp only [Target.plainDrw, Target.meets_csw, Target.meets_tar]

theorem Target.meets_named (reg : ApReg) : (t.meets c rest).named reg = t.named reg := by
  cases reg <;> simp [Target.named, Target.bigEndian, Target.drwAddress]

end

/-- An AP read of any form that reaches a conforming target's AP and is answered OK, with no write posted before it: the
engine has the old buffer, and the target has loaded the register (R64). -/
theorem exec_apRead {i : Instr} {slot : Slot} {reg : ApReg} {s : State} {c : Choice} {rest : List Reply}
    (hi : readForm i = some (.ap, slot)) (h : ReadyIdle s) (hs : s.target.script = .conforming c :: rest)
    (ha : c.ack = .ok) (hf : c.flipParity = false) (hp : s.target.posted = none) (hk : s.target.sticky = false)
    (hreach : (s.target.meets c rest).apReached c = true) (hslot : s.target.slotNames slot = some reg)
    (hplain : reg = .drw → s.target.plainDrw = true) :
    ∃ u fresh, exec i s = .next u ∧ u.result = some .ok ∧ u.value = some s.target.buf ∧
      u.target = { if reg = .drw then (s.target.meets c rest).advance fresh else s.target.meets c rest with
        buf := s.target.named reg, unread := true, resent := s.target.buf } := by
  obtain ⟨u, e, hresult, hvalue, htarget⟩ := exec_read_answered hi h hs ha hf hp fun _ => hk
  rw [Target.readWord_named _ hreach (by rwa [Target.meets_slotNames]) (by rwa [Target.meets_plainDrw])]
    at hvalue htarget
  simp only [Target.meets_buf, Target.meets_named] at hvalue htarget
  exact ⟨u, _, e, hresult, hvalue, htarget⟩

/-- Settles O46: of the AP only TAR can move, and only where DRW is read. -/
theorem apReadIsOneBehind : Obligations.ApReadIsOneBehind := by
  intro i slot reg s c rest hi h hs ha hf hp hk hreach hslot hplain
  obtain ⟨u, fresh, e, hresult, hvalue, htarget⟩ := exec_apRead hi h hs ha hf hp hk hreach hslot hplain
  refine ⟨u, e, hresult, hvalue, by rw [htarget], by rw [htarget], ?_⟩
  rw [htarget]
  by_cases hdrw : reg = .drw
  · simp only [hdrw, if_true]
    refine ⟨by simp, by simp, by simp, by simp, by simp, fun hinc => ?_, fun _ hinc => ?_⟩
    · rw [Target.advance_tar_off _ (by simpa using hinc), Target.meets_tar]
    · rw [Target.advance_tar_single _ (by simpa using hinc) (by simpa [Target.meets_plainDrw] using hplain hdrw),
        Target.meets_tar]
  · simp [hdrw]

/-! ### `RDAP` and RESEND -/

/-- A read of an Idle engine ends Idle, with one output. -/
theorem exec_read_idle {i : Instr} {port : Port} {slot : Slot} {s u : State} (hi : readForm i = some (port, slot))
    (h : ReadyIdle s) (e : exec i s = .next u) :
    ReadyIdle u ∧ u.outputs = s.outputs ++ [(u.value, u.result)] := by
  rw [exec_readForm hi, callRead_ready h] at e
  cases e
  exact ⟨h.readEnds port slot, by simp⟩

/-- `RDAP` is the AP read and, where that ends OK, the RDBUFF read (R107). -/
theorem exec_rdap_ok {slot : Slot} {s u : State} (h : ReadyIdle s)
    (e : exec (.rdRef (mkRef .ap .read slot)) s = .next u) (hok : u.result = some .ok) :
    exec (.rdap (mkRef .ap .read slot)) s = exec .rdDpRdbuff u := by
  rw [exec_readForm (port := .ap) (slot := slot) rfl, callRead_ready h] at e
  cases e
  have hu := h.readEnds .ap slot
  rw [exec_readForm (i := .rdDpRdbuff) rfl, callRead_ready hu]
  have whole : rdapTransactions Config.hw slot s = .done ((s.readEnds .ap slot).reports.readEnds .dp .a3).reports := by
    rw [rdapTransactions, Run.andThen_eq _ (readTransaction_ready h.toReady _ _ _),
      withResult_some (State.reports_result (s.readEnds .ap slot) ▸ hok)]
    exact Run.andThen_eq _ (readTransaction_ready hu.toReady _ _ _)
  change (callOnWire (rdapTransactions Config.hw slot) s).outcome = _
  rw [callOnWire_idle _ h, whole]
  rfl

/-- Settles O47: the AP read loads the register, the RDBUFF read returns the buffer and RESEND returns it again. -/
theorem rdapReturnsNamedRegister : Obligations.RdapReturnsNamedRegister := by
  intro slot reg s c d f rest h hs hc hcf hd hdf hf hff hp hk hreach hslot hplain
  obtain ⟨a, fresh, ea, hok, hold, hloaded⟩ :=
    exec_apRead (i := .rdRef (mkRef .ap .read slot)) rfl h hs hc hcf hp hk hreach hslot hplain
  obtain ⟨ha, houta⟩ := exec_read_idle (port := .ap) (slot := slot) rfl h ea
  have hscript : a.target.script = .conforming d :: .conforming f :: rest := by rw [hloaded]; split <;> simp
  have hposted : a.target.posted = none := by rw [hloaded]; split <;> simpa using hp
  have hbuf : a.target.buf = s.target.named reg := by rw [hloaded]
  obtain ⟨u, eu, hresult, hvalue, htarget⟩ :=
    exec_read_answered (i := .rdDpRdbuff) rfl ha hscript hd hdf hposted (fun k => by cases k)
  simp only [Target.readWord, mkRef, Target.meets_buf, hbuf] at hvalue htarget
  obtain ⟨hu, houtu⟩ := exec_read_idle (i := .rdDpRdbuff) rfl ha eu
  obtain ⟨v, ev, -, hagain, -⟩ :=
    exec_read_answered (i := .rdDpResend) rfl hu (by rw [htarget]; exact Target.meets_script _ _ _) hf hff
      (by simpa [htarget] using hposted) (fun k => by cases k)
  simp only [Target.readWord, mkRef, Target.meets_resent, htarget] at hagain
  refine ⟨u, v, (exec_rdap_ok h ea hok).trans eu, hresult, hvalue, ?_, ev, hagain⟩
  rw [houtu, houta, hold, hok, hvalue, hresult, List.append_assoc]
  rfl

/-! ### A posted AP write -/

section
variable (fresh : Nat → Word) {t : Target} {slot : Slot} {v : Word}

/-- An AP write that reaches its domain and is posted is held, and nothing else of the target changes (R67). -/
theorem Target.apTakes_posts {c : Choice} (hreach : t.apReached c = true) (hpost : c.post = true) :
    t.apTakes fresh c slot v = { t with posted := some { select := t.select, slot := slot, word := v } } := by
  simp only [Target.apTakes, hreach, hpost, if_true]

/-- What is posted is performed as a write of the same slot in the bank it was addressed to (R67). -/
theorem Target.performPosted_write (h : t.posted = some { select := t.select, slot := slot, word := v }) :
    t.performPosted fresh = Target.apWrite (fun k => fresh (k + 2))
      { select := { t with posted := none }.select, slot := slot, word := v } { t with posted := none } := by
  simp only [Target.performPosted, h]

theorem Target.performPosted_tar (h : t.posted = some { select := t.select, slot := slot, word := v })
    (hslot : t.slotNames slot = some .tar) : (t.performPosted fresh).tar = v := by
  obtain ⟨hap, hreg⟩ := Target.slotNames_some hslot
  rw [Target.performPosted_write fresh h]
  simp only [Target.apWrite, hap, hreg, if_true]

theorem Target.performPosted_csw (h : t.posted = some { select := t.select, slot := slot, word := v })
    (hslot : t.slotNames slot = some .csw) : (t.performPosted fresh).csw = merge (~~~cswReadOnly) t.csw v := by
  obtain ⟨hap, hreg⟩ := Target.slotNames_some hslot
  rw [Target.performPosted_write fresh h]
  simp only [Target.apWrite, hap, hreg, if_true]

theorem Target.performPosted_drw (h : t.posted = some { select := t.select, slot := slot, word := v })
    (hslot : t.slotNames slot = some .drw) (hplain : t.plainDrw = true) :
    (t.performPosted fresh).mem = t.mem.writeWord t.bigEndian t.drwAddress v := by
  rw [Target.performPosted_write fresh h, Target.apWrite_drw _ (t := { t with posted := none }) v hslot hplain,
    Target.advance_mem]
  rfl

end

/-! ### The transaction that follows it -/

/-- A target that has performed its posted write has none, and performs nothing more. -/
theorem Target.performPosted_twice (fresh fresh' : Nat → Word) (t : Target) :
    (t.performPosted fresh).performPosted fresh' = t.performPosted fresh :=
  Target.performPosted_none _ _ (Target.performPosted_posted _ _)

theorem ReadyIdle.with_target {s : State} (h : ReadyIdle s) (t : Target) : ReadyIdle { s with target := t } :=
  ⟨⟨h.phase, h.width, h.rxEn, h.signals⟩, h.seq⟩

section
variable {j : Instr} {port : Port} {slot : Slot} {s : State} {d : Choice} {rest : List Reply}

/-- A read of any form that a conforming target answers OK: a posted write is performed and then the word read (R308). -/
theorem exec_read_conforming (hj : readForm j = some (port, slot)) (h : ReadyIdle s)
    (hs : s.target.script = .conforming d :: rest)
    (hok : (s.target.meets d rest).ackFor d (mkRef port .read slot) = .ok) :
    let answer := ((s.target.meets d rest).performPosted (Config.freeWord s.draws)).readWord (Config.freeWord s.draws) d
      (mkRef port .read slot)
    ∃ u, exec j s = .next u ∧ u.value = some answer.1 ∧ u.result = some (if d.flipParity then .parity else .ok) ∧
      u.target = answer.2 := by
  obtain ⟨-, hvalue, hresult, -, htarget⟩ := conforming_read (Target.coming_script _ hs) hok
  refine ⟨_, (exec_readForm hj s).trans (callRead_ready h port slot), ?_, ?_, ?_⟩
  · rw [State.reports_value, hvalue]
  · rw [State.reports_result, hresult]
  · rw [State.reports_target, htarget]
    exact Target.with_out_nil (by simp)

/-- A write of any form that a conforming target answers OK: a posted write is performed, but before the word of an ABORT
write, and then the word taken (R308). -/
theorem exec_write_conforming {w : Word} (hj : writeForm j = some (port, slot, w)) (h : ReadyIdle s)
    (hs : s.target.script = .conforming d :: rest)
    (hok : (s.target.meets d rest).ackFor d (mkRef port .write slot) = .ok) :
    let heard := if port = .dp ∧ slot = .a0 then s.target.meets d rest
      else (s.target.meets d rest).performPosted (Config.freeWord s.draws)
    ∃ u, exec j s = .next u ∧ u.value = none ∧ u.result = some .ok ∧
      u.target = Target.takes (Config.freeWord (s.draws + 5)) w (parity w)
        { heard.losesBuffer (Config.freeWord s.draws) d (mkRef port .write slot) with
          out := [], taking := some (mkRef port .write slot, d) } := by
  obtain ⟨-, hresult, -, -, htarget⟩ := conforming_write (v := w) (Target.coming_script _ hs) hok
  refine ⟨_, (exec_writeForm hj s).trans (callWrite_ready h port slot w), ?_, ?_, ?_⟩
  · rw [State.reports_value, State.writeEnds_value]
  · rw [State.reports_result, hresult]
  · rw [State.reports_target, htarget]

/-- A target that has performed its posted write meets a header as the other, and answers it as the other. -/
theorem Target.performPosted_heard (fresh : Nat → Word) {t : Target} {r : RegRef} (hs : t.script = .conforming d :: rest)
    (hok : (t.meets d rest).ackFor d r = .ok) : (t.performPosted fresh).script = .conforming d :: rest ∧
      ((t.performPosted fresh).meets d rest).ackFor d r = .ok := by
  rw [← Target.performPosted_meets, Target.performPosted_ackFor]
  exact ⟨(Target.performPosted_script _ _).trans hs, hok⟩

/-- A read answered OK is the read of the target that has performed its posted write (R308). -/
theorem exec_read_performs (hj : readForm j = some (port, slot)) (h : ReadyIdle s)
    (hs : s.target.script = .conforming d :: rest)
    (hok : (s.target.meets d rest).ackFor d (mkRef port .read slot) = .ok) :
    ∃ fresh u u', exec j s = .next u ∧ exec j { s with target := s.target.performPosted fresh } = .next u' ∧
      u.value = u'.value ∧ u.result = u'.result ∧ u.target = u'.target ∧ u.target.posted = none := by
  let fresh := Config.freeWord s.draws
  obtain ⟨hs', hok'⟩ := Target.performPosted_heard fresh hs hok
  obtain ⟨u, e, hvalue, hresult, htarget⟩ := exec_read_conforming hj h hs hok
  obtain ⟨u', e', hvalue', hresult', htarget'⟩ :=
    exec_read_conforming hj (h.with_target (s.target.performPosted fresh)) hs' hok'
  simp only [← Target.performPosted_meets, Target.performPosted_twice] at hvalue' htarget'
  refine ⟨fresh, u, u', e, e', hvalue.trans hvalue'.symm, hresult.trans hresult'.symm, htarget.trans htarget'.symm, ?_⟩
  simp [htarget]

/-- Performing a posted write commutes with the loss of an unread buffer and a change of STAT. -/
theorem Target.performPosted_losing (fresh lost : Nat → Word) {r : RegRef} (t : Target) (h : ¬ d.spares r) (stat : Word) :
    Target.performPosted fresh { t.losesBuffer lost d r with out := [], taking := none, stat := stat } =
      { (t.performPosted fresh).losesBuffer lost d r with out := [], taking := none, stat := stat } := by
  rw [Target.losesBuffer_form lost t h, Target.losesBuffer_form lost _ h]
  simp only [Target.performPosted_unread, Target.performPosted_buf]
  exact (Target.performPosted_update fresh t t.script [] none stat _ false).trans (by
    rw [Target.performPosted_script])

/-- The word of an ABORT write without DAPABORT changes STAT, whether it arrives whole or not, and the posted write is
performed then (R46, R187, R308). -/
theorem Target.takes_abort (fresh : Nat → Word) {w : Word} {t : Target} (h : t.taking = some (mkRef .dp .write .a0, d))
    (hw : dapAbort w = false) :
    t.takes fresh w (parity w) = Target.performPosted fresh { t with
      taking := none
      stat := if d.flipParity = true then t.stat ||| 0x80 else t.stat &&& ~~~(abortClears w) } := by
  by_cases hf : d.flipParity = true
  · rw [takes_broken h hf, if_pos hf]
  · rw [takes_whole h (by simpa using hf), if_neg hf]
    simp [Target.dpWrite, mkRef, hw]

/-- A write answered OK, but one of ABORT with DAPABORT, is the write of the target that has performed its posted write:
performed as the header is answered or, before the word of an ABORT write, as that is taken (R308). -/
theorem exec_write_performs {w : Word} (hj : writeForm j = some (port, slot, w)) (h : ReadyIdle s)
    (hs : s.target.script = .conforming d :: rest)
    (hok : (s.target.meets d rest).ackFor d (mkRef port .write slot) = .ok)
    (habort : ¬ (port = .dp ∧ slot = .a0 ∧ w.getLsbD 0 = true)) :
    ∃ fresh u u', exec j s = .next u ∧ exec j { s with target := s.target.performPosted fresh } = .next u' ∧
      u.value = u'.value ∧ u.result = u'.result ∧ u.target = u'.target := by
  let fresh := Config.freeWord (if port = .dp ∧ slot = .a0 then s.draws + 5 else s.draws)
  obtain ⟨hs', hok'⟩ := Target.performPosted_heard fresh hs hok
  obtain ⟨u, e, hvalue, hresult, htarget⟩ := exec_write_conforming hj h hs hok
  obtain ⟨u', e', hvalue', hresult', htarget'⟩ :=
    exec_write_conforming hj (h.with_target (s.target.performPosted fresh)) hs' hok'
  simp only [← Target.performPosted_meets, Target.performPosted_twice, ite_self] at htarget'
  refine ⟨fresh, u, u', e, e', hvalue.trans hvalue'.symm, hresult.trans hresult'.symm, ?_⟩
  rw [htarget, htarget']
  by_cases ha : port = .dp ∧ slot = .a0
  · have hfresh : fresh = Config.freeWord (s.draws + 5) := congrArg Config.freeWord (if_pos ha)
    rw [if_pos ha, hfresh]
    obtain ⟨rfl, rfl⟩ := ha
    have hw : dapAbort w = false := by simpa [dapAbort] using habort
    have spares : ¬ d.spares (mkRef .dp .write .a0) := by simp [Choice.spares, mkRef]
    rw [Target.takes_abort _ rfl hw, Target.takes_abort _ rfl hw]
    simp only [Target.losesBuffer_stat, Target.performPosted_stat]
    rw [← Target.performPosted_losing _ _ _ spares, Target.performPosted_twice]
  · have hfresh : fresh = Config.freeWord s.draws := congrArg Config.freeWord (if_neg ha)
    rw [if_neg ha, hfresh]

/-- An ABORT write with DAPABORT, without a line error: the posted write is dropped (R46). -/
theorem exec_abort_drops {w : Word} (h : ReadyIdle s) (hs : s.target.script = .conforming d :: rest) (hd : d.ack = .ok)
    (hf : d.flipParity = false) (hw : w.getLsbD 0 = true) : ∃ u, exec (.wrDpAbort w) s = .next u ∧
      u.target.posted = none ∧ u.target.csw = s.target.csw ∧ u.target.tar = s.target.tar ∧
      u.target.mem = s.target.mem := by
  obtain ⟨u, e, -, -, htarget⟩ := exec_write_conforming (j := .wrDpAbort w) rfl h hs (ackFor_ok hd fun k => by cases k)
  rw [takes_whole rfl hf] at htarget
  simp only [mkRef, and_self, if_true, Target.dpWrite, show dapAbort w = true from hw] at htarget
  rw [Target.performPosted_none _ _ rfl] at htarget
  refine ⟨u, e, ?_⟩
  rw [htarget]
  simp

end

/-- Settles O53: the write is held with the bank it was addressed to; what comes next performs it, or drops it. -/
theorem postedWritePerformedNext : Obligations.PostedWritePerformedNext := by
  intro i slot v s c d rest hi h hs ha hf hpost hp hk hreach
  obtain ⟨t, lost, fresh, e, ht, hresult, -, htarget⟩ := exec_write_taken hi h hs ha hf hp fun _ => hk
  simp only at htarget
  rw [Target.apTakes_posts _ (by exact hreach) hpost, Target.metLosing_select] at htarget
  have hscript : t.target.script = .conforming d :: rest := by simp [htarget]
  have hposted : t.target.posted = some { select := t.target.select, slot := slot, word := v } := by simp [htarget]
  have hslot : t.target.slotNames slot = s.target.slotNames slot := by simp [htarget, Target.slotNames]
  have hplain : t.target.plainDrw = s.target.plainDrw := by simp [htarget, Target.plainDrw]
  have hbig : t.target.bigEndian = s.target.bigEndian := by simp [htarget, Target.bigEndian]
  have haddr : t.target.drwAddress = s.target.drwAddress := by simp [htarget, Target.drwAddress]
  have hcsw : t.target.csw = s.target.csw := by simp [htarget]
  have htar : t.target.tar = s.target.tar := by simp [htarget]
  have hmem : t.target.mem = s.target.mem := by simp [htarget]
  refine ⟨t, e, hresult, ?_, fun fresh => ⟨?_, fun hn => ?_, fun hn => ?_, fun hn hpl hwf => ?_⟩,
    fun j port slot' hj hok => exec_read_performs hj ht hscript hok,
    fun j port slot' w hj hok hn => exec_write_performs hj ht hscript hok hn, fun w hw hd hdf => ?_⟩
  · rw [htarget, ← Target.meets_select s.target c (.conforming d :: rest)]; rfl
  · exact Target.performPosted_posted _ _
  · exact Target.performPosted_tar fresh hposted (hslot.trans hn)
  · rw [Target.performPosted_csw fresh hposted (hslot.trans hn)]
    exact merge_inside _ _ _ _ (by decide)
  · rw [Target.performPosted_drw fresh hposted (hslot.trans hn) (hplain.trans hpl), hmem, hbig, haddr,
      Memory.readWord_writeWord _ _ _ _ hwf]
  · obtain ⟨u, eu, hdropped, hcsw', htar', hmem'⟩ := exec_abort_drops ht hscript hd hdf hw
    exact ⟨u, eu, hdropped, hcsw'.trans hcsw, htar'.trans htar, hmem'.trans hmem⟩

end Sys2Proof.Machine
end

section
/-! R90 to R95, R108, R162: the header's fields, and the call words, whose decoding and encoding are inverse. -/

namespace Sys2Proof

open Sys2Proof.Machine

/-! ### The request header -/

/-- R90: the header is these eight bits, bit 0 first. -/
theorem req_getLsbD (r : RegRef) {i : Nat} (hi : i < 8) : (req r).getLsbD i =
    [true, r.port.bit, r.dir.bit, r.slot.bit0, r.slot.bit1, parity r.variableBits, false, true].getD i false := by
  rw [req, BitVec.getLsbD_ofNat, testBit_valueOf, decide_eq_true hi, Bool.true_and]

/-- R91: the parity bit makes the number of ones in bits 1 to 5 even. -/
theorem parity_variableBits (r : RegRef) :
    parity r.variableBits = (r.port.bit ^^ r.dir.bit ^^ r.slot.bit0 ^^ r.slot.bit1) :=
  RegRef.all_of_cases (P := fun r => parity r.variableBits = (r.port.bit ^^ r.dir.bit ^^ r.slot.bit0 ^^ r.slot.bit1))
    (by intro p d a; cases p <;> cases d <;> cases a <;> decide) r

theorem Port.bit_eq_true {p : Port} : p.bit = true ↔ p = .ap := by cases p <;> simp [Port.bit]

theorem Dir.bit_eq_true {d : Dir} : d.bit = true ↔ d = .read := by cases d <;> simp [Dir.bit]

theorem Slot.bit0_eq_true {a : Slot} : a.bit0 = true ↔ a = .a1 ∨ a = .a3 := by cases a <;> simp [Slot.bit0]

theorem Slot.bit1_eq_true {a : Slot} : a.bit1 = true ↔ a = .a2 ∨ a = .a3 := by cases a <;> simp [Slot.bit1]

/-- Every choice of the four variable bits is that of a reference. -/
theorem exists_ref_of_bits (port dir bit0 bit1 : Bool) :
    ∃ r : RegRef, r.port.bit = port ∧ r.dir.bit = dir ∧ r.slot.bit0 = bit0 ∧ r.slot.bit1 = bit1 :=
  ⟨mkRef (if port then .ap else .dp) (if dir then .read else .write) (Slot.ofBits bit1 bit0),
    by cases port <;> rfl, by cases dir <;> rfl, by cases bit0 <;> cases bit1 <;> rfl,
    by cases bit0 <;> cases bit1 <;> rfl⟩

/-- R108: the fixed bits and the parity bit tell the headers among the bytes. -/
theorem exists_req_eq_iff (b : Header) : (∃ r, req r = b) ↔
    b.getLsbD 0 = true ∧ b.getLsbD 6 = false ∧ b.getLsbD 7 = true ∧
      b.getLsbD 5 = (b.getLsbD 1 ^^ b.getLsbD 2 ^^ b.getLsbD 3 ^^ b.getLsbD 4) := by
  constructor
  · rintro ⟨r, rfl⟩
    simp (disch := decide) only [req_getLsbD, parity_variableBits, List.getD_cons_zero, List.getD_cons_succ, and_self]
  · rintro ⟨hstart, hstop, hpark, hparity⟩
    obtain ⟨r, hport, hdir, h0, h1⟩ := exists_ref_of_bits (b.getLsbD 1) (b.getLsbD 2) (b.getLsbD 3) (b.getLsbD 4)
    refine ⟨r, BitVec.eq_of_getLsbD_eq fun i hi => ?_⟩
    rw [req_getLsbD r hi, parity_variableBits, hport, hdir, h0, h1]
    interval_cases i <;>
      simp only [List.getD_cons_zero, List.getD_cons_succ, hstart, hstop, hpark, hparity]

theorem headerRef_eq_some {b : Header} {r : RegRef} : headerRef b = some r ↔ req r = b :=
  ⟨req_of_headerRef, fun h => h ▸ headerRef_req r⟩

theorem headerRef_eq_none {b : Header} : headerRef b = none ↔ ¬ ∃ r, req r = b := by
  simp only [Option.eq_none_iff_forall_ne_some, ne_eq, headerRef_eq_some, not_exists]

/-- R92: the XOR construction yields the header. -/
theorem reqBySkeleton_eq_req (r : RegRef) : reqBySkeleton r = req r :=
  RegRef.all_of_cases (P := fun r => reqBySkeleton r = req r)
    (by intro p d a; cases p <;> cases d <;> cases a <;> decide) r

/-- Settles O1: each byte is computed from R90. -/
theorem requestByteTable : Obligations.RequestByteTable := by
  unfold Obligations.RequestByteTable; decide

/-- Settles O2: the bits of the header are those of its construction; the ones in bits 1 to 5 are counted for each of
the 16 references. -/
theorem headerFieldPositions : Obligations.HeaderFieldPositions := by
  intro r
  have even : popcount ((req r).extractLsb' 1 5) % 2 = 0 :=
    RegRef.all_of_cases (P := fun r => popcount ((req r).extractLsb' 1 5) % 2 = 0)
      (by intro p d a; cases p <;> cases d <;> cases a <;> decide) r
  simp (disch := decide) only [req_getLsbD, parity_variableBits, List.getD_cons_zero, List.getD_cons_succ,
    Port.bit_eq_true, Dir.bit_eq_true, Slot.bit0_eq_true, Slot.bit1_eq_true, even, and_self]

/-- Settles O3: a byte with the fixed bits and the parity of a header is the header of its variable bits. -/
theorem headerBytesAreExactly : Obligations.HeaderBytesAreExactly := by
  refine ⟨reqBySkeleton_eq_req, fun b => ⟨?_, fun r => headerRef_eq_some⟩⟩
  rw [headerRef_eq_none, exists_req_eq_iff]
  simp only [not_and_or, Bool.not_eq_true, Bool.not_eq_false, ne_eq]

/-- Settles O20: each pattern and each code in turn. -/
theorem ackDecoding : Obligations.AckDecoding := by
  unfold Obligations.AckDecoding; decide

/-! ### Call words -/

/-- A general `RD` or `WR` is well formed in the direction of its reference (R176, R185). -/
theorem wellFormed_rdRef {r : RegRef} : WellFormed (.rdRef r) ↔ r.dir = .read := by
  simp [WellFormed, Instr.illFormed]

theorem wellFormed_wrRef {r : RegRef} {v : Word} : WellFormed (.wrRef r v) ↔ r.dir = .write := by
  simp [WellFormed, Instr.illFormed]

/-- `RDAP` is well formed when it reads an AP register (R107). -/
theorem wellFormed_rdap {r : RegRef} : WellFormed (.rdap r) ↔ r.port = .ap ∧ r.dir = .read := by
  simp [WellFormed, Instr.illFormed, ite_eq_iff, and_comm]

theorem accessForm_wellFormed (r : RegRef) (v : Word) : WellFormed (accessForm r v) := by
  obtain ⟨p, d, a⟩ := r
  cases p <;> cases d <;> cases a <;> rfl

/-- The call word of a register-access form; a read has no operand word. -/
theorem encode_accessForm {r : RegRef} {v : Word} (h : r.dir = .read → v = 0) :
    encode (accessForm r v) = callWord (req r) .plain v := by
  obtain ⟨p, d, a⟩ := r
  cases d with
  | write => cases p <;> cases a <;> rfl
  | read => obtain rfl := h rfl; cases p <;> cases a <;> rfl

/-- An operation is a register-access form or one of the eight others. -/
theorem instr_accessForm (i : Instr) : (∃ r v, (r.dir = .read → v = 0) ∧ i = accessForm r v) ∨
    (∃ r, i = .rdRef r) ∨ (∃ r v, i = .wrRef r v) ∨ i = .lineReset ∨ (∃ r, i = .rdap r) ∨ i = .dpInit ∨
    i = .init ∨ i = .engage ∨ i = .disengage := by
  have reads (p : Port) (a : Slot) : ∃ r v, (RegRef.dir r = .read → v = 0) ∧ accessForm (mkRef p .read a) 0 = accessForm r v :=
    ⟨mkRef p .read a, 0, fun _ => rfl, rfl⟩
  have writes (p : Port) (a : Slot) (v : Word) :
      ∃ r w, (RegRef.dir r = .read → w = 0) ∧ accessForm (mkRef p .write a) v = accessForm r w :=
    ⟨mkRef p .write a, v, nofun, rfl⟩
  cases i with
  | rdDpDpidr => exact .inl (reads .dp .a0)
  | rdDpStat => exact .inl (reads .dp .a1)
  | rdDpResend => exact .inl (reads .dp .a2)
  | rdDpRdbuff => exact .inl (reads .dp .a3)
  | wrDpAbort v => exact .inl (writes .dp .a0 v)
  | wrDpStat v => exact .inl (writes .dp .a1 v)
  | wrDpSelect v => exact .inl (writes .dp .a2 v)
  | wrDpA3 v => exact .inl (writes .dp .a3 v)
  | rdApA0 => exact .inl (reads .ap .a0)
  | rdApA1 => exact .inl (reads .ap .a1)
  | rdApA2 => exact .inl (reads .ap .a2)
  | rdApA3 => exact .inl (reads .ap .a3)
  | wrApA0 v => exact .inl (writes .ap .a0 v)
  | wrApA1 v => exact .inl (writes .ap .a1 v)
  | wrApA2 v => exact .inl (writes .ap .a2 v)
  | wrApA3 v => exact .inl (writes .ap .a3 v)
  | rdRef r => simp
  | wrRef r v => simp
  | lineReset => simp
  | rdap r => simp
  | dpInit => simp
  | init => simp
  | engage => simp
  | disengage => simp

/-- Settles O4: the first byte gives the reference back, and the form tells the operations that share it apart. -/
theorem decodeOfEncode : Obligations.DecodeOfEncode := by
  intro i hi
  rcases instr_accessForm i with ⟨r, v, hv, rfl⟩ | ⟨r, rfl⟩ | ⟨r, v, rfl⟩ | rfl | ⟨r, rfl⟩ | rfl | rfl | rfl | rfl
  · rw [encode_accessForm hv, decode_callWord]
    by_cases hd : r.dir = .read
    · simp [decodeFields, req_ne_resetByte, hd, hv hd, noOperand]
    · simp [decodeFields, req_ne_resetByte, hd]
  · simp [encode, decode_callWord, decodeFields, wellFormed_rdRef.mp hi, noOperand]
  · simp [encode, decode_callWord, decodeFields, wellFormed_wrRef.mp hi]
  · simp [encode, decode_callWord, decodeFields, noOperand]
  · simp [encode, decode_callWord, decodeFields, wellFormed_rdap.mp hi, noOperand]
  all_goals simp [encode, decode_callWord, decodeFields, noOperand]

/-- What three fields name is well formed, and its call word has those fields. -/
theorem encode_of_decodeFields {b : Header} {f : Form} {v : Word} {i : Instr} (e : decodeFields b f v = .ok i) :
    WellFormed i ∧ encode i = callWord b f v := by
  have fixedByte {c : Header} {j : Instr} (e : (if b = c then noOperand v j else .error .noSuchForm) = .ok i) :
      b = c ∧ v = 0 ∧ i = j := by
    split at e
    · exact ⟨‹_›, noOperand_ok e⟩
    · cases e
  cases f with
  | plain =>
    simp only [decodeFields] at e
    split at e
    · obtain ⟨rfl, rfl⟩ := noOperand_ok e
      exact ⟨rfl, by rw [‹b = resetByte›]; rfl⟩
    · cases hr : headerRef b with
      | none => simp [hr] at e
      | some r =>
        obtain rfl := req_of_headerRef hr
        simp only [hr] at e
        split at e
        · obtain ⟨rfl, rfl⟩ := noOperand_ok e
          exact ⟨accessForm_wellFormed r 0, encode_accessForm fun _ => rfl⟩
        · cases e
          exact ⟨accessForm_wellFormed r v, encode_accessForm fun k => absurd k ‹_›⟩
  | general =>
    cases hr : headerRef b with
    | none => simp [decodeFields, hr] at e
    | some r =>
      obtain rfl := req_of_headerRef hr
      simp only [decodeFields, hr] at e
      split at e
      · obtain ⟨rfl, rfl⟩ := noOperand_ok e
        exact ⟨wellFormed_rdRef.mpr ‹_›, rfl⟩
      · rename_i hd
        cases e
        exact ⟨wellFormed_wrRef.mpr (by cases h : r.dir <;> [rfl; exact absurd h hd]), rfl⟩
  | rdap =>
    cases hr : headerRef b with
    | none => simp [decodeFields, hr] at e
    | some r =>
      obtain rfl := req_of_headerRef hr
      simp only [decodeFields, hr] at e
      split at e
      · obtain ⟨rfl, rfl⟩ := noOperand_ok e
        exact ⟨wellFormed_rdap.mpr ‹_›, rfl⟩
      · cases e
  | dpInit => obtain ⟨rfl, rfl, rfl⟩ := fixedByte e; exact ⟨rfl, rfl⟩
  | init => obtain ⟨rfl, rfl, rfl⟩ := fixedByte e; exact ⟨rfl, rfl⟩
  | engage => obtain ⟨rfl, rfl, rfl⟩ := fixedByte e; exact ⟨rfl, rfl⟩
  | disengage => obtain ⟨rfl, rfl, rfl⟩ := fixedByte e; exact ⟨rfl, rfl⟩

/-- Settles O5: the word is the call word of its fields, and the operation they name has that call word. -/
theorem encodeOfDecode : Obligations.EncodeOfDecode := by
  intro c i e
  unfold decode at e
  cases hf : formOf (CallWord.form c) with
  | none => rw [hf] at e; cases e
  | some f =>
    rw [hf] at e
    rw [← callWord_fields c f (byte_of_formOf hf).symm]
    exact encode_of_decodeFields e

/-- Settles O6: each word in turn. -/
theorem sampleWordsDecode : Obligations.SampleWordsDecode := by
  unfold Obligations.SampleWordsDecode; decide

end Sys2Proof
end

section
/-! R106: the words of a written line, its register names and its hexadecimal word read back. -/

namespace Sys2Proof.Machine

/-! ### The words of a line -/

/-- Characters of one word: no blank and no comma among them. -/
abbrev Unbroken (w : Written) : Prop := ' ' ∉ w ∧ ',' ∉ w

/-- Characters of a word are put before those read so far. -/
theorem wordsFrom_append {w : Written} (hw : Unbroken w) (l : List Char) (acc : Written) :
    wordsFrom (w ++ l) acc = wordsFrom l (w.reverse ++ acc) := by
  induction w generalizing acc with
  | nil => rfl
  | cons c w ih =>
    obtain ⟨⟨hc, hw⟩, hc', hw'⟩ := by simpa only [Unbroken, List.mem_cons, not_or] using hw
    rw [List.cons_append, wordsFrom, if_neg (Ne.symm hc), if_neg (Ne.symm hc'), ih ⟨hw, hw'⟩]
    simp

section
variable {w : Written} (hw : Unbroken w) (hne : w ≠ [])
include hw hne

/-- A word that ends the line. -/
theorem wordsFrom_word : wordsFrom w [] = [w] := by
  have h := wordsFrom_append hw [] []
  rw [List.append_nil, List.append_nil] at h
  rw [h, wordsFrom, if_neg (by simpa using hne), List.reverse_reverse]

/-- A word before a blank. -/
theorem wordsFrom_blank (l : List Char) : wordsFrom (w ++ ' ' :: l) [] = w :: wordsFrom l [] := by
  rw [wordsFrom_append hw, List.append_nil]
  simp [wordsFrom, hne]

/-- A word before a comma and a blank. -/
theorem wordsFrom_comma (l : List Char) : wordsFrom (w ++ ',' :: ' ' :: l) [] = w :: [','] :: wordsFrom l [] := by
  rw [wordsFrom_append hw, List.append_nil]
  simp [wordsFrom, hne]

end

/-! ### Hexadecimal words -/

/-- The digit of a value below 16. -/
def hexDigit (d : Nat) : Char := hexDigits.getD d '0'

theorem hexValue_hexDigit {d : Nat} (h : d < 16) : hexValue (hexDigit d) = some d := by
  interval_cases d <;> decide

theorem hexDigit_unbroken {d : Nat} (h : d < 16) : Unbroken [hexDigit d] := by
  interval_cases d <;> decide

/-- The `k` low hexadecimal digits of a value, the most significant first. -/
def lowDigits (v k : Nat) : Written := (List.range k).reverse.map fun j => hexDigit (v / 16 ^ j % 16)

theorem lowDigits_succ (v k : Nat) : lowDigits v (k + 1) = hexDigit (v / 16 ^ k % 16) :: lowDigits v k := by
  simp [lowDigits, List.range_succ]

theorem hexOf_eq_lowDigits (v : Word) : hexOf v = lowDigits v.toNat 8 := rfl

/-- Reading the low digits of a value puts them after the digits before. -/
theorem hexFrom_lowDigits (v k n : Nat) : hexFrom (lowDigits v k) n = some (n * 16 ^ k + v % 16 ^ k) := by
  induction k generalizing n with
  | zero => simp [lowDigits, hexFrom, Nat.mod_one]
  | succ k ih =>
    rw [lowDigits_succ, hexFrom, hexValue_hexDigit (Nat.mod_lt _ (by decide))]
    simp only [ih]
    rw [Nat.pow_succ, Nat.mod_mul]
    congr 1
    ring

theorem Unbroken.append {w x : Written} (hw : Unbroken w) (hx : Unbroken x) : Unbroken (w ++ x) := by
  simp [Unbroken, hw.1, hw.2, hx.1, hx.2]

theorem lowDigits_unbroken (v k : Nat) : Unbroken (lowDigits v k) := by
  induction k with
  | zero => simp [Unbroken, lowDigits]
  | succ k ih => rw [lowDigits_succ]; exact (hexDigit_unbroken (Nat.mod_lt _ (by decide))).append ih

theorem imm32_unbroken (v : Word) : Unbroken ('0' :: 'x' :: hexOf v) :=
  Unbroken.append (w := ['0', 'x']) (by decide) (lowDigits_unbroken v.toNat 8)

/-- A word written as eight digits reads back. -/
theorem imm32Of_hexOf (v : Word) : imm32Of ('0' :: 'x' :: hexOf v) = some v := by
  have hlen : (hexOf v).length = 8 := rfl
  have hv : v.toNat % 16 ^ 8 = v.toNat := Nat.mod_eq_of_lt v.isLt
  rw [imm32Of, hlen, if_pos (by decide), hexOf_eq_lowDigits, hexFrom_lowDigits, hv]
  simp

/-! ### The three kinds of line -/

/-- A `WR` needs a register name and a word that both read (R106). -/
theorem opOf_write (r v : Written) : opOf [['W', 'R'], r, [','], v] =
    (refOf .write r).bind fun r => (imm32Of v).map (accessForm r) := by
  simp only [opOf]
  cases refOf .write r <;> cases imm32Of v <;> rfl

section
variable {r : Written} (hr : Unbroken r) (hne : r ≠ [])
include hr hne

theorem assemble_readLine : assemble (readLine r) = (refOf .read r).map fun r => accessForm r 0 := by
  rw [assemble, show readLine r = ['R', 'D'] ++ ' ' :: r from rfl, wordsFrom_blank (by decide) (by decide),
    wordsFrom_word hr hne]
  rfl

theorem assemble_rdapLine :
    assemble (rdapLine r) = (apNameOf r).map fun n => .rdap (mkRef .ap .read n.slot) := by
  rw [assemble, show rdapLine r = ['R', 'D', 'A', 'P'] ++ ' ' :: r from rfl, wordsFrom_blank (by decide) (by decide),
    wordsFrom_word hr hne]
  rfl

theorem assemble_writeLine (v : Word) :
    assemble (writeLine r v) = (refOf .write r).map fun r => accessForm r v := by
  rw [assemble, show writeLine r v = ['W', 'R'] ++ ' ' :: (r ++ ',' :: ' ' :: ('0' :: 'x' :: hexOf v)) from rfl,
    wordsFrom_blank (by decide) (by decide), wordsFrom_comma hr hne, wordsFrom_word (imm32_unbroken v) (by simp)]
  rw [opOf_write, imm32Of_hexOf]
  cases refOf .write r <;> rfl

end

/-! ### Register names -/

theorem portSlotName_unbroken (p : Port) (a : Slot) : Unbroken (portSlotName p a) := by
  cases p <;> cases a <;> decide

theorem portSlotName_ne_nil (p : Port) (a : Slot) : portSlotName p a ≠ [] := by
  cases p <;> simp [portSlotName]

/-- The name of a slot names it in either direction. -/
theorem refOf_portSlotName (d : Dir) (p : Port) (a : Slot) : refOf d (portSlotName p a) = some (mkRef p d a) := by
  cases d <;> cases p <;> cases a <;> decide

theorem apNameOf_portSlotName (a : Slot) : apNameOf (portSlotName .ap a) = some (.a a) := by
  cases a <;> decide

theorem assemble_writtenRead (p : Port) (a : Slot) :
    assemble (writtenRead p a) = some (accessForm (mkRef p .read a) 0) := by
  rw [writtenRead, assemble_readLine (portSlotName_unbroken p a) (portSlotName_ne_nil p a), refOf_portSlotName]
  rfl

theorem assemble_writtenWrite (p : Port) (a : Slot) (v : Word) :
    assemble (writtenWrite p a v) = some (accessForm (mkRef p .write a) v) := by
  rw [writtenWrite, assemble_writeLine (portSlotName_unbroken p a) (portSlotName_ne_nil p a), refOf_portSlotName]
  rfl

theorem DpName.written_unbroken (n : DpName) : Unbroken n.written := by
  cases n with
  | a slot => exact portSlotName_unbroken .dp slot
  | _ => decide

theorem DpName.written_ne_nil (n : DpName) : n.written ≠ [] := by
  cases n with
  | a slot => exact portSlotName_ne_nil .dp slot
  | _ => decide

/-- A DP name names its slot where it is legal, and nothing where it is not (R41, R106). -/
theorem refOf_dpName (d : Dir) (n : DpName) : refOf d n.written = (n.slot d).map (mkRef .dp d) := by
  cases n with
  | a slot => exact refOf_portSlotName d .dp slot
  | _ => cases d <;> decide

theorem ApName.written_unbroken (n : ApName) : Unbroken n.written := by
  cases n with
  | a slot => exact portSlotName_unbroken .ap slot
  | _ => decide

theorem ApName.written_ne_nil (n : ApName) : n.written ≠ [] := by
  cases n with
  | a slot => exact portSlotName_ne_nil .ap slot
  | _ => decide

theorem apNameOf_written (n : ApName) : apNameOf n.written = some n := by
  cases n with
  | a slot => exact apNameOf_portSlotName slot
  | _ => decide

/-- An AP name names its slot in either direction (R106). -/
theorem refOf_apName (d : Dir) (n : ApName) : refOf d n.written = some (mkRef .ap d n.slot) := by
  cases n with
  | a slot => exact refOf_portSlotName d .ap slot
  | _ => cases d <;> decide

/-- `RD` of a DP name: the form of its slot, or refused (R106). -/
theorem assemble_readLine_dp (n : DpName) :
    assemble (readLine n.written) = (n.slot .read).map fun a => accessForm (mkRef .dp .read a) 0 := by
  rw [assemble_readLine n.written_unbroken n.written_ne_nil, refOf_dpName, Option.map_map]
  rfl

theorem assemble_writeLine_dp (n : DpName) (v : Word) :
    assemble (writeLine n.written v) = (n.slot .write).map fun a => accessForm (mkRef .dp .write a) v := by
  rw [assemble_writeLine n.written_unbroken n.written_ne_nil, refOf_dpName, Option.map_map]
  rfl

theorem assemble_readLine_ap (n : ApName) :
    assemble (readLine n.written) = some (accessForm (mkRef .ap .read n.slot) 0) := by
  rw [assemble_readLine n.written_unbroken n.written_ne_nil, refOf_apName]
  rfl

theorem assemble_writeLine_ap (n : ApName) (v : Word) :
    assemble (writeLine n.written v) = some (accessForm (mkRef .ap .write n.slot) v) := by
  rw [assemble_writeLine n.written_unbroken n.written_ne_nil, refOf_apName]
  rfl

theorem assemble_rdapLine_ap (n : ApName) :
    assemble (rdapLine n.written) = some (.rdap (mkRef .ap .read n.slot)) := by
  rw [assemble_rdapLine n.written_unbroken n.written_ne_nil, apNameOf_written]
  rfl

/-- The line of a register-access form is that of its slot (R106). -/
theorem assemble_written_accessForm {r : RegRef} {v : Word} (hv : r.dir = .read → v = 0) :
    assemble (written (accessForm r v)) = some (accessForm r v) := by
  obtain ⟨p, d, a⟩ := r
  cases d with
  | read =>
    obtain rfl := hv rfl
    have line : written (accessForm ⟨p, .read, a⟩ 0) = writtenRead p a := by cases p <;> cases a <;> rfl
    rw [line, assemble_writtenRead]
    rfl
  | write =>
    have line : written (accessForm ⟨p, .write, a⟩ v) = writtenWrite p a v := by cases p <;> cases a <;> rfl
    rw [line, assemble_writtenWrite]
    rfl

/-- The operation a written operation reads back as: a general `RD` or `WR` as the form its reference has. -/
def namedForm (i : Instr) : Instr :=
  match i with
  | .rdRef r => accessForm r 0
  | .wrRef r v => accessForm r v
  | i => i

theorem namedForm_accessForm (r : RegRef) (v : Word) : namedForm (accessForm r v) = accessForm r v := by
  obtain ⟨p, d, a⟩ := r
  cases p <;> cases d <;> cases a <;> rfl

theorem assemble_written {i : Instr} (hi : WellFormed i) : assemble (written i) = some (namedForm i) := by
  rcases instr_accessForm i with ⟨r, v, hv, rfl⟩ | ⟨⟨p, d, a⟩, rfl⟩ | ⟨⟨p, d, a⟩, v, rfl⟩ | rfl | ⟨⟨p, d, a⟩, rfl⟩ |
    rfl | rfl | rfl | rfl
  · rw [assemble_written_accessForm hv, namedForm_accessForm]
  · obtain rfl : d = .read := wellFormed_rdRef.mp hi
    exact assemble_writtenRead p a
  · obtain rfl : d = .write := wellFormed_wrRef.mp hi
    exact assemble_writtenWrite p a v
  · decide
  · obtain ⟨rfl, rfl⟩ : p = .ap ∧ d = .read := wellFormed_rdap.mp hi
    exact assemble_rdapLine_ap (.a a)
  all_goals decide

/-- Settles O7: the words of a line are its register name and its word, and both read back. -/
theorem writtenOperationReadsBack : Obligations.WrittenOperationReadsBack := by
  refine ⟨fun i hi => ?_, by decide, ?_, fun v => ?_, fun n slot v hn => ?_⟩
  · rw [assemble_written hi]
    cases i <;> rfl
  · simp [assemble_readLine_dp, DpName.slot, accessForm, mkRef]
  · simp [assemble_writeLine_dp, DpName.slot, accessForm, mkRef]
  · have hslot : n.slot = slot := by
      rcases hn with ⟨rfl, rfl⟩ | ⟨rfl, rfl⟩ | ⟨rfl, rfl⟩ | ⟨rfl, rfl⟩ | ⟨rfl, rfl⟩ | ⟨rfl, rfl⟩ <;> rfl
    rw [← hslot]
    exact ⟨assemble_readLine_ap n, assemble_writeLine_ap n v, assemble_rdapLine_ap n⟩

end Sys2Proof.Machine
end

section
/-! R99 to R103, R107, R110, R170, R176 to R186: what the reads, the writes, `RDAP` and `LINERESET` do on a ready engine,
whatever the target answers: their cycles, value and result, under either sample offset. -/

namespace Sys2Proof.Machine

/-! ### Reads, writes and line resets of a ready engine -/

section
variable {i : Instr} {port : Port} {slot : Slot} {v : Word} {s : State}

theorem exec_read_ready (hi : readForm i = some (port, slot)) (h : ReadyIdle s) :
    exec i s = .next (s.readEnds port slot).reports := by
  rw [exec_readForm hi, callRead_ready h]

theorem exec_write_ready (hi : writeForm i = some (port, slot, v)) (h : ReadyIdle s) :
    exec i s = .next (s.writeEnds port slot v).reports := by
  rw [exec_writeForm hi, callWrite_ready h]

/-- `RDAP` whose AP read does not end OK is that read alone (R107). -/
theorem exec_rdap_failed {u : State} (h : ReadyIdle s) (e : exec (.rdRef (mkRef .ap .read slot)) s = .next u)
    (hu : u.result ≠ some .ok) : exec (.rdap (mkRef .ap .read slot)) s = .next u := by
  rw [exec_read_ready (port := .ap) (slot := slot) rfl h] at e
  cases e
  obtain ⟨r, hr, -⟩ := readEnds_result s .ap slot
  have hne : r ≠ .ok := fun k => hu (by rw [State.reports_result, hr, k])
  change (callOnWire (rdapTransactions Config.hw slot) s).outcome = _
  rw [callOnWire_idle _ h, rdapTransactions, Run.andThen_eq _ (readTransaction_ready h.toReady _ _ _),
    withResult_some hr]
  cases r with
  | ok => exact absurd rfl hne
  | _ => rfl

end

/-- The cycles of a line reset do not depend on the sample offset (R100). -/
theorem lineResetEnds_offset (s : State) {p q : Params} (hpre : p.nPre = q.nPre) (hpost : p.nPost = q.nPost)
    (hidle : p.nIdle = q.nIdle) : s.lineResetEnds p = s.lineResetEnds q := by
  rw [State.lineResetEnds, State.lineResetEnds, lineResetCycles, lineResetCycles, hpre, hpost, hidle]

/-- A line reset whose read is answered OK: its cycles, then the read's (R100, R177). -/
theorem lineResetEnds_ok {s : State} {p : Params} (h : answered s (mkRef .dp .read .a0) = .ok) :
    (s.lineResetEnds p).trace = s.trace ++ lineResetCycles p ++ headerCycles (mkRef .dp .read .a0) ++
        releasedCycles s (mkRef .dp .read .a0) 38 ∧
      (s.lineResetEnds p).value = some (answeredWord s (mkRef .dp .read .a0)) ∧
      (s.lineResetEnds p).result =
        some (readResult (answeredWord s (mkRef .dp .read .a0)) (answeredParity s (mkRef .dp .read .a0))) := by
  rw [State.lineResetEnds, readEnds_ok (s := { s with trace := s.trace ++ lineResetCycles p }) h]
  exact ⟨rfl, rfl, rfl⟩

/-- A line reset whose read is answered anything else (R100, R178). -/
theorem lineResetEnds_error {s : State} {p : Params} (h : answered s (mkRef .dp .read .a0) ≠ .ok) :
    (s.lineResetEnds p).trace = s.trace ++ lineResetCycles p ++ headerCycles (mkRef .dp .read .a0) ++
        releasedCycles s (mkRef .dp .read .a0) 5 ∧
      (s.lineResetEnds p).value = none ∧
      (s.lineResetEnds p).result = some (resultOf (answered s (mkRef .dp .read .a0))) := by
  rw [State.lineResetEnds, readEnds_error (s := { s with trace := s.trace ++ lineResetCycles p }) h]
  exact ⟨rfl, rfl, rfl⟩

/-- A read leaves SELECT alone (R63). -/
@[simp] theorem State.readEnds_select (s : State) (port : Port) (slot : Slot) :
    (s.readEnds port slot).target.select = s.target.select := by
  by_cases h : answered s (mkRef port .read slot) = .ok
  · rw [readEnds_ok h]; simp [State.afterCycles]
  · rw [readEnds_error h]; simp [State.afterCycles]

/-- The magic of the line reset, bit 0 first (R100). -/
theorem lineResetCycles_hw : lineResetCycles Config.hw = List.replicate 152 (Cycle.h true) ++
    [false, true, true, true, true, false, false, true, true, true, true, false, false, true, true, true].map Cycle.h ++
    List.replicate 152 (Cycle.h true) ++ List.replicate 8 (Cycle.h false) := by
  have magic : bitsOf 8 0x9E ++ bitsOf 8 0xE7 =
    [false, true, true, true, true, false, false, true, true, true, true, false, false, true, true, true] := by decide
  rw [lineResetCycles, magic]
  rfl

/-! ### The statements -/

/-- Settles O21: what a whole read leaves, by the acknowledgement. -/
theorem readFormsComplete : Obligations.ReadFormsComplete := by
  intro i port slot s hi h
  refine ⟨_, exec_read_ready hi h, by simp [h.width], by simp [h.rxEn], by simp [h.seq], by simp, by simp, by simp,
    fun hok => ?_, fun herr => ?_⟩
  · rw [readEnds_ok hok]
    exact ⟨rfl, rfl, rfl⟩
  · rw [readEnds_error herr]
    exact ⟨rfl, rfl, rfl⟩

/-- Settles O22: what a whole write leaves, by the acknowledgement. -/
theorem writeFormsComplete : Obligations.WriteFormsComplete := by
  intro i port slot v s hi h
  refine ⟨_, exec_write_ready hi h, by simp [h.width], by simp [h.rxEn], by simp [h.seq], by simp, by simp, by simp,
    by simp, by simp [writeEnds_result], fun hok => ?_, fun herr => ?_⟩
  · rw [writeEnds_ok hok]
    exact ⟨by simp [dataCycles], by rw [State.reports_selShadow, State.shadows_selShadow]; rfl⟩
  · rw [writeEnds_error herr]
    exact ⟨rfl, rfl⟩

/-- Settles O23: its cycles, then what the DPIDR read leaves. -/
theorem lineResetCompletes : Obligations.LineResetCompletes := by
  intro s h
  refine ⟨_, execLineReset_ready h, by simp [h.width], by simp [h.rxEn], by simp [h.seq], by simp, by simp, by simp,
    by simp [State.lineResetEnds], by simp, ?_⟩
  intro cycles
  have hcycles : cycles = s.trace ++ lineResetCycles Config.hw ++ headerCycles (mkRef .dp .read .a0) := by
    rw [lineResetCycles_hw]
    simp only [cycles, List.append_assoc]
  rw [hcycles, State.reports_trace, State.reports_value, State.reports_result]
  exact ⟨lineResetEnds_ok, lineResetEnds_error⟩

/-- Settles O24: the second read is issued where the first ends OK, and there alone. -/
theorem rdapIsTwoReads : Obligations.RdapIsTwoReads := by
  rintro ⟨p, d, slot⟩ s hr h
  obtain ⟨rfl, rfl⟩ : p = .ap ∧ d = .read := wellFormed_rdap.mp hr
  have e := exec_read_ready (i := .rdRef (mkRef .ap .read slot)) (port := .ap) (slot := slot) rfl h
  refine ⟨_, e, fun hok => ?_, exec_rdap_failed h e⟩
  have second := exec_read_ready (i := .rdDpRdbuff) rfl (h.readEnds .ap slot)
  exact ⟨_, second, (exec_rdap_ok h e hok).trans second⟩

/-- Settles O25: on a ready engine the end of a read, a write or a line reset does not mention the offset. -/
theorem sampleOffsetUnobservable : Obligations.SampleOffsetUnobservable := by
  intro p q s h
  refine ⟨fun port slot => ?_, fun port slot v => ?_, fun hp hq hpre hpost hidle => ?_⟩
  · rw [readTransaction_ready h, readTransaction_ready h]
  · rw [writeTransaction_ready h, writeTransaction_ready h]
  · rw [lineResetTransaction_ready h p hp, lineResetTransaction_ready h q hq, lineResetEnds_offset s hpre hpost hidle]

/-- Settles O29: 8 header and 5 released cycles, 33 more in the data phase; 328 before a line reset's read. -/
theorem cycleCounts : Obligations.CycleCounts := by
  intro s h
  refine ⟨fun i port slot hi => ⟨_, exec_read_ready hi h, ?_⟩, fun i port slot v hi => ⟨_, exec_write_ready hi h, ?_⟩,
    _, execLineReset_ready h, ?_⟩
  · rw [State.reports_trace, readEnds_cycles]
  · rw [State.reports_trace, writeEnds_cycles]
  · rw [State.reports_trace, lineResetEnds_cycles]
    simp only [Config.hw]
    split <;> rfl

end Sys2Proof.Machine
end

section
/-! R131 to R138 and R101: the session operations and the transport primitives, each with its refusals; what a receive
frame samples under either offset. -/

namespace Sys2Proof.Machine

/-! ### The session operations -/

section
variable {s : State}

theorem exec_init_off (h : s.phase = .off) : exec .init s = .next s.initialised := if_pos h

theorem exec_init_not_off (h : s.phase ≠ .off) : exec .init s = .refused .initNotOff := if_neg h

theorem exec_engage_released (h : s.phase = .released) : exec .engage s = .next { s with phase := .engaged } :=
  if_pos h

theorem exec_engage_not_released (h : s.phase ≠ .released) : exec .engage s = .refused .engageNotReleased := if_neg h

theorem exec_disengage_idle (h : s.phase = .engaged) (hq : s.seq = []) :
    exec .disengage s = .next { s with phase := .released } := if_pos ⟨h, hq⟩

theorem exec_disengage_not_idle (h : s.phase ≠ .engaged ∨ s.seq ≠ []) :
    exec .disengage s = .refused .disengageNotEngaged := if_neg (not_and_or.mpr h)

/-- A state differs from the one `DISENGAGE` leaves in the phase alone (R138). -/
theorem State.with_phase_engaged (h : s.phase = .engaged) :
    { { s with phase := .released } with phase := .engaged } = s := by
  rw [← h]

end

/-- Settles O10: from Off the next state is `State.initialised`, which keeps the trace, the outputs and the target. -/
theorem initOperation : Obligations.InitOperation :=
  ⟨fun s h => ⟨s.initialised, exec_init_off h, rfl, rfl, rfl, rfl, rfl, rfl, rfl, rfl, rfl, rfl, rfl⟩,
    fun _ h => exec_init_not_off h⟩

/-- Settles O11: both pin drivers are functions of the phase, the data driver of the receive path too. -/
theorem engageOperation : Obligations.EngageOperation := by
  refine ⟨fun _ h => exec_engage_released h, fun s hr => ?_, fun _ => rfl, fun _ h => exec_engage_not_released h⟩
  simp [State.drivesData, hr]

/-- Settles O12: `ENGAGE` undoes the one change `DISENGAGE` makes. -/
theorem disengageOperation : Obligations.DisengageOperation := by
  refine ⟨fun _ h hq => exec_disengage_idle h hq, fun s h => ?_, fun _ h => exec_disengage_not_idle h⟩
  rw [exec_engage_released rfl, State.with_phase_engaged h]

/-! ### The width and the receive path -/

/-- The channel offers no other width than 5, 8 and 11 (R109). -/
theorem Width.ofBits_none {n : Nat} (h5 : n ≠ 5) (h8 : n ≠ 8) (h11 : n ≠ 11) : Width.ofBits n = none := by
  rw [Width.ofBits, if_neg h5, if_neg h8, if_neg h11]

section
variable {s : State}

theorem setWidth_badWidth (h : s.phase = .engaged) {n : Nat} (hn : Width.ofBits n = none) :
    setWidth n s = .refused .badWidth := by
  simp only [setWidth, h, hn, if_true]

theorem setWidth_notEngaged (h : s.phase ≠ .engaged) (n : Nat) : setWidth n s = .refused .notEngaged := if_neg h

theorem rxEnable_notEngaged (h : s.phase ≠ .engaged) : rxEnable s = .refused .notEngaged := if_neg h

theorem rxDisable_notEngaged (h : s.phase ≠ .engaged) : rxDisable s = .refused .notEngaged := if_neg h

/-- While engaged the host drives SWDIO exactly while the receive path is off (R25). -/
theorem State.drivesData_engaged (h : s.phase = .engaged) : s.drivesData = !s.rxEn := by
  simp [State.drivesData, h]

end

/-- Settles O14: `Width.ofBits` is defined on the three widths and nowhere else. -/
theorem setWidthPrimitive : Obligations.SetWidthPrimitive :=
  ⟨fun w _ h => setWidth_engaged h w,
    fun _ _ h h5 h8 h11 => setWidth_badWidth h (Width.ofBits_none h5 h8 h11),
    fun n _ h => setWidth_notEngaged h n, rfl, rfl, rfl⟩

/-- Settles O15: each switch writes `rxEn`, of which the data driver is the negation. -/
theorem receivePathSwitch : Obligations.ReceivePathSwitch := fun s =>
  ⟨fun h => ⟨rxEnable_engaged h, rxDisable_engaged h, State.drivesData_engaged (s := { s with rxEn := true }) h,
      State.drivesData_engaged (s := { s with rxEn := false }) h⟩,
    fun h => ⟨rxEnable_notEngaged h, rxDisable_notEngaged h⟩⟩

/-! ### Driven frames -/

section
variable {s : State}

/-- The wait for a ready signal after the last never ends (R262). -/
theorem awaitSignal_last (h : s.signals = some 0) : awaitSignal s = .hung s := by simp only [awaitSignal, h]

theorem txFrame_notEngaged (h : s.phase ≠ .engaged) (v : Nat) : txFrame v s = .refused .notEngaged := if_neg h

theorem txFrame_whileRx (h : s.phase = .engaged) (hr : s.rxEn = true) (v : Nat) :
    txFrame v s = .refused .txWhileRx := by
  simp [txFrame, h, hr]

theorem txFrame_tooWide (h : s.phase = .engaged) (hr : s.rxEn = false) {v : Nat} (hv : 2 ^ s.width.bits ≤ v) :
    txFrame v s = .refused .txValueTooWide := by
  simp [txFrame, h, hr, Nat.not_lt.mpr hv]

theorem txFrame_hung (h : s.phase = .engaged) (hr : s.rxEn = false) {v : Nat} (hv : v < 2 ^ s.width.bits)
    (hs : s.signals = some 0) : txFrame v s = .hung s := by
  simp [txFrame, h, hr, hv, awaitSignal_last hs]

/-- Two frames driven one after the other drive the bits of the first, then those of the second (R135). -/
theorem State.drive_drive (s : State) (v1 v2 : Nat) :
    (s.drive v1).drive v2 =
      { s with trace := s.trace ++ (bitsOf s.width.bits v1 ++ bitsOf s.width.bits v2).map Cycle.h } := by
  simp only [State.drive, List.map_append, List.append_assoc]

/-- A double whose first frame goes out ends as its second frame does (R135). -/
theorem txDouble_driving (h : s.phase = .engaged) (hr : s.rxEn = false) (hs : s.signals = none) {v1 : Nat}
    (hv : v1 < 2 ^ s.width.bits) (v2 : Nat) : txDouble v1 v2 s = txFrame v2 (s.drive v1) :=
  Run.andThen_eq _ (txFrame_driving v1 h hr hs hv)

/-- A double whose first frame is refused is refused (R135). -/
theorem txDouble_refused {v1 : Nat} {e : Refusal} (h : txFrame v1 s = .refused e) (v2 : Nat) :
    txDouble v1 v2 s = .refused e := by
  rw [txDouble, h, Run.andThen_refused]

end

/-- Settles O16: the frame is `State.drive`; the refusals come in the order of the tests. -/
theorem txFramePrimitive : Obligations.TxFramePrimitive := by
  intro v s
  refine ⟨fun h hr hv hs => ?_, fun h => txFrame_notEngaged h v, fun h hr => txFrame_whileRx h hr v,
    fun h hr hv => txFrame_tooWide h hr hv, fun h hr hv hs => txFrame_hung h hr hv hs⟩
  rw [txFrame_driving v h hr hs hv, State.drive, bitsOf, List.map_map]
  rfl

/-- Settles O17: the state after the first frame meets the requirements of the second but for the bound on its value. -/
theorem txDoublePrimitive : Obligations.TxDoublePrimitive := by
  intro v1 v2 s
  refine ⟨fun h hr hv1 hv2 hs => ?_, fun h => txDouble_refused (txFrame_notEngaged h v1) v2,
    fun h hr => txDouble_refused (txFrame_whileRx h hr v1) v2,
    fun h hr hv1 => txDouble_refused (txFrame_tooWide h hr hv1) v2, fun h hr hv1 hv2 hs => ?_⟩
  · rw [txDouble_driving h hr hs hv1, txFrame_driving (s := s.drive v1) v2 h hr hs hv2, State.drive_drive]
  · rw [txDouble_driving h hr hs hv1, txFrame_tooWide (s := s.drive v1) h hr hv2]

/-! ### Receive frames -/

section
variable {p : Params} {s : State} {n : Nat}

theorem xchgFrame_notEngaged (h : s.phase ≠ .engaged) (p : Params) : xchgFrame p s = .refused .notEngaged := if_neg h

theorem xchgFrame_rxDisabled (h : s.phase = .engaged) (hr : s.rxEn = false) (p : Params) :
    xchgFrame p s = .refused .rxDisabled := by
  simp [xchgFrame, h, hr]

theorem xchgFrame_hung (h : s.phase = .engaged) (hr : s.rxEn = true) (hs : s.signals = some 0) (p : Params) :
    xchgFrame p s = .hung s := by
  simp [xchgFrame, h, hr, awaitSignal_last hs]

/-- A frame has one sample a cycle, under either offset (R136). -/
@[simp] theorem State.samples_length (s : State) (p : Params) (n : Nat) : (s.samples p n).length = n := by
  unfold State.samples
  split <;> simp [State.levels]

/-- Under offset 0 sample `j` is the line in cycle `j` of the frame (R101). -/
theorem getElem?_samples_same (h : p.rxOffset = .same) {j : Nat} (hj : j < n) :
    (s.samples p n)[j]? = some (s.level j) := by
  rw [samples_same h, getElem?_seg, if_pos hj, Nat.zero_add]

/-- Under offset 1 every sample but the first is the line one cycle before (R101). -/
theorem getElem?_samples_late (h : p.rxOffset = .late) {j : Nat} (hj : j + 1 < n) :
    (s.samples p n)[j + 1]? = some (s.level j) := by
  obtain ⟨m, rfl⟩ : ∃ m, n = m + 1 := ⟨n - 1, by omega⟩
  rw [samples_late h, List.getElem?_cons_succ, getElem?_seg, if_pos (by omega), Nat.zero_add]

/-- Under offset 1 the first sample is that of the cycle before the frame (R101). -/
theorem getElem?_samples_late_zero (h : p.rxOffset = .late) (hn : 0 < n) :
    (s.samples p n)[0]? = some s.lateSample := by
  obtain ⟨m, rfl⟩ : ∃ m, n = m + 1 := ⟨n - 1, by omega⟩
  rw [samples_late h, List.getElem?_cons_zero]

/-- After a released cycle a lagging receiver samples first the level of that cycle (R101). -/
theorem lateSample_released {b : Bool} (h : s.trace.getLast? = some (Cycle.t b)) : s.lateSample = b := by
  simp only [State.lateSample, h]

end

theorem Width.bits_pos (w : Width) : 0 < w.bits := by cases w <;> decide

/-- Settles O18: the frame is `State.receive`, whose one new entry of `rx` is `State.samples`. -/
theorem xchgFramePrimitive : Obligations.XchgFramePrimitive := by
  intro p s
  refine ⟨fun h hr hs => ⟨s.receive p s.width.bits, xchgFrame_receiving p h hr hs, ?cycles,
      ⟨s.samples p s.width.bits, rfl, State.samples_length s p _, ?same, ?late, ?first⟩, rfl, rfl, rfl, rfl, rfl, ?rest⟩,
    fun h => xchgFrame_notEngaged h p, fun h hr => xchgFrame_rxDisabled h hr p,
    fun h hr hs => xchgFrame_hung h hr hs p⟩
  case cycles =>
    rw [State.receive_trace, State.levels, List.map_map]
    rfl
  case same => exact fun ho j hj => getElem?_samples_same ho hj
  case late => exact fun ho j hj => getElem?_samples_late ho hj
  case first =>
    intro ho b hb
    rw [getElem?_samples_late_zero ho s.width.bits_pos, lateSample_released hb]
  case rest =>
    intro k
    rw [State.level_receive]

end Sys2Proof.Machine
end

section
/-! R160 to R163, R178, R179, R188: parity and the bit errors it shows, what every operation on the wire checks before
and restores after, the cycles a read does not look at, and a word written and read back. -/

namespace Sys2Proof.Machine

/-! ### Parity -/

theorem parity_toNat {n : Nat} (v : BitVec n) : (parity v).toNat = popcount v % 2 := by
  rcases Nat.mod_two_eq_zero_or_one (popcount v) with h | h <;> simp [parity, h]

/-- The parity bit makes the number of ones even (R160). -/
theorem count_true_with_parity {n : Nat} (v : BitVec n) :
    (bitsOf n v.toNat ++ [parity v]).count true % 2 = 0 := by
  have last : [parity v].count true = (parity v).toNat := by cases parity v <;> rfl
  rw [List.count_append, last, parity_toNat]
  change (popcount v + popcount v % 2) % 2 = 0
  omega

/-- Settles O19: the parity bit adds a one exactly where the number of ones of the word is odd. -/
theorem parityIsEven : Obligations.ParityIsEven :=
  ⟨parity_toNat, count_true_with_parity, by decide, by decide, fun r => req_getLsbD r (by decide)⟩

/-! ### Bit errors -/

theorem count_true_set_not (l : List Bool) {k : Nat} (hk : k < l.length) :
    (l.set k (!l[k])).count true + l[k].toNat = l.count true + (!l[k]).toNat := by
  induction l generalizing k with
  | nil => cases hk
  | cons b l ih =>
    cases k with
    | zero => cases b <;> simp
    | succ k =>
      have := ih (Nat.lt_of_succ_lt_succ hk)
      simp only [List.set_cons_succ, List.getElem_cons_succ, List.count_cons]
      omega

section
variable {n : Nat} (w : BitVec n) {k : Nat}

/-- A word with one bit flipped has that bit flipped on the wire. -/
theorem bitsOf_flip (hk : k < n) :
    bitsOf n (w ^^^ (1#n <<< k)).toNat = (bitsOf n w.toNat).set k (!w.getLsbD k) := by
  apply List.ext_getElem?
  intro i
  rw [List.getElem?_set, getElem?_bitsOf, getElem?_bitsOf, bitsOf_length]
  by_cases hi : i < n
  · rw [if_pos hi, if_pos hi, BitVec.testBit_toNat, BitVec.testBit_toNat, BitVec.getLsbD_xor, ← BitVec.twoPow_eq,
      BitVec.getLsbD_twoPow]
    by_cases h : k = i
    · subst h; simp [hk]
    · simp [h]
  · have h : k ≠ i := by omega
    simp [hi, h]

/-- One flipped bit is one more or one less in the number of ones. -/
theorem popcount_flip (hk : k < n) :
    popcount (w ^^^ (1#n <<< k)) + (w.getLsbD k).toNat = popcount w + (!w.getLsbD k).toNat := by
  have hbit : (bitsOf n w.toNat)[k]'(by simpa using hk) = w.getLsbD k := by simp [bitsOf, BitVec.testBit_toNat]
  rw [popcount, popcount, bitsOf_flip w hk, ← hbit]
  exact count_true_set_not _ _

theorem parity_flip (hk : k < n) : parity (w ^^^ (1#n <<< k)) = !parity w := by
  have odd : popcount (w ^^^ (1#n <<< k)) % 2 = 1 - popcount w % 2 := by
    have hflip := popcount_flip w hk
    have hbit : (w.getLsbD k).toNat + (!w.getLsbD k).toNat = 1 := by cases w.getLsbD k <;> rfl
    omega
  rcases Nat.mod_two_eq_zero_or_one (popcount w) with h | h <;> simp [parity, odd, h]

end

theorem readResult_ok {w : Word} {p : Bool} (h : p = parity w) : readResult w p = .ok := if_pos h

theorem readResult_parity {w : Word} {p : Bool} (h : p ≠ parity w) : readResult w p = .parity := if_neg h

/-- Settles O26: each flipped bit changes the parity of the word, so one is seen and two are not. -/
theorem readBitErrors : Obligations.ReadBitErrors := by
  refine ⟨fun w k hk => readResult_parity ?_, fun w j k hj hk _ => readResult_ok ?_, by decide, by decide, by decide⟩
  · simp [parity_flip w hk]
  · simp [parity_flip _ hk, parity_flip w hj]

/-! ### Before and after an operation on the wire -/

/-- Every operation on the wire is a call under the precondition of R161. -/
theorem exec_onWire {i : Instr} (hi : onWire i = true) :
    ∃ body, ∀ s, exec i s = (callOnWire body s).outcome := by
  rcases instr_forms i with ⟨port, slot, h⟩ | ⟨port, slot, v, h⟩ | rfl | ⟨ref, rfl⟩ | rfl | rfl | rfl | rfl
  · exact ⟨_, exec_readForm h⟩
  · exact ⟨_, exec_writeForm h⟩
  · exact ⟨_, fun _ => rfl⟩
  · exact ⟨_, fun _ => rfl⟩
  · exact ⟨_, fun _ => rfl⟩
  all_goals cases hi

section
variable {body : State → Run} {s : State}

theorem callOnWire_notEngaged (h : s.phase ≠ .engaged) : callOnWire body s = .refused .notEngaged := if_neg h

theorem callOnWire_busy (h : s.phase = .engaged) (hq : s.seq ≠ []) : callOnWire body s = .refused .busy := by
  rw [callOnWire, if_pos h, if_neg hq]

end

/-- Settles O13: the refusals are those of `callOnWire`; the transport is the invariant's. -/
theorem wirePrecondition : Obligations.WirePrecondition := by
  intro i s hi
  obtain ⟨body, e⟩ := exec_onWire hi
  refine ⟨fun h => ?_, fun h hq => ?_, fun hinv h hq => hinv.transport (by simp [h]) (.inl hq)⟩
  · rw [e, callOnWire_notEngaged h, Run.outcome_refused]
  · rw [e, callOnWire_busy h hq, Run.outcome_refused]

/-- An engine that waits for ever in an operation a caller called is not at rest (R262). -/
theorem Stuck.not_atRest {s t : State} (h : Stuck s [] t) : ¬ t.atRest := by
  obtain ⟨l, hl, hd, hseq⟩ := h.seq
  rw [List.append_nil] at hseq
  rintro (k | k) <;> rw [hseq] at k
  · exact hl k
  · exact hd (by simp [k])

/-- An operation on the wire that is one transaction or two has reported the end of its last, or waits for ever. -/
theorem exec_ended_or_stuck {i : Instr} {s t : State} (hi : onWire i = true) (hd : i ≠ .dpInit)
    (e : exec i s = .next t) :
    (∃ x u, x.seq = [] ∧ Ended x u ∧ t = u.reports) ∨ ∃ x, Stuck x [] t := by
  rcases instr_forms i with ⟨port, slot, h⟩ | ⟨port, slot, v, h⟩ | rfl | ⟨ref, rfl⟩ | rfl | rfl | rfl | rfl
  · obtain ⟨-, hq, k⟩ := callRead_next (exec_readForm h s ▸ e)
    exact k.imp (fun ⟨u, hu, ht⟩ => ⟨s, u, hq, hu.toEnded, ht⟩) fun hs => ⟨s, hs⟩
  · obtain ⟨-, hq, k⟩ := callWrite_next (exec_writeForm h s ▸ e)
    exact k.imp (fun ⟨u, hu, ht⟩ => ⟨{ s with opWdata := v }, u, hq, hu.toEnded, ht⟩) fun hs => ⟨_, hs⟩
  · obtain ⟨-, hq, k⟩ := execLineReset_next e
    exact k.imp (fun ⟨u, hu, ht⟩ => ⟨s, u, hq, hu.toEnded, ht⟩) fun hs => ⟨s, hs⟩
  · obtain ⟨-, hq, ⟨u, hu, -, ht⟩ | ⟨u, w, hu, -, hw, ht⟩ | hs | ⟨u, -, -, hs⟩⟩ := execRdap_next e
    · exact .inl ⟨s, u, hq, hu.toEnded, ht⟩
    · exact .inl ⟨u.reports, w, hu.seq.trans hq, hw.toEnded, ht⟩
    · exact .inr ⟨s, hs⟩
    · exact .inr ⟨u.reports, hs⟩
  · exact absurd rfl hd
  all_goals cases hi

/-- Settles O30: every end of a transaction restores the transport. -/
theorem transportRestored : Obligations.TransportRestored := by
  intro i s t hi hd e
  rcases exec_ended_or_stuck hi hd e with ⟨x, u, hq, hu, rfl⟩ | ⟨x, hs⟩
  · obtain ⟨r, hr, -⟩ := hu.result
    exact .inl ⟨hu.seq.trans hq, hu.width, hu.rxEn, hu.ack, hu.rx, r, hr⟩
  · exact .inr ⟨hs.not_atRest, hs.signals⟩

/-! ### The cycles a read looks at -/

theorem seg_congr {L M : Nat → Bool} {a n : Nat} (h : ∀ k, a ≤ k → k < a + n → L k = M k) : seg L a n = seg M a n :=
  List.map_congr_left fun k hk => h (a + k) (by omega) (by have := List.mem_range.mp hk; omega)

section
variable {s t : State} {r : RegRef}

/-- The acknowledgement is a function of the levels in `c1` to `c3`. -/
theorem answered_eq_seg (s : State) (r : RegRef) :
    answered s r = ackCode (ackOf (seg (s.targetHears (req r)).level 1 3)) := by
  rw [answered, lineLevels, State.levels_eq_seg, show (4 : Nat) = 1 + 3 from rfl, seg_drop]

/-- The word of a read is a function of the levels in `c4` to `c35`. -/
theorem answeredWord_eq_seg (s : State) (r : RegRef) :
    answeredWord s r = wordOf (seg (s.targetHears (req r)).level 4 32) := by
  rw [answeredWord, lineLevels, State.levels_eq_seg, show (36 : Nat) = 4 + 32 from rfl, seg_drop]

/-- The value and the result of a read are a function of the levels in `c1` to `c36` (R179). -/
theorem readEnds_alike {port : Port} {slot : Slot}
    (h : ∀ k, 1 ≤ k → k ≤ 36 → (s.targetHears (req (mkRef port .read slot))).level k =
      (t.targetHears (req (mkRef port .read slot))).level k) :
    (s.readEnds port slot).value = (t.readEnds port slot).value ∧
      (s.readEnds port slot).result = (t.readEnds port slot).result := by
  have ack : answered s (mkRef port .read slot) = answered t (mkRef port .read slot) := by
    rw [answered_eq_seg, answered_eq_seg, seg_congr fun k _ _ => h k (by omega) (by omega)]
  have word : answeredWord s (mkRef port .read slot) = answeredWord t (mkRef port .read slot) := by
    rw [answeredWord_eq_seg, answeredWord_eq_seg, seg_congr fun k _ _ => h k (by omega) (by omega)]
  have par : answeredParity s (mkRef port .read slot) = answeredParity t (mkRef port .read slot) :=
    h 36 (by omega) (by omega)
  by_cases hok : answered t (mkRef port .read slot) = .ok
  · rw [readEnds_ok hok, readEnds_ok (ack.trans hok), word, par]
    exact ⟨rfl, rfl⟩
  · rw [readEnds_error hok, readEnds_error (ack ▸ hok), ack]
    exact ⟨rfl, rfl⟩

/-- A target with a raw reply drives its levels. -/
theorem targetHears_raw {l : List (Option Bool)} {rest : List Reply} (h : s.target.script = .raw l :: rest)
    (b : Header) : (s.targetHears b).target = { s.target with script := rest, out := l, taking := none } :=
  Target.hears_raw _ _ _ (Target.coming_script _ h)

theorem level_raw {l : List (Option Bool)} {rest : List Reply} (h : s.target.script = .raw l :: rest) (k : Nat) :
    (s.targetHears (req r)).level k = (l.getD k none).getD (Config.freeLevel (s.draws + k)) := by
  rw [level_out (congrArg Target.out (targetHears_raw h _))]

end

/-- Settles O27: where neither target drives a level the line has the same free one. -/
theorem unusedCyclesIgnored : Obligations.UnusedCyclesIgnored := by
  intro i port slot s l m rest hi h hlm
  have ready : ∀ x, ReadyIdle { s with target := { s.target with script := x :: rest } } := fun _ =>
    ⟨⟨h.phase, h.width, h.rxEn, h.signals⟩, h.seq⟩
  refine ⟨_, _, exec_read_ready hi (ready _), exec_read_ready hi (ready _), ?_⟩
  simp only [State.reports_value, State.reports_result]
  refine readEnds_alike fun k h1 h36 => ?_
  rw [level_raw (l := l) (rest := rest) rfl, level_raw (l := m) (rest := rest) rfl, hlm k h1 h36]

/-! ### A word written and read back -/

section
variable {s : State} {port : Port} {slot : Slot} {v : Word} {rest : List Reply}

/-- A write answered OK by a target with a raw reply has driven the word and its parity bit last; the target has
come to its next reply. -/
theorem writeEnds_raw (h : s.target.script = .raw (none :: ackLevels .ok) :: rest) :
    (s.writeEnds port slot v).result = some .ok ∧ (s.writeEnds port slot v).target.script = rest ∧
      (s.writeEnds port slot v).lastDriven 33 = bitsOf 32 v.toNat ++ [parity v] := by
  have heard := targetHears_raw h (req (mkRef port .write slot))
  have hok : answered s (mkRef port .write slot) = .ok :=
    answered_ack (l := []) (by simpa using congrArg Target.out heard)
  refine ⟨by rw [writeEnds_result, hok]; rfl, ?_, ?_⟩
  · rw [writeEnds_ok hok, State.shadows_target]
    simp only [takenBy, State.afterCycles, heard, Target.takes]
  · have driven := lastDriven_append (s.writeEnds port slot v) _ (bitsOf 32 v.toNat ++ [parity v])
      (by rw [writeEnds_ok hok, State.shadows_trace]; rfl)
    simpa using driven

/-- A read of a target that drives a word and its parity bit returns the word. -/
theorem readEnds_raw (h : s.target.script = .raw (none :: ackLevels .ok ++ dataLevels v (parity v)) :: rest) :
    (s.readEnds port slot).value = some v ∧ (s.readEnds port slot).result = some .ok := by
  have out := congrArg Target.out (targetHears_raw h (req (mkRef port .read slot)))
  rw [readEnds_ok (answered_ack out), answeredWord_data out, answeredParity_data out, readResult_ok rfl]
  exact ⟨rfl, rfl⟩

end

@[simp] theorem State.reports_lastDriven (s : State) (n : Nat) : s.reports.lastDriven n = s.lastDriven n := rfl

/-- Settles O28: the 33 bits driven are those that a target sending the word drives. -/
theorem writeReadRoundTrip : Obligations.WriteReadRoundTrip := by
  intro port slot v echo s rest h hs
  obtain ⟨hresult, hscript, hdriven⟩ := writeEnds_raw (port := port) (slot := slot) (v := v) hs
  refine ⟨_, exec_write_ready (port := port) (slot := slot) rfl h, by rw [State.reports_result, hresult],
    fun hecho => ⟨_, exec_read_ready (port := port) (slot := slot) rfl (h.writeEnds port slot v), ?_⟩⟩
  rw [State.reports_lastDriven, hdriven] at hecho
  rw [State.reports_value, State.reports_result]
  exact readEnds_raw (rest := rest) (by rw [State.reports_target, hscript, hecho, dataLevels])

end Sys2Proof.Machine
end

section
/-! R220 to R227: what a step of `dp_init` leaves on a ready engine, one lemma a kind of transaction; with it the states
of the machine, where the call starts and ends, how many STAT reads a target's WAITs cost, the loops without end, and the
rewrite of CSW. -/

namespace Sys2Proof.Machine

/-! ### The start and the end of the call -/

theorem step_inDpInit {s : State} (h : s.seq = [.dpInit]) : step s = (initStep Config.hw s).outcome := by
  obtain ⟨-, -, -, inDpInit, -⟩ := stepRunsDecodedCall
  exact inDpInit s h

theorem exec_dpInit_ready {s : State} (h : ReadyIdle s) : exec .dpInit s = .next s.startsInit := by
  rw [exec, execDpInit, callOnWire_idle _ h, Run.outcome_done]

theorem step_done {s : State} (h : s.seq = [.dpInit]) (hi : s.initState = .done) :
    step s = .next (s.endsInit s.idr (some .ok)) := by
  rw [step_inDpInit h]; simp only [initStep, hi, Run.outcome_done]

theorem step_failed {s : State} (h : s.seq = [.dpInit]) (hi : s.initState = .failed) :
    step s = .next (s.endsInit none s.result) := by
  rw [step_inDpInit h]; simp only [initStep, hi, Run.outcome_done]

/-- Settles O40: `startsInit` and `endsInit` write the fields named and no other. -/
theorem dpInitStartsAndEnds : Obligations.DpInitStartsAndEnds := by
  refine ⟨fun s h => ?_, fun s h => ⟨fun hi => ?_, fun hi => ?_⟩⟩
  · exact exec_dpInit_ready h
  · exact step_done h hi
  · exact step_failed h hi

/-! ### A transaction and the move after it -/

/-- Where the state machine goes by the result and the word of a transaction (R221, R222). -/
def initNext (i : InitState) (r : Option Result) (w : Option Word) : InitState :=
  if r = some .ok then initNextOk i (w.getD 0) else if r = some .wait then initNextWait i else .failed

/-- What the move of the state machine makes of what a transaction left (R221, R34). -/
def State.initMoves (u : State) : State :=
  { u with
    initState := initNext u.initState u.result u.value
    idr := if u.initState = .s4ReadBuf ∧ u.result = some .ok then u.value else u.idr }

/-- The state machine moves by a result and, where the word is used, a word. -/
theorem initAdvance_moves {u : State} (hr : ∃ r, u.result = some r)
    (hv : usesWord u.initState = true → u.result = some .ok → u.value.isSome = true) :
    initAdvance u = .done u.initMoves := by
  obtain ⟨r, hr⟩ := hr
  rw [initAdvance, withResult_some hr]
  cases r with
  | ok =>
    have hnext : initNext u.initState u.result u.value = initNextOk u.initState (u.value.getD 0) := if_pos hr
    by_cases huse : usesWord u.initState = true
    · obtain ⟨w, hw⟩ := Option.isSome_iff_exists.mp (hv huse hr)
      simp only [huse, if_true, withValue_some hw, State.takesIdr, State.initMoves, hnext]
      by_cases hbuf : u.initState = .s4ReadBuf <;> simp [hbuf, hr, hw]
    · have hbuf : u.initState ≠ .s4ReadBuf := fun k => huse (by rw [k]; rfl)
      simp only [huse, if_false, State.initMoves, hnext, hbuf, false_and,
        initNextOk_unused _ (by simpa using huse) (u.value.getD 0)]
      rfl
  | wait | fault | noAck | parity | timeout => simp [State.initMoves, initNext, hr]

/-- The write that a state of `dp_init` makes, if it makes one; `w` is the word read last (R220). -/
def initWrites (i : InitState) (w : Word) : Option (Port × Slot × Word) :=
  match i with
  | .s2SelBank15 => some (.dp, .a2, selectBank15)
  | .s3WriteStat => some (.dp, .a1, statWrite w cdbgPwrUpReq)
  | .s5SelBank0 => some (.dp, .a2, selectBank0)
  | .s6WriteCsw => some (.ap, .a0, cswRewrite w)
  | .s7WriteStat => some (.dp, .a1, statWrite w csysPwrUpReq)
  | .idle | .s1Reset | .s3ReadStat | .s4ApReadIdr | .s4ReadBuf | .s6ApReadCsw | .s6ReadBuf | .s7ReadStat | .done
  | .failed => none

theorem initStep_writes (p : Params) {s : State} {w v : Word} {port : Port} {slot : Slot}
    (hw : writesReadWord s.initState = true → s.value = some w) (hi : initWrites s.initState w = some (port, slot, v)) :
    initStep p s = (writeTransaction p port slot v s).andThen initAdvance := by
  unfold initStep
  cases hk : s.initState <;>
    simp only [hk, initWrites, Option.some.injEq, Prod.mk.injEq, reduceCtorEq] at hi hw <;>
    obtain ⟨rfl, rfl, rfl⟩ := hi
  case s2SelBank15 | s5SelBank0 => rfl
  case s3WriteStat | s6WriteCsw | s7WriteStat => exact withValue_some (hw rfl) _

/-- A state that writes uses no word. -/
theorem usesWord_of_initWrites {i : InitState} {w : Word} (h : (initWrites i w).isSome = true) : usesWord i = false := by
  cases i with
  | s3ReadStat | s4ReadBuf | s6ReadBuf | s7ReadStat => cases h
  | _ => rfl

theorem ackCode_of_resultOf {a : AckCode} (h : resultOf a = .ok) : a = .ok := by
  cases a with
  | ok => rfl
  | wait | fault | noAck => cases h

section
variable {s : State} {port : Port} {slot : Slot}

/-- A read that ends OK has a word (R178). -/
theorem readEnds_value_isSome (s : State) (port : Port) (slot : Slot)
    (h : (s.readEnds port slot).result = some .ok) : (s.readEnds port slot).value.isSome = true := by
  by_cases ha : answered s (mkRef port .read slot) = .ok
  · rw [readEnds_ok ha]; rfl
  · rw [readEnds_error ha] at h
    exact absurd (ackCode_of_resultOf (Option.some.inj h)) ha

/-- A step of `dp_init` that reads, on a ready engine. -/
theorem step_initReads (h : ReadyInit s) (hi : initReads s.initState = some (port, slot)) :
    step s = .next (s.readEnds port slot).initMoves := by
  obtain ⟨r, hr, -⟩ := readEnds_result s port slot
  rw [step_inDpInit h.seq, initStep_reads _ hi, Run.andThen_eq _ (readTransaction_ready h.toReady _ port slot),
    initAdvance_moves ⟨r, hr⟩ fun _ => readEnds_value_isSome s port slot, Run.outcome_done]

/-- A step of `dp_init` that writes, on a ready engine. -/
theorem step_initWrites {w v : Word} (h : ReadyInit s) (hw : writesReadWord s.initState = true → s.value = some w)
    (hi : initWrites s.initState w = some (port, slot, v)) : step s = .next (s.writeEnds port slot v).initMoves := by
  have huse : usesWord (s.writeEnds port slot v).initState = false := by
    rw [State.writeEnds_initState]; exact usesWord_of_initWrites (by rw [hi]; rfl)
  rw [step_inDpInit h.seq, initStep_writes _ hw hi, Run.andThen_eq _ (writeTransaction_ready h.toReady _ port slot v),
    initAdvance_moves ⟨_, writeEnds_result s port slot v⟩ (fun k => absurd (huse ▸ k) (by decide)), Run.outcome_done]

/-- The step of `dp_init` that resets the line, on a ready engine. -/
theorem step_initReset (h : ReadyInit s) (hi : s.initState = .s1Reset) :
    step s = .next (s.lineResetEnds Config.hw).initMoves := by
  have ended : ∃ r, (s.lineResetEnds Config.hw).result = some r :=
    (readEnds_result { s with trace := s.trace ++ lineResetCycles Config.hw } .dp .a0).imp fun _ k => k.1
  rw [step_inDpInit h.seq]
  simp only [initStep, hi]
  rw [Run.andThen_eq _ (lineResetTransaction_ready h.toReady _ hw_valid),
    initAdvance_moves ended (by simp [hi, usesWord]), Run.outcome_done]

end

/-- The move of the state machine is one of `initState` alone, but for the IDR read of step 4. -/
theorem State.initMoves_eq {u : State} (h : u.initState ≠ .s4ReadBuf) :
    u.initMoves = { u with initState := initNext u.initState u.result u.value } := by
  simp only [State.initMoves, h, false_and, if_false]

section
variable (u : State)

@[simp] theorem State.initMoves_value : u.initMoves.value = u.value := rfl
@[simp] theorem State.initMoves_result : u.initMoves.result = u.result := rfl
@[simp] theorem State.initMoves_initState : u.initMoves.initState = initNext u.initState u.result u.value := rfl
@[simp] theorem State.initMoves_selShadow : u.initMoves.selShadow = u.selShadow := rfl
@[simp] theorem State.initMoves_trace : u.initMoves.trace = u.trace := rfl
@[simp] theorem State.initMoves_outputs : u.initMoves.outputs = u.outputs := rfl
@[simp] theorem State.initMoves_target : u.initMoves.target = u.target := rfl

end

/-- The engine is ready for the next transaction of `dp_init`. -/
theorem Ready.initMoves {u : State} (h : Ready u) (hq : u.seq = [.dpInit]) : ReadyInit u.initMoves :=
  ⟨⟨h.phase, h.width, h.rxEn, h.signals⟩, hq⟩

theorem ReadyInit.readMoves {s : State} (h : ReadyInit s) (port : Port) (slot : Slot) :
    ReadyInit (s.readEnds port slot).initMoves :=
  (h.toReady.readEnds port slot).initMoves ((State.readEnds_seq s port slot).trans h.seq)

theorem ReadyInit.writeMoves {s : State} (h : ReadyInit s) (port : Port) (slot : Slot) (v : Word) :
    ReadyInit (s.writeEnds port slot v).initMoves :=
  (h.toReady.writeEnds port slot v).initMoves ((State.writeEnds_seq s port slot v).trans h.seq)

/-! ### Each state of the machine -/

/-- A field of a word is zero where the word has no bit of the field's mask. -/
theorem extractLsb'_eq_zero_iff {a n : Nat} {m : Word}
    (hm : ∀ i, i < 32 → m.getLsbD i = decide (a ≤ i ∧ i < a + n)) (hn : a + n ≤ 32) (w : Word) :
    w.extractLsb' a n = 0 ↔ w &&& m = 0 := by
  constructor <;> intro h <;> apply BitVec.eq_of_getLsbD_eq <;> intro i hi
  · by_cases hf : a ≤ i ∧ i < a + n
    · have bit := congrArg (fun x => x.getLsbD (i - a)) h
      simpa [hm i hi, hf, show i - a < n by omega] using bit
    · simp [hm i hi, hf]
  · have bit := congrArg (fun x => x.getLsbD (a + i)) h
    simpa [hm (a + i) (by omega), hi] using bit

theorem and_or_eq_zero_iff (w m k : Word) : w &&& (m ||| k) = 0 ↔ w &&& m = 0 ∧ w &&& k = 0 := by
  simp [BitVec.and_or_distrib_left, BitVec.or_eq_zero_iff]

/-- The step-3 test in one mask: TRNCNT, MASKLANE, TRNMODE and ORUNDETECT are the bits of 0x00FFFF0D (R43, R223). -/
theorem debugPowered_iff (w : Word) : debugPowered w = true ↔ w.getLsbD 29 = true ∧ w &&& 0x00FFFF0D = 0 := by
  have fields : (0x00FFFF0D : Word) = 0x00FFF000 ||| (0x00000F00 ||| (0x0000000C ||| 0x00000001)) := by decide
  have trnCnt := extractLsb'_eq_zero_iff (a := 12) (n := 12) (m := 0x00FFF000) (by decide) (by decide) w
  have maskLane := extractLsb'_eq_zero_iff (a := 8) (n := 4) (m := 0x00000F00) (by decide) (by decide) w
  have trnMode := extractLsb'_eq_zero_iff (a := 2) (n := 2) (m := 0x0000000C) (by decide) (by decide) w
  have orunDetect : w.getLsbD 0 = false ↔ w &&& 0x00000001 = 0 := by
    rw [show (0x00000001 : Word) = 1#32 from rfl, BitVec.and_one_eq_setWidth_ofBool_getLsbD]
    cases w.getLsbD 0 <;> decide
  simp only [debugPowered, Bool.and_eq_true, Bool.not_eq_true', beq_iff_eq, fields, and_or_eq_zero_iff, trnCnt, maskLane,
    trnMode, orunDetect, and_assoc]

/-- The move of R221 and R222: where OK leads, where WAIT leads, and `Failed` on everything else. -/
theorem State.initMoves_goes {u : State} {i onOk onWait : InitState} (hu : u.initState = i) (hi : i ≠ .s4ReadBuf)
    (hok : u.result = some .ok → initNextOk i (u.value.getD 0) = onOk) (hwait : initNextWait i = onWait) :
    u.initMoves = { u with
      initState := if u.result = some .ok then onOk else if u.result = some .wait then onWait else .failed } := by
  subst hu hwait
  rw [State.initMoves_eq hi, initNext]
  by_cases h : u.result = some .ok
  · simp only [h, if_true, hok h]
  · simp only [h, if_false]

/-- Settles O39: a step is the transaction of the state and the move after it. -/
theorem dpInitTransitions : Obligations.DpInitTransitions := by
  intro s h read write goes
  have reads {i onOk onWait : InitState} {port : Port} {slot : Slot} (hi : s.initState = i)
      (hread : initReads i = some (port, slot)) (hbuf : i ≠ .s4ReadBuf) (hwait : initNextWait i = onWait)
      (hok : (read port slot).result = some .ok → initNextOk i ((read port slot).value.getD 0) = onOk) :
      goes (read port slot) onOk onWait :=
    (step_initReads h (hi ▸ hread)).trans
      (congrArg _ (State.initMoves_goes (by rw [State.readEnds_initState, hi]) hbuf hok hwait))
  have writes {i onOk onWait : InitState} {port : Port} {slot : Slot} {v : Word} (w : Word) (hi : s.initState = i)
      (hw : writesReadWord i = true → s.value = some w) (hwrite : initWrites i w = some (port, slot, v))
      (hok : initNextOk i 0 = onOk) (hwait : initNextWait i = onWait) : goes (write port slot v) onOk onWait := by
    have huse : usesWord i = false := usesWord_of_initWrites (by rw [hwrite]; rfl)
    exact (step_initWrites h (hi ▸ hw) (hi ▸ hwrite)).trans
      (congrArg _ (State.initMoves_goes (by rw [State.writeEnds_initState, hi]) (by rintro rfl; cases huse)
        (fun _ => (initNextOk_unused i huse _).trans hok) hwait))
  have noWord {port : Port} {slot : Slot} (hv : (read port slot).value = none) {p : Prop}
      (hok : (read port slot).result = some .ok) : p := by
    have some := readEnds_value_isSome s port slot hok
    rw [hv] at some; cases some
  refine ⟨fun hi => ?_, fun hi => ?_, fun hi w hw => ?_, fun hi hv => ?_, fun hi w hw => ?_, fun hi => ?_, fun hi => ?_,
    fun hi => ?_, fun hi => ?_, fun hi w hw => ?_, fun hi hv => ?_, fun hi w hw => ?_, fun hi w hw => ?_, fun hi hv => ?_,
    fun hi w hw => ?_⟩
  · exact (step_initReset h hi).trans
      (congrArg _ (State.initMoves_goes (i := .s1Reset) (by rw [State.lineResetEnds_initState, hi]) nofun (fun _ => rfl) rfl))
  · exact writes 0 hi nofun rfl rfl rfl
  · exact reads hi rfl nofun rfl fun _ => by simp only [initNextOk, hw, Option.getD_some, debugPowered_iff]
  · exact reads hi rfl nofun rfl fun hok => noWord hv hok
  · exact writes w hi (fun _ => hw) rfl rfl rfl
  · exact reads hi rfl nofun rfl fun _ => rfl
  · refine (step_initReads h (by rw [hi]; rfl)).trans (congrArg _ ?_)
    simp only [read, State.initMoves, State.readEnds_initState, State.readEnds_idr, hi, true_and, initNext, initNextOk,
      initNextWait, ite_self]
  · exact writes 0 hi nofun rfl rfl rfl
  · exact reads hi rfl nofun rfl fun _ => rfl
  · exact reads hi rfl nofun rfl fun _ => by
      simp only [initNextOk, hw, Option.getD_some, cswConfigured, cswMask, beq_iff_eq]
  · exact reads hi rfl nofun rfl fun hok => noWord hv hok
  · exact writes w hi (fun _ => hw) rfl rfl rfl
  · exact reads hi rfl nofun rfl fun _ => by simp only [initNextOk, hw, Option.getD_some, systemPowered]
  · exact reads hi rfl nofun rfl fun hok => noWord hv hok
  · exact writes w hi (fun _ => hw) rfl rfl rfl

/-! ### Runs -/

/-- A run goes on where its first part has come. -/
theorem run_add {M : Host.Core} {n m : Nat} {s t : M.State} (h : M.run n s = .next t) :
    M.run (n + m) s = M.run m t := by
  induction n generalizing s with
  | zero => cases h; rw [Nat.zero_add]
  | succ n ih =>
    rw [Nat.add_right_comm]
    simp only [Host.Core.run] at h ⊢
    cases hs : M.step s with
    | next u => rw [hs] at h; exact ih h
    | fault e | refused e => rw [hs] at h; cases h

/-- A run of one step. -/
theorem run_one {s t : State} (h : step s = .next t) : Host.Core.run core 1 s = .next t := by
  simp only [Host.Core.run, show core.step s = .next t from h]

/-- A run of any length has a property that the start has and every step keeps. -/
theorem run_keeps {I : State → Prop} (keeps : ∀ s, I s → ∃ t, step s = .next t ∧ I t) {s : State} (h : I s) (n : Nat) :
    ∃ t : State, Host.Core.run core n s = .next t ∧ I t := by
  induction n with
  | zero => exact ⟨s, rfl, h⟩
  | succ n ih =>
    obtain ⟨t, ht, hI⟩ := ih
    obtain ⟨u, hu, hJ⟩ := keeps t hI
    exact ⟨u, (run_add ht).trans (run_one hu), hJ⟩

/-! ### A target that answers WAIT -/

/-- The first transaction of one of the three loops (R222, R227). -/
abbrev InitState.firstOfLoop (i : InitState) : Prop := i = .s3ReadStat ∨ i = .s6ApReadCsw ∨ i = .s7ReadStat

/-- The first transaction of a loop is a read, and WAIT leads back to it (R222). -/
theorem InitState.firstOfLoop.reads {i : InitState} (h : i.firstOfLoop) :
    initNextWait i = i ∧ ∃ port slot, initReads i = some (port, slot) := by
  rcases h with rfl | rfl | rfl <;> exact ⟨rfl, _, _, rfl⟩

/-- `dp_init` where it was, `n` reads answered WAIT later, with these replies left (R222). -/
structure Waited (s : State) (n : Nat) (script : List Reply) (t : State) : Prop where
  ready     : ReadyInit t
  initState : t.initState = s.initState
  outputs   : t.outputs = s.outputs
  cycles    : t.trace.length = s.trace.length + 13 * n
  script    : t.target.script = script
  again     : t.target.again = s.target.again

/-- One WAIT more. -/
theorem Waited.step {s t : State} {n : Nat} {script rest : List Reply} (h : Waited s n script t)
    (hi : s.initState.firstOfLoop) (hs : t.target.coming = waitReply :: rest) :
    ∃ u, step t = .next u ∧ Waited s (n + 1) rest u := by
  rw [← h.initState] at hi
  obtain ⟨hstay, port, slot, hread⟩ := hi.reads
  obtain ⟨hanswer, hvalue, hresult, htarget⟩ := waiting_read (port := port) (slot := slot) hs
  refine ⟨_, step_initReads h.ready hread, h.ready.readMoves port slot, ?_, ?_, ?_, ?_, ?_⟩
  · simpa [initNext, hresult, h.initState] using hstay
  · simp [h.outputs]
  · simp [readEnds_cycles, hanswer, h.cycles]; omega
  · simp [htarget]
  · simp [htarget, h.again]

theorem Waited.refl {s : State} (h : ReadyInit s) : Waited s 0 s.target.script s := ⟨h, rfl, rfl, by simp, rfl, rfl⟩

/-- A run against a target that answers WAIT as often as the run has steps. -/
theorem run_waits {s : State} (h : ReadyInit s) (hi : s.initState.firstOfLoop) (n : Nat) {rest : List Reply}
    (hs : s.target.script = List.replicate n waitReply ++ rest) :
    ∃ t : State, Host.Core.run core n s = .next t ∧ Waited s n rest t := by
  induction n generalizing rest with
  | zero => exact ⟨s, rfl, (show s.target.script = rest from hs) ▸ Waited.refl h⟩
  | succ n ih =>
    obtain ⟨t, ht, waited⟩ := ih (rest := waitReply :: rest) (by rw [hs, List.replicate_succ', List.append_assoc]; rfl)
    obtain ⟨u, hu, waited'⟩ := waited.step hi (Target.coming_script _ waited.script)
    exact ⟨u, (run_add ht).trans (run_one hu), waited'⟩

/-- Settles O42: `n` WAITs, then the read that passes. -/
theorem waitsCountStatReads : Obligations.WaitsCountStatReads := by
  intro n s w rest h hi hdebug hfields hs
  refine ⟨fun k hk => ?_, ?_⟩
  · obtain ⟨m, rfl⟩ := Nat.exists_eq_add_of_le hk
    rw [List.replicate_add, List.append_assoc] at hs
    obtain ⟨u, hu, waited⟩ := run_waits h (.inl hi) k hs
    exact ⟨u, hu, waited.initState.trans hi, waited.cycles⟩
  · obtain ⟨t, ht, waited⟩ := run_waits h (.inl hi) n hs
    obtain ⟨hvalue, hresult⟩ := readEnds_raw (port := .dp) (slot := .a1) waited.script
    have hstate := waited.initState.trans hi
    have answer : answered t (mkRef .dp .read .a1) = .ok :=
      answered_ack (congrArg Target.out (targetHears_raw waited.script _))
    refine ⟨_, (run_add ht).trans (run_one (step_initReads waited.ready (by rw [hstate]; rfl))), ?_, ?_, ?_⟩
    · simp [initNext, hstate, hresult, hvalue, initNextOk, (debugPowered_iff w).mpr ⟨hdebug, hfields⟩]
    · simp [hvalue]
    · simp [readEnds_cycles, answer, waited.cycles]

/-! ### A target that answers one way for ever -/

section
variable {s : State} {w : Word} {rest : List Reply} {port : Port} {slot : Slot}

/-- A target that echoes a word answers every header OK. -/
theorem targetHears_echo (hs : s.target.coming = echoReply w :: rest) (r : RegRef) :
    (s.targetHears (req r)).target =
      { s.target with script := rest, out := none :: ackLevels .ok ++ dataLevels w (parity w), taking := none } := by
  rw [State.targetHears_target, Target.hears_raw _ _ _ hs]

/-- A read of it returns the word. -/
theorem echoing_read (hs : s.target.coming = echoReply w :: rest) :
    (s.readEnds port slot).value = some w ∧ (s.readEnds port slot).result = some .ok ∧
      (s.readEnds port slot).target.script = rest ∧ (s.readEnds port slot).target.again = s.target.again := by
  have heard := targetHears_echo hs (mkRef port .read slot)
  have out := congrArg Target.out heard
  rw [readEnds_ok (answered_ack out), answeredWord_data out, answeredParity_data out, readResult_ok rfl]
  simp only [State.afterCycles, heard, and_self]

/-- A write of it changes nothing of it. -/
theorem echoing_write (hs : s.target.coming = echoReply w :: rest) (v : Word) :
    (s.writeEnds port slot v).result = some .ok ∧ (s.writeEnds port slot v).target.script = rest ∧
      (s.writeEnds port slot v).target.again = s.target.again := by
  have heard := targetHears_echo hs (mkRef port .write slot)
  have answer := answered_ack (congrArg Target.out heard)
  refine ⟨by rw [writeEnds_result, answer]; rfl, ?_⟩
  rw [writeEnds_ok answer, State.shadows_target]
  simp only [takenBy, State.afterCycles, heard, Target.takes, and_self]

end

/-- `dp_init` in a loop against a target that echoes a word for ever: where it writes a word, it is the one echoed. -/
structure Echoing (w : Word) (loop : List InitState) (outputs : List (Option Word × Option Result)) (s : State) :
    Prop where
  ready   : ReadyInit s
  inLoop  : s.initState ∈ loop
  outputs : s.outputs = outputs
  script  : s.target.script = []
  again   : s.target.again = [echoReply w]
  value   : writesReadWord s.initState = true → s.value = some w

/-- A loop of `dp_init` that the word echoed does not leave: every state of it has a transaction and leads back. -/
abbrev ClosedLoop (w : Word) (loop : List InitState) : Prop :=
  ∀ i ∈ loop, ((initReads i).isSome = true ∨ (initWrites i w).isSome = true) ∧ initNextOk i w ∈ loop

theorem Echoing.step {w : Word} {loop : List InitState} {outputs : List (Option Word × Option Result)} {s : State}
    (closed : ClosedLoop w loop) (h : Echoing w loop outputs s) : ∃ t, step s = .next t ∧ Echoing w loop outputs t := by
  have hs : s.target.coming = echoReply w :: [] := (Target.coming_again _ h.script).trans h.again
  obtain ⟨hread | hwrite, hnext⟩ := closed _ h.inLoop
  · obtain ⟨⟨port, slot⟩, hread⟩ := Option.isSome_iff_exists.mp hread
    obtain ⟨hvalue, hresult, hscript, hagain⟩ := echoing_read (port := port) (slot := slot) hs
    refine ⟨_, step_initReads h.ready hread, h.ready.readMoves port slot, ?_, ?_, ?_, ?_, fun _ => ?_⟩
    · simpa [initNext, hresult, hvalue] using hnext
    · simpa using h.outputs
    · simpa using hscript
    · simpa using hagain.trans h.again
    · simpa using hvalue
  · have huse := usesWord_of_initWrites hwrite
    obtain ⟨⟨port, slot, v⟩, hwrite⟩ := Option.isSome_iff_exists.mp hwrite
    obtain ⟨hresult, hscript, hagain⟩ := echoing_write (port := port) (slot := slot) hs v
    rw [initNextOk_unused _ huse] at hnext
    refine ⟨_, step_initWrites h.ready h.value hwrite, h.ready.writeMoves port slot v, ?_, ?_, ?_, ?_, fun k => ?_⟩
    · simpa [initNext, hresult] using hnext
    · simpa using h.outputs
    · simpa using hscript
    · simpa using hagain.trans h.again
    · obtain ⟨-, after⟩ := afterRead_of_writesReadWord (i := s.initState) (r := .ok) (w := 0)
        (by simpa [initNext, hresult, initAfter] using k)
      rw [huse] at after
      cases after

/-- Settles O43: WAIT leads back to the first transaction of a loop, and a test that fails back into the loop. -/
theorem pollLoopsUnbounded : Obligations.PollLoopsUnbounded := by
  refine ⟨fun n s rest h hi hs => ?_, fun s h hi hs hagain n => ?_, fun s w h hs hagain => ?_⟩
  · obtain ⟨t, ht, waited⟩ := run_waits h hi n hs
    exact ⟨t, ht, waited.ready, waited.initState, waited.outputs, waited.script⟩
  · obtain ⟨t, ht, k, waited⟩ := run_keeps (I := fun t => ∃ k, Waited s k [] t) (fun t ⟨k, waited⟩ => by
      obtain ⟨u, hu, waited'⟩ := waited.step hi
        ((Target.coming_again _ waited.script).trans (waited.again.trans hagain))
      exact ⟨u, hu, _, waited'⟩) ⟨0, hs ▸ Waited.refl h⟩ n
    exact ⟨t, ht, waited.ready, waited.initState, waited.outputs⟩
  · intro staysIn
    have stays {i : InitState} {loop : List InitState} (hi : s.initState = i) (hmem : i ∈ loop)
        (hno : writesReadWord i = false) (closed : ClosedLoop w loop) : staysIn loop := fun n => by
      obtain ⟨t, ht, echoing⟩ := run_keeps (I := Echoing w loop s.outputs) (fun _ => Echoing.step closed)
        ⟨h, hi ▸ hmem, rfl, hs, hagain, fun k => by rw [hi, hno] at k; cases k⟩ n
      exact ⟨t, ht, echoing.ready, echoing.inLoop, echoing.outputs⟩
    refine ⟨fun hi hw => stays hi (by simp) rfl ?_, fun hi hw => stays hi (by simp) rfl ?_,
      fun hi hw => stays hi (by simp) rfl ?_⟩
    · rw [← debugPowered_iff] at hw
      simp [ClosedLoop, initReads, initWrites, initNextOk, hw]
    · have hc : cswConfigured w = false := by simpa [cswConfigured, cswMask] using hw
      simp [ClosedLoop, initReads, initWrites, initNextOk, hc]
    · have hs : systemPowered w = false := hw
      simp [ClosedLoop, initReads, initWrites, initNextOk, hs]

/-! ### The rewrite of CSW -/

/-- A write of CSW in the bank SELECT names changes all but the read-only fields (R50, R212). -/
theorem Target.apTakes_csw (fresh : Nat → Word) {c : Choice} {t : Target} {slot : Slot} (v : Word)
    (hreach : t.apReached c = true) (hpost : c.post = false) (hslot : t.slotNames slot = some .csw) :
    t.apTakes fresh c slot v = { t with csw := merge (~~~cswReadOnly) t.csw v } := by
  obtain ⟨hap, hreg⟩ := Target.slotNames_some hslot
  simp only [Target.apTakes, hreach, hpost, if_true, Bool.false_eq_true, if_false, Target.apWrite, hap, hreg]

/-- The rewrite has Size word and AddrInc off. -/
theorem cswRewrite_configured (w : Word) : cswRewrite w &&& 0x37 = 0x02 := by
  rw [cswRewrite, BitVec.and_or_distrib_right, BitVec.and_assoc]
  simp

/-- The rewrite keeps the bits outside Size and AddrInc. -/
theorem cswRewrite_outside (w : Word) {m : Word} (hm : 0xFFFFFFC8 &&& m = m) (h : (0x02 : Word) &&& m = 0) :
    cswRewrite w &&& m = w &&& m := by
  rw [cswRewrite, or_outside _ _ _ h, BitVec.and_assoc, hm]

/-- CSW with the rewrite written to it makes the step-6 test hold, whatever it held (R224). -/
theorem merge_cswRewrite_configured (old w : Word) :
    merge (~~~cswReadOnly) old (cswRewrite w) &&& 0x37 = 0x02 := by
  rw [merge_inside _ _ _ _ (by decide), cswRewrite_configured]

/-- Settles O50: the write stores every bit of the rewrite that is not read-only. -/
theorem cswRewriteConfigures : Obligations.CswRewriteConfigures := by
  refine ⟨fun w => ⟨cswRewrite_configured w, cswRewrite_outside w (by decide) (by decide)⟩, ?_⟩
  intro w s c rest h hs ha hf hpost hp hk hreach hslot
  obtain ⟨t, lost, fresh, e, -, hresult, -, htarget⟩ :=
    exec_write_taken (i := .wrApA0 (cswRewrite w)) rfl h hs ha hf hp fun _ => hk
  have hcsw : t.target.csw = merge (~~~cswReadOnly) s.target.csw (cswRewrite w) := by
    have reached : (s.target.metLosing c rest lost).apReached c = true := hreach
    rw [htarget]
    dsimp only
    rw [Target.apTakes_csw fresh _ reached hpost (by simpa [Target.slotNames] using hslot), Target.metLosing_csw]
  refine ⟨t, e, hresult, ?_, ?_, ?_⟩ <;> rw [hcsw]
  · exact merge_cswRewrite_configured _ w
  · exact merge_outside _ _ _ _ (by decide)
  · rw [merge_inside _ _ _ _ (by decide), cswRewrite_outside w (by decide) (by decide)]

end Sys2Proof.Machine
end

section
/-! R220, R228: `DPINIT` against a prompt conforming target, transaction by transaction: what each step of the state
machine makes of the target, and from it how each of the loops is passed. -/

namespace Sys2Proof.Machine

/-- The choice of a prompt reply. -/
def promptChoice : Choice :=
  { ack := .ok, flipParity := false, powerAck := true, post := false, unpowered := true, dropsUnread := true }

/-! ### The requests and the acknowledges of STAT -/

section
variable (t : Target) (more : List Reply)

/-- A request stays as it is when the target meets a header. -/
theorem Target.meets_request {k : Nat} (h : statAcks.getLsbD k = false) :
    (t.meets promptChoice more).stat.getLsbD k = t.stat.getLsbD k := by
  rw [t.meets_acknowledged more rfl, merge_getLsbD, h]
  rfl

/-- A prompt target that meets a header acknowledges what is requested, one bit above the request (R43). -/
theorem Target.meets_acknowledge {k : Nat} (h : statAcks.getLsbD (k + 1) = true) (hk : k + 1 < 32) :
    (t.meets promptChoice more).stat.getLsbD (k + 1) = t.stat.getLsbD k := by
  rw [t.meets_acknowledged more rfl, merge_getLsbD, h, if_pos rfl, BitVec.getLsbD_shiftLeft, Nat.add_sub_cancel]
  simp only [hk, decide_true, Bool.true_and, show ¬ k + 1 < 1 by omega, decide_false, Bool.not_false]

/-- An AP access after a request of debug power has effect (R303). -/
theorem Target.meets_reached (h : t.stat.getLsbD 28 = true) :
    (t.meets promptChoice more).apReached promptChoice = true := by
  rw [Target.apReached, t.meets_acknowledge more (k := 28) (by decide) (by decide), h]
  rfl

theorem Target.sticky_of_stat {t u : Target} (h : t.stat = u.stat) : t.sticky = u.sticky := by
  rw [Target.sticky, Target.sticky, h]

end

/-! ### One transaction -/

section
variable {x : State} {more : List Reply} {port : Port} {slot : Slot}

/-- A read that a prompt target answers, with or without a write posted before it. -/
theorem prompt_read (hs : x.target.script = promptReply :: more) (hk : x.target.sticky = false) :
    let answer := ((x.target.meets promptChoice more).performPosted (Config.freeWord x.draws)).readWord
      (Config.freeWord x.draws) promptChoice (mkRef port .read slot)
    answered x (mkRef port .read slot) = .ok ∧ (x.readEnds port slot).value = some answer.1 ∧
      (x.readEnds port slot).result = some .ok ∧ (x.readEnds port slot).target = answer.2 := by
  obtain ⟨hanswer, hvalue, hresult, -, htarget⟩ := conforming_read (port := port) (slot := slot)
    (Target.coming_script _ hs) (ackFor_ok (c := promptChoice) rfl fun _ => by simpa using hk)
  refine ⟨hanswer, hvalue, hresult, htarget.trans (Target.with_out_nil ?_)⟩
  simp

/-- What a whole write leaves does not depend on the operation it is called from. -/
theorem writeEnds_with_seq (s : State) (port : Port) (slot : Slot) (v : Word) (l : List Pos) :
    State.writeEnds { s with seq := l } port slot v = { s.writeEnds port slot v with seq := l } := by
  by_cases ha : answered s (mkRef port .write slot) = .ok
  · rw [writeEnds_ok ha, writeEnds_ok (s := { s with seq := l }) ha]
    unfold State.shadows
    split <;> rfl
  · rw [writeEnds_error ha, writeEnds_error (s := { s with seq := l }) ha]
    rfl

/-- The word of a write as a prompt target takes it. -/
def Target.promptTakes (fresh : Nat → Word) (port : Port) (slot : Slot) (v : Word) (t : Target) : Target :=
  match port with
  | .dp => t.dpWrite fresh slot v
  | .ap => t.apTakes fresh promptChoice slot v

/-- A write that a prompt target takes, with none posted before it. -/
theorem prompt_write {v : Word} (h : Ready x) (hs : x.target.script = promptReply :: more) (hp : x.target.posted = none)
    (hk : x.target.sticky = false) :
    ∃ lost fresh, answered x (mkRef port .write slot) = .ok ∧
      (x.writeEnds port slot v).selShadow = (if port = .dp ∧ slot = .a2 then some v else x.selShadow) ∧
      (x.writeEnds port slot v).target =
        (x.target.metLosing promptChoice more lost).promptTakes fresh port slot v := by
  have idle : ReadyIdle { x with seq := [] } := ⟨⟨h.phase, h.width, h.rxEn, h.signals⟩, rfl⟩
  obtain ⟨u, lost, fresh, e, -, hresult, hghost, htarget⟩ :=
    exec_write_taken (i := .wrRef (mkRef port .write slot) v) (c := promptChoice) rfl idle hs rfl rfl hp fun _ => hk
  rw [exec_write_ready (port := port) (slot := slot) (v := v) rfl idle, writeEnds_with_seq] at e
  cases e
  simp only [State.reports_result, State.reports_selShadow, State.reports_target] at hresult hghost htarget
  have hanswer : answered x (mkRef port .write slot) = .ok :=
    ackCode_of_resultOf (Option.some.inj ((writeEnds_result x port slot v).symm.trans hresult))
  refine ⟨lost, fresh, hanswer, hghost, htarget.trans ?_⟩
  cases port <;> rfl

/-- A write of an AP slot is performed at once or, without power, not at all. -/
theorem Target.apTakes_prompt (fresh : Nat → Word) (slot : Slot) (v : Word) (t : Target) :
    t.apTakes fresh promptChoice slot v = if t.apReached promptChoice = true then
      t.apWrite fresh { select := t.select, slot := slot, word := v } else t := rfl

section
variable (fresh : Nat → Word) (t : Target) (v : Word)

theorem Target.promptTakes_posted (h : t.posted = none) : (t.promptTakes fresh port slot v).posted = none := by
  cases port with
  | dp => cases slot <;> simp [Target.promptTakes, Target.dpWrite, h, apply_ite Target.posted]
  | ap => simp [Target.promptTakes, Target.apTakes_prompt, h, apply_ite Target.posted]

@[simp] theorem Target.promptTakes_idr : (t.promptTakes fresh port slot v).idr = t.idr := by
  cases port <;> simp [Target.promptTakes]

@[simp] theorem Target.promptTakes_script : (t.promptTakes fresh port slot v).script = t.script := by
  cases port with
  | dp => cases slot <;> simp [Target.promptTakes, Target.dpWrite, apply_ite Target.script]
  | ap => simp [Target.promptTakes, Target.apTakes_prompt, apply_ite Target.script]

/-- No write but one of ABORT changes the sticky errors. -/
theorem Target.promptTakes_sticky (h : ¬ (port = .dp ∧ slot = .a0)) :
    (t.promptTakes fresh port slot v).sticky = t.sticky := by
  cases port with
  | ap => exact Target.sticky_of_stat (by simp [Target.promptTakes])
  | dp =>
    cases slot with
    | a0 => exact absurd ⟨rfl, rfl⟩ h
    | a1 =>
      simp only [Target.promptTakes, Target.dpWrite]
      split
      · rw [Target.sticky, Target.sticky, merge_outside _ _ _ _ (by decide)]
      · rfl
    | a2 | a3 => rfl

end

/-- `dp_init` writes no ABORT (R220). -/
theorem initWrites_not_abort {i : InitState} {w v : Word} (h : initWrites i w = some (port, slot, v)) :
    ¬ (port = .dp ∧ slot = .a0) := by
  rintro ⟨rfl, rfl⟩
  cases i <;> cases h

end

/-- The replies of a prompt target with `j` of the sixteen left. -/
abbrev promptReplies (j : Nat) (rest : List Reply) : List Reply := List.replicate j promptReply ++ rest

/-- `dp_init`, called in `s`, with `j` prompt replies of the sixteen left and no write posted. -/
structure Linking (s : State) (rest : List Reply) (j : Nat) (t : State) : Prop where
  reached : ∃ n, n + j = 16 ∧ Host.Core.run core n s.startsInit = .next t
  ready   : ReadyInit t
  script  : t.target.script = promptReplies j rest
  posted  : t.target.posted = none
  sticky  : t.target.sticky = false
  idr     : t.target.idr = s.target.idr
  outputs : t.outputs = s.outputs
  cycles  : t.trace.length + 46 * j = s.trace.length + 328 + 46 * 16

section
variable {s t : State} {rest : List Reply} {j : Nat} {port : Port} {slot : Slot} {v w : Word}

theorem Linking.next_script (h : Linking s rest (j + 1) t) :
    t.target.script = promptReply :: promptReplies j rest := by
  rw [h.script, promptReplies, List.replicate_succ, List.cons_append]

theorem Linking.reached_next {u : State} (h : Linking s rest (j + 1) t) (e : step t = .next u) :
    ∃ n, n + j = 16 ∧ Host.Core.run core n s.startsInit = .next u := by
  obtain ⟨n, hn, hrun⟩ := h.reached
  exact ⟨n + 1, by omega, (run_add hrun).trans (run_one e)⟩

/-- A read of `dp_init` that a prompt target answers. -/
theorem Linking.reads (h : Linking s rest (j + 1) t) (hi : initReads t.initState = some (port, slot)) :
    let answer := (t.target.meets promptChoice (promptReplies j rest)).readWord
      (Config.freeWord t.draws) promptChoice (mkRef port .read slot)
    ∃ u, Linking s rest j u ∧ u.initState = initNextOk t.initState answer.1 ∧ u.value = some answer.1 ∧
      u.idr = (if t.initState = .s4ReadBuf then some answer.1 else t.idr) ∧ u.selShadow = t.selShadow ∧
      u.target = answer.2 := by
  intro answer
  obtain ⟨hanswer, hvalue, hresult, htarget⟩ := prompt_read (port := port) (slot := slot) h.next_script h.sticky
  rw [Target.performPosted_none _ _ (by simpa using h.posted)] at hvalue htarget
  have e := step_initReads h.ready hi
  refine ⟨_, ⟨h.reached_next e, h.ready.readMoves port slot, ?_, ?_, ?_, ?_, ?_, ?_⟩, ?_, ?_, ?_, ?_, ?_⟩
  · simp [htarget]
  · simpa [htarget] using h.posted
  · rw [State.initMoves_target, htarget, Target.sticky_of_stat (Target.readWord2_stat _ _ _ _), Target.meets_sticky,
      h.sticky]
  · simpa [htarget] using h.idr
  · simpa using h.outputs
  · have := h.cycles
    simp only [State.initMoves_trace, readEnds_cycles, hanswer, if_true]
    omega
  · simp [initNext, hresult, hvalue, answer]
  · simp [hvalue, answer]
  · simp [State.initMoves, hresult, hvalue, answer]
  · simp
  · simp [htarget, answer]

/-- A write of `dp_init` that a prompt target takes. -/
theorem Linking.writes (h : Linking s rest (j + 1) t) (hw : writesReadWord t.initState = true → t.value = some w)
    (hi : initWrites t.initState w = some (port, slot, v)) :
    ∃ u lost fresh, Linking s rest j u ∧ u.initState = initNextOk t.initState 0 ∧ u.idr = t.idr ∧
      u.selShadow = (if port = .dp ∧ slot = .a2 then some v else t.selShadow) ∧
      u.target = (t.target.metLosing promptChoice (promptReplies j rest) lost).promptTakes fresh port slot v := by
  obtain ⟨lost, fresh, hanswer, hghost, htarget⟩ :=
    prompt_write (port := port) (slot := slot) (v := v) h.ready.toReady h.next_script h.posted h.sticky
  have e := step_initWrites h.ready hw hi
  have hnext : initNext t.initState (some .ok) none = initNextOk t.initState 0 := rfl
  have hbuf : t.initState ≠ .s4ReadBuf := fun k => by rw [k] at hi; cases hi
  refine ⟨_, lost, fresh, ⟨h.reached_next e, h.ready.writeMoves port slot v, ?_, ?_, ?_, ?_, ?_, ?_⟩, ?_, ?_, ?_, ?_⟩
  · simp [htarget]
  · rw [State.initMoves_target, htarget]
    exact Target.promptTakes_posted _ _ _ (by simpa using h.posted)
  · rw [State.initMoves_target, htarget, Target.promptTakes_sticky _ _ _ (initWrites_not_abort hi)]
    exact (Target.meets_sticky _ _ _).trans h.sticky
  · simpa [htarget, Target.metLosing] using h.idr
  · simpa using h.outputs
  · have := h.cycles
    simp only [State.initMoves_trace, writeEnds_cycles, hanswer, if_true]
    omega
  · simpa [writeEnds_result, hanswer, resultOf] using hnext
  · simp [State.initMoves, hbuf]
  · simpa using hghost
  · simpa using htarget

end

/-! ### STAT: the power requests -/

/-- STAT as it reads has the bits that are not reserved. -/
theorem Target.statRead_getLsbD (x : Target) {k : Nat} (hk : k < 32) (hr : statReserved.getLsbD k = false) :
    x.statRead.getLsbD k = x.stat.getLsbD k := by
  rw [Target.statRead, BitVec.getLsbD_and, BitVec.getLsbD_not, hr]
  simp only [hk, decide_true, Bool.not_false, Bool.and_true]

/-- The STAT write of step 3 makes its test hold, and requests debug power (R44, R223). -/
theorem statReadBack_debug (old x : Word) :
    debugPowered (statReadBack old (statWrite x cdbgPwrUpReq)) = true ∧
      (statReadBack old (statWrite x cdbgPwrUpReq)).getLsbD 28 = true := by
  rw [debugPowered_iff, statReadBack_acknowledge (k := 28) _ _ (by decide) (by decide) (by decide) (by decide),
    statReadBack_written (k := 28) _ _ (by decide) (by decide) (by decide) (by decide),
    statReadBack_field _ _ _ (by decide) (by decide) (by decide)]
  have hreq : (statWrite x cdbgPwrUpReq).getLsbD 28 = true := by simp [statWrite, cdbgPwrUpReq]
  refine ⟨⟨hreq, ?_⟩, hreq⟩
  rw [statWrite, or_outside _ _ _ (by decide), BitVec.and_assoc]
  simp [statKeep]

/-- The STAT write of step 7 makes its test hold, and keeps a request of debug power (R44, R225). -/
theorem statReadBack_system (old x : Word) :
    systemPowered (statReadBack old (statWrite x csysPwrUpReq)) = true ∧
      (statReadBack old (statWrite x csysPwrUpReq)).getLsbD 29 = x.getLsbD 28 := by
  rw [systemPowered, statReadBack_acknowledge (k := 30) _ _ (by decide) (by decide) (by decide) (by decide),
    statReadBack_acknowledge (k := 28) _ _ (by decide) (by decide) (by decide) (by decide)]
  exact ⟨by simp [statWrite, csysPwrUpReq], by simp [statWrite, statKeep, csysPwrUpReq]⟩

/-- What the power-up loops leave as it is. -/
structure Carries (t u : State) : Prop where
  idr    : u.idr = t.idr
  shadow : u.selShadow = t.selShadow
  select : u.target.select = t.target.select
  csw    : u.target.csw = t.target.csw

theorem Carries.trans {t u x : State} (h : Carries t u) (k : Carries u x) : Carries t x :=
  ⟨k.idr.trans h.idr, k.shadow.trans h.shadow, k.select.trans h.select, k.csw.trans h.csw⟩

section
variable {s t : State} {rest : List Reply} {j : Nat} {slot : Slot} {v w : Word}

/-- A STAT read returns STAT with the requests acknowledged (R43). -/
theorem Linking.readsStat (h : Linking s rest (j + 1) t) (hi : initReads t.initState = some (.dp, .a1))
    (hbank : dpBankSel t.target.select = 0) :
    ∃ u, Linking s rest j u ∧ Carries t u ∧ u.initState = initNextOk t.initState u.target.statRead ∧
      u.value = some u.target.statRead ∧
      u.target.stat = (t.target.meets promptChoice (promptReplies j rest)).stat := by
  have hbuf : t.initState ≠ .s4ReadBuf := fun k => by rw [k] at hi; cases hi
  obtain ⟨u, hu, hstate, hvalue, hidr, hghost, htarget⟩ := h.reads hi
  have hstat : u.target.stat = (t.target.meets promptChoice (promptReplies j rest)).stat := by simp [htarget]
  simp only [Target.readWord, mkRef, Target.meets_select, hbank, if_true, Target.statRead, ← hstat] at hstate hvalue
  rw [if_neg hbuf] at hidr
  exact ⟨u, hu, ⟨hidr, hghost, by simp [htarget], by simp [htarget]⟩, hstate, hvalue, hstat⟩

/-- A STAT write stores the fields that can be written (R43). -/
theorem Linking.writesStat (h : Linking s rest (j + 1) t) (hw : writesReadWord t.initState = true → t.value = some w)
    (hi : initWrites t.initState w = some (.dp, .a1, v)) (hbank : dpBankSel t.target.select = 0) :
    ∃ u, Linking s rest j u ∧ Carries t u ∧ u.initState = initNextOk t.initState 0 ∧
      u.target.stat = merge statWritable (t.target.meets promptChoice (promptReplies j rest)).stat v := by
  obtain ⟨u, lost, fresh, hu, hstate, hidr, hghost, htarget⟩ := h.writes hw hi
  simp only [Target.promptTakes, Target.dpWrite, Target.metLosing_select, hbank, if_true] at htarget
  exact ⟨u, hu, ⟨hidr, by simpa using hghost, by simp [htarget], by simp [htarget]⟩, hstate, by simp [htarget]⟩

/-- A STAT write and the read after it: what is requested reads back acknowledged (R43). -/
theorem Linking.requests (h : Linking s rest (j + 2) t) (hw : writesReadWord t.initState = true → t.value = some w)
    (hi : initWrites t.initState w = some (.dp, .a1, v)) (hread : initReads (initNextOk t.initState 0) = some (.dp, .a1))
    (hbank : dpBankSel t.target.select = 0) :
    ∃ u old, Linking s rest j u ∧ Carries t u ∧
      u.initState = initNextOk (initNextOk t.initState 0) u.target.statRead ∧
      u.target.statRead = statReadBack old v := by
  obtain ⟨x, hx, carry, hstate, hstat⟩ := h.writesStat hw hi hbank
  obtain ⟨u, hu, carry', hstate', -, hstat'⟩ := hx.readsStat (by rw [hstate, hread]) (by rw [carry.select, hbank])
  rw [x.target.meets_acknowledged _ rfl, hstat] at hstat'
  exact ⟨u, _, hu, carry.trans carry', by rw [hstate', hstate], by rw [Target.statRead, hstat']; rfl⟩

/-- Step 3 ends, at once or after one request, with debug power requested (R223). -/
theorem Linking.powersDebug (h : Linking s rest (j + 3) t) (hi : t.initState = .s3ReadStat)
    (hbank : dpBankSel t.target.select = 0) :
    ∃ k u, j ≤ k ∧ Linking s rest k u ∧ Carries t u ∧ u.initState = .s4ApReadIdr ∧
      u.target.stat.getLsbD 28 = true := by
  obtain ⟨u, hu, carry, hstate, hvalue, hstat⟩ := h.readsStat (by rw [hi]; rfl) hbank
  simp only [hi, initNextOk] at hstate
  by_cases pass : debugPowered u.target.statRead = true
  · rw [if_pos pass] at hstate
    refine ⟨j + 2, u, by omega, hu, carry, hstate, ?_⟩
    obtain ⟨powered, -⟩ := (debugPowered_iff _).mp pass
    rw [Target.statRead_getLsbD _ (by decide) (by decide), hstat, Target.meets_acknowledge _ _ (by decide) (by decide)]
      at powered
    rw [hstat, Target.meets_request _ _ (by decide), powered]
  · rw [if_neg pass] at hstate
    obtain ⟨x, old, hx, carry', hstate', hread⟩ := hu.requests (fun _ => hvalue) (by rw [hstate]; rfl)
      (by rw [hstate]; rfl) (by rw [carry.select, hbank])
    obtain ⟨powered, request⟩ := statReadBack_debug old u.target.statRead
    rw [← hread] at powered request
    refine ⟨j, x, Nat.le_refl j, hx, carry.trans carry', ?_, ?_⟩
    · simp only [hstate', hstate, initNextOk, powered, if_true]
    · rw [← Target.statRead_getLsbD _ (by decide) (by decide), request]

/-- Step 7 ends, at once or after one request, with both power-ups acknowledged (R225). -/
theorem Linking.powersSystem (h : Linking s rest (j + 3) t) (hi : t.initState = .s7ReadStat)
    (hbank : dpBankSel t.target.select = 0) (hdebug : t.target.stat.getLsbD 28 = true) :
    ∃ k u, Linking s rest k u ∧ Carries t u ∧ u.initState = .done ∧
      u.target.stat.getLsbD 29 = true ∧ u.target.stat.getLsbD 31 = true := by
  obtain ⟨u, hu, carry, hstate, hvalue, hstat⟩ := h.readsStat (by rw [hi]; rfl) hbank
  simp only [hi, initNextOk] at hstate
  by_cases pass : systemPowered u.target.statRead = true
  · rw [if_pos pass] at hstate
    refine ⟨j + 2, u, hu, carry, hstate, ?_, ?_⟩
    · rw [hstat, Target.meets_acknowledge _ _ (by decide) (by decide), hdebug]
    · rwa [systemPowered, Target.statRead_getLsbD _ (by decide) (by decide)] at pass
  · rw [if_neg pass] at hstate
    obtain ⟨x, old, hx, carry', hstate', hread⟩ := hu.requests (fun _ => hvalue) (by rw [hstate]; rfl)
      (by rw [hstate]; rfl) (by rw [carry.select, hbank])
    obtain ⟨powered, acknowledged⟩ := statReadBack_system old u.target.statRead
    rw [← hread] at powered acknowledged
    have request : u.target.stat.getLsbD 28 = true := by rw [hstat, Target.meets_request _ _ (by decide), hdebug]
    refine ⟨j, x, hx, carry.trans carry', ?_, ?_, ?_⟩
    · simp only [hstate', hstate, initNextOk, powered, if_true]
    · rw [← Target.statRead_getLsbD _ (by decide) (by decide), acknowledged,
        Target.statRead_getLsbD _ (by decide) (by decide), request]
    · rwa [systemPowered, Target.statRead_getLsbD _ (by decide) (by decide)] at powered

/-! ### SELECT -/

/-- A SELECT write of steps 2 and 5. -/
theorem Linking.selects (h : Linking s rest (j + 1) t) (hi : initSelect t.initState = some v) :
    ∃ u, Linking s rest j u ∧ u.initState = initNextOk t.initState 0 ∧ u.idr = t.idr ∧ u.selShadow = some v ∧
      u.target.select = v ∧ u.target.stat.getLsbD 28 = t.target.stat.getLsbD 28 := by
  obtain ⟨hwrite, hnew⟩ : initWrites t.initState 0 = some (.dp, .a2, v) ∧ writesReadWord t.initState = false := by
    cases hk : t.initState <;> rw [hk] at hi <;> cases hi <;> exact ⟨rfl, rfl⟩
  obtain ⟨u, lost, fresh, hu, hstate, hidr, hghost, htarget⟩ :=
    h.writes (fun k => by rw [hnew] at k; cases k) hwrite
  simp only [Target.promptTakes, Target.dpWrite] at htarget
  refine ⟨u, hu, hstate, hidr, hghost, by rw [htarget], ?_⟩
  rw [htarget]
  exact Target.meets_request _ _ (by decide)

/-! ### The AP registers -/

/-- An AP read of `dp_init` and the RDBUFF read after it return the register named (R64, R65, R226). -/
theorem Linking.readsAp {reg : ApReg} (h : Linking s rest (j + 2) t) (hi : initReads t.initState = some (.ap, slot))
    (hslot : t.target.slotNames slot = some reg) (hreg : reg ≠ .drw) (hdebug : t.target.stat.getLsbD 28 = true) :
    let i := initNextOk t.initState 0
    let w := t.target.named reg
    ∃ u, Linking s rest j u ∧ u.initState = initNextOk i w ∧ u.value = some w ∧
      u.idr = (if i = .s4ReadBuf then some w else t.idr) ∧ u.selShadow = t.selShadow ∧
      u.target.select = t.target.select ∧ u.target.csw = t.target.csw ∧ u.target.stat.getLsbD 28 = true := by
  intro i w
  have hbuf : t.initState ≠ .s4ReadBuf := fun k => by rw [k] at hi; cases hi
  have huse : usesWord t.initState = false := by
    cases hk : t.initState <;> rw [hk] at hi <;> cases hi <;> rfl
  obtain ⟨x, hx, hstate, -, hidr, hghost, htarget⟩ := h.reads hi
  rw [initNextOk_unused _ huse] at hstate
  rw [if_neg hbuf] at hidr
  rw [Target.readWord_named _ (Target.meets_reached _ _ hdebug) (by rwa [Target.meets_slotNames]) (absurd · hreg)]
    at htarget
  simp only [hreg, if_false, Target.meets_named] at htarget
  have hstat : x.target.stat.getLsbD 28 = true := by
    rw [htarget]; exact (Target.meets_request _ _ (by decide)).trans hdebug
  obtain ⟨u, hu, hstate', hvalue, hidr', hghost', htarget'⟩ := hx.reads (hstate ▸ initReads_afterApRead hi 0)
  have hbuf' : x.target.buf = w := by rw [htarget]
  simp only [Target.readWord, mkRef, Target.meets_buf, hbuf'] at hstate' hvalue hidr' htarget'
  refine ⟨u, hu, by rw [hstate', hstate], hvalue, by rw [hidr', hstate, hidr], hghost'.trans hghost, ?_, ?_, ?_⟩
  · rw [htarget']; simp [htarget]
  · rw [htarget']; simp [htarget]
  · rw [htarget']; exact (Target.meets_request _ _ (by decide)).trans hstat

/-- With SELECT 0 the slot of step 6 is that of CSW (R49). -/
theorem Target.slotNames_csw {x : Target} (h : x.select = selectBank0) : x.slotNames .a0 = some .csw := by
  rw [Target.slotNames, h]; decide

/-- Step 6 reads CSW and tests it (R224). -/
theorem Linking.readsCsw (h : Linking s rest (j + 2) t) (hi : t.initState = .s6ApReadCsw)
    (hselect : t.target.select = selectBank0) (hdebug : t.target.stat.getLsbD 28 = true) :
    ∃ u, Linking s rest j u ∧ Carries t u ∧ u.value = some t.target.csw ∧ u.target.stat.getLsbD 28 = true ∧
      u.initState = if cswConfigured t.target.csw = true then .s7ReadStat else .s6WriteCsw := by
  obtain ⟨u, hu, hstate, hvalue, hidr, hghost, hsel, hcsw, hstat⟩ :=
    h.readsAp (by rw [hi]; rfl) (Target.slotNames_csw hselect) nofun hdebug
  rw [hi] at hstate hidr
  exact ⟨u, hu, ⟨hidr, hghost, hsel, hcsw⟩, hvalue, hstat, hstate⟩

/-- Step 6 writes the rewrite of the word read last, and it is performed at once (R224). -/
theorem Linking.writesCsw (h : Linking s rest (j + 1) t) (hi : t.initState = .s6WriteCsw) (hw : t.value = some w)
    (hselect : t.target.select = selectBank0) (hdebug : t.target.stat.getLsbD 28 = true) :
    ∃ u, Linking s rest j u ∧ u.initState = .s6ApReadCsw ∧ u.idr = t.idr ∧ u.selShadow = t.selShadow ∧
      u.target.select = selectBank0 ∧ u.target.csw &&& 0x37 = 0x02 ∧ u.target.stat.getLsbD 28 = true := by
  obtain ⟨u, lost, fresh, hu, hstate, hidr, hghost, htarget⟩ := h.writes (fun _ => hw) (by rw [hi]; rfl)
  have reached : (t.target.metLosing promptChoice (promptReplies j rest) lost).apReached promptChoice = true :=
    Target.meets_reached _ _ hdebug
  have named : (t.target.metLosing promptChoice (promptReplies j rest) lost).slotNames .a0 = some .csw :=
    Target.slotNames_csw ((Target.metLosing_select _ _ _ _).trans hselect)
  rw [Target.promptTakes, Target.apTakes_csw fresh _ reached rfl named] at htarget
  refine ⟨u, hu, by rw [hstate, hi]; rfl, hidr, by simpa using hghost, ?_, ?_, ?_⟩ <;> rw [htarget]
  · exact (Target.metLosing_select _ _ _ lost).trans hselect
  · exact merge_cswRewrite_configured _ w
  · exact (Target.meets_request _ _ (by decide)).trans hdebug

/-- Step 6 ends, at once or after one rewrite, with Size word and AddrInc off (R224). -/
theorem Linking.configures (h : Linking s rest (j + 5) t) (hi : t.initState = .s6ApReadCsw)
    (hselect : t.target.select = selectBank0) (hdebug : t.target.stat.getLsbD 28 = true) :
    ∃ k u, j ≤ k ∧ Linking s rest k u ∧ u.initState = .s7ReadStat ∧ u.idr = t.idr ∧ u.selShadow = t.selShadow ∧
      u.target.select = selectBank0 ∧ u.target.csw &&& 0x37 = 0x02 ∧ u.target.stat.getLsbD 28 = true := by
  obtain ⟨u, hu, carry, hvalue, hstat, hstate⟩ := h.readsCsw hi hselect hdebug
  have hsel := carry.select.trans hselect
  by_cases pass : cswConfigured t.target.csw = true
  · rw [if_pos pass] at hstate
    refine ⟨j + 3, u, by omega, hu, hstate, carry.idr, carry.shadow, hsel, ?_, hstat⟩
    rw [carry.csw]
    simpa [cswConfigured, cswMask] using pass
  · rw [if_neg pass] at hstate
    obtain ⟨x, hx, hstate', hidr, hghost, hsel', hcsw, hstat'⟩ := hu.writesCsw hstate hvalue hsel hstat
    obtain ⟨y, hy, carry', -, hstat'', hnext⟩ := hx.readsCsw hstate' hsel' hstat'
    have pass' : cswConfigured x.target.csw = true := by simpa [cswConfigured, cswMask] using hcsw
    rw [if_pos pass'] at hnext
    exact ⟨j, y, Nat.le_refl j, hy, hnext, carry'.idr.trans (hidr.trans carry.idr),
      carry'.shadow.trans (hghost.trans carry.shadow), carry'.select.trans hsel', by rw [carry'.csw, hcsw], hstat''⟩

end

/-! ### The whole call -/

/-- The line reset of step 1: a write posted before it is performed by then (R308). -/
theorem Linking.start {s : State} {rest : List Reply} (h : ReadyIdle s) (hk : s.target.sticky = false)
    (hs : s.target.script = promptReplies 16 rest) :
    ∃ t, Linking s rest 15 t ∧ t.initState = .s2SelBank15 := by
  have ready : ReadyInit s.startsInit := ⟨⟨h.phase, h.width, h.rxEn, h.signals⟩, rfl⟩
  let x : State := { s.startsInit with trace := s.trace ++ lineResetCycles Config.hw }
  obtain ⟨hanswer, -, hresult, htarget⟩ :=
    prompt_read (x := x) (more := promptReplies 15 rest) (port := .dp) (slot := .a0) hs hk
  have e : step s.startsInit = .next (x.readEnds .dp .a0).initMoves := step_initReset ready rfl
  have hlen : (lineResetCycles Config.hw).length = 328 := by
    simp only [lineResetCycles, List.length_append, List.length_map, List.length_replicate, bitsOf_length, Config.hw]
  refine ⟨_, ⟨⟨1, rfl, run_one e⟩, ?_, ?_, ?_, ?_, ?_, ?_, ?_⟩, ?_⟩
  · exact ReadyInit.readMoves (s := x) ⟨⟨h.phase, h.width, h.rxEn, h.signals⟩, rfl⟩ _ _
  · rw [State.initMoves_target, htarget]; simp
  · rw [State.initMoves_target, htarget]; simp
  · rw [State.initMoves_target, htarget, Target.sticky_of_stat (Target.readWord2_stat _ _ _ _),
      Target.sticky_of_stat (Target.performPosted_stat _ _), Target.meets_sticky]
    exact hk
  · rw [State.initMoves_target, htarget]; simp [x]
  · simp [x]
  · simp only [State.initMoves_trace, readEnds_cycles, hanswer, if_true, x, List.length_append, hlen]
  · rw [State.initMoves_initState, State.readEnds_initState, hresult]; rfl

/-- Settles O44: each of the seven steps in turn, the loops passed after one request or rewrite at most. -/
theorem dpInitEstablishesLink : Obligations.DpInitEstablishesLink := by
  intro s rest h hk hs
  obtain ⟨t₁, h₁, hi₁⟩ := Linking.start h hk hs
  obtain ⟨t₂, h₂, hi₂, -, -, hsel₂, -⟩ := h₁.selects (by rw [hi₁]; rfl)
  rw [hi₁] at hi₂
  obtain ⟨k₃, t₃, hk₃, h₃, carry, hi₃, hdebug₃⟩ := Linking.powersDebug (j := 11) h₂ hi₂ (by rw [hsel₂]; decide)
  obtain ⟨j₄, rfl⟩ := Nat.exists_eq_add_of_le' (show 2 ≤ k₃ by omega)
  obtain ⟨t₄, h₄, hi₄, -, hidr₄, -, -, -, hdebug₄⟩ := h₃.readsAp (reg := .idr) (by rw [hi₃]; rfl)
    (by rw [Target.slotNames, carry.select, hsel₂]; decide) nofun hdebug₃
  rw [hi₃] at hi₄ hidr₄
  obtain ⟨j₅, rfl⟩ := Nat.exists_eq_add_of_le' (show 1 ≤ j₄ by omega)
  obtain ⟨t₅, h₅, hi₅, hidr₅, hghost₅, hsel₅, hdebug₅⟩ := h₄.selects (by rw [hi₄]; rfl)
  rw [hi₄] at hi₅
  obtain ⟨j₆, rfl⟩ := Nat.exists_eq_add_of_le' (show 5 ≤ j₅ by omega)
  obtain ⟨k₆, t₆, hk₆, h₆, hi₆, hidr₆, hghost₆, hsel₆, hcsw₆, hdebug₆⟩ :=
    h₅.configures hi₅ hsel₅ (hdebug₅.trans hdebug₄)
  obtain ⟨j₇, rfl⟩ := Nat.exists_eq_add_of_le' (show 3 ≤ k₆ by omega)
  obtain ⟨k₇, t₇, h₇, carry', hi₇, hdebugAck, hsystemAck⟩ := h₆.powersSystem hi₆ (by rw [hsel₆]; decide) hdebug₆
  obtain ⟨n, hn, hrun⟩ := h₇.reached
  have hidr : t₇.idr = some s.target.idr := by
    rw [carry'.idr, hidr₆, hidr₅, hidr₄, ← h₃.idr]; rfl
  refine ⟨s.startsInit, n + 1, _, exec_dpInit_ready h, by omega,
    (run_add hrun).trans (run_one (step_done h₇.ready.seq hi₇)), rfl, rfl, h₇.ready.phase, h₇.ready.width, h₇.ready.rxEn,
    hidr, hidr, rfl, ?_, ?_, hdebugAck, hsystemAck, ?_, ?_, ?_⟩
  · exact carry'.shadow.trans (hghost₆.trans hghost₅)
  · exact carry'.select.trans hsel₆
  · exact (congrArg (· &&& 0x37) carry'.csw).trans hcsw₆
  · rw [State.endsInit_outputs, h₇.outputs, hidr]
  · have := h₇.cycles
    rw [State.endsInit_trace]
    omega

end Sys2Proof.Machine
end

section
/-! R252, R253 and R262: what an engine does whose ready signals never come, and which operation can return which
result. -/

namespace Sys2Proof.Machine

/-! ### Waits without end -/

/-- An engine that waits inside an operation stays where it is: `dp_init` alone goes on between two steps (R262). -/
theorem step_waiting {s : State} (h : ¬ s.atRest) : step s = .next s := by
  obtain ⟨hidle, hinit⟩ := not_or.mp h
  rw [step, if_neg hidle, resume, if_neg hinit, Run.outcome_hung]

/-- The transport as a transaction finds it (R161), and a peripheral that gives no more ready signals (R262). -/
structure Unsignalled (s : State) : Prop where
  phase   : s.phase = .engaged
  width   : s.width = .w8
  rxEn    : s.rxEn = false
  signals : s.signals = some 0

section
variable {s : State}

/-- The first byte a transaction sends waits for the transmitter before its first cycle (R134). -/
theorem txFrame_unsignalled (h : Unsignalled s) {v : Nat} (hv : v < 2 ^ 8) : txFrame v s = .hung s :=
  txFrame_hung h.phase h.rxEn (by rw [h.width]; exact hv) h.signals

theorem requestPhase_unsignalled (h : Unsignalled s) (p : Params) (step : Nat → Pos) (r : RegRef) :
    requestPhase p step r s = .hung (s.opens (step 0) r) := by
  have opened : Unsignalled (s.opens (step 0) r) := ⟨h.phase, h.width, h.rxEn, h.signals⟩
  rw [requestPhase, txFrame_unsignalled opened (req_lt r), Run.andThen_hung]

theorem readTransaction_unsignalled (h : Unsignalled s) (p : Params) (port : Port) (slot : Slot) :
    readTransaction p port slot s = .hung (s.opens (.read 0) (mkRef port .read slot)) := by
  rw [readTransaction, requestPhase_unsignalled h, Run.andThen_hung]

theorem writeTransaction_unsignalled (h : Unsignalled s) (p : Params) (port : Port) (slot : Slot) (v : Word) :
    writeTransaction p port slot v s =
      .hung (State.opens { s with opWdata := v } (.write 0) (mkRef port .write slot)) := by
  have started : Unsignalled { s with opWdata := v } := ⟨h.phase, h.width, h.rxEn, h.signals⟩
  rw [writeTransaction, requestPhase_unsignalled started, Run.andThen_hung]

/-- A line reset waits in its first frame (R170). -/
theorem lineResetTransaction_unsignalled (h : Unsignalled s) :
    lineResetTransaction Config.hw s = .hung { s with seq := .lineReset 0 :: s.seq } := by
  obtain ⟨frames, hframes⟩ : ∃ l, lineResetFrames Config.hw = 0xFF :: l := ⟨_, rfl⟩
  have started : Unsignalled (State.goto { s with seq := .lineReset 0 :: s.seq } (.lineReset 0)) :=
    ⟨h.phase, h.width, h.rxEn, h.signals⟩
  rw [lineResetTransaction, hframes, sendFrames, txFrame_unsignalled started (by decide)]
  rfl

/-- Every operation on the wire but `DPINIT`, whose call clocks no frame, waits in its first frame (R134). -/
theorem exec_unsignalled (h : Unsignalled s) (hq : s.seq = []) {i : Instr} (hi : onWire i = true) (hd : i ≠ .dpInit) :
    ∃ t p, exec i s = .next t ∧ t.seq = p :: s.seq ∧ p ≠ .dpInit ∧ t.trace = s.trace ∧ t.outputs = s.outputs := by
  have called (body : State → Run) : callOnWire body s = body s := by rw [callOnWire, if_pos h.phase, if_pos hq]
  rcases instr_forms i with ⟨port, slot, hf⟩ | ⟨port, slot, v, hf⟩ | rfl | ⟨ref, rfl⟩ | rfl | rfl | rfl | rfl
  · refine ⟨s.opens (.read 0) (mkRef port .read slot), .read 0, ?_, rfl, by simp, rfl, rfl⟩
    rw [exec_readForm hf, callRead, called, readTransaction_unsignalled h]
    rfl
  · refine ⟨State.opens { s with opWdata := v } (.write 0) (mkRef port .write slot), .write 0, ?_, rfl, by simp, rfl,
      rfl⟩
    rw [exec_writeForm hf, callWrite, called, writeTransaction_unsignalled h]
    rfl
  · refine ⟨{ s with seq := .lineReset 0 :: s.seq }, .lineReset 0, ?_, rfl, by simp, rfl, rfl⟩
    change execLineReset s = _
    rw [execLineReset, called, lineResetTransaction_unsignalled h]
    rfl
  · refine ⟨s.opens (.read 0) (mkRef .ap .read ref.slot), .read 0, ?_, rfl, by simp, rfl, rfl⟩
    change execRdap ref s = _
    rw [execRdap, called, rdapTransactions, readTransaction_unsignalled h]
    rfl
  · exact absurd rfl hd
  all_goals cases hi

end

/-- Settles O38: a position inside a transaction is not taken up again, and each operation waits at its first frame. -/
theorem signalNeverComes : Obligations.SignalNeverComes := by
  refine ⟨fun _ h => step_waiting h, fun i s hi hd hphase hwidth hrxEn hq hsignals => ?_⟩
  have h : Unsignalled s := ⟨hphase, hwidth, hrxEn, hsignals⟩
  obtain ⟨t, p, e, hseq, hp, htrace, houtputs⟩ := exec_unsignalled h hq hi hd
  have hrest : ¬ t.atRest := by simp [State.atRest, hseq, hq, hp]
  exact ⟨t, e, hrest, htrace, houtputs, step_waiting hrest⟩

/-! ### Results -/

/-- Every transaction ends with one of the results of R253 but Timeout (R252). -/
theorem Ended.result_cases {s t : State} (h : Ended s t) : t.result = some .ok ∨ t.result = some .wait ∨
    t.result = some .fault ∨ t.result = some .noAck ∨ t.result = some .parity := by
  obtain ⟨r, hr, hne⟩ := h.result
  cases r with
  | timeout => exact absurd rfl hne
  | _ => simp [hr]

theorem Ended.not_timeout {s t : State} (h : Ended s t) : t.result ≠ some .timeout := by
  obtain ⟨r, hr, hne⟩ := h.result
  simpa [hr] using hne

/-- A call leaves the result it found, writes that of a transaction, or, if it is `INIT`, none. -/
theorem exec_not_timeout {i : Instr} {s t : State} (e : exec i s = .next t) (h : s.result ≠ some .timeout) :
    t.result ≠ some .timeout := by
  have stuck {x : State} (hx : x.result ≠ some .timeout) (k : Stuck x [] t) : t.result ≠ some .timeout :=
    k.result ▸ hx
  rcases instr_forms i with ⟨port, slot, hi⟩ | ⟨port, slot, v, hi⟩ | rfl | ⟨ref, rfl⟩ | rfl | rfl | rfl | rfl
  · obtain ⟨-, -, ⟨u, hu, rfl⟩ | k⟩ := callRead_next (exec_readForm hi s ▸ e)
    · exact hu.not_timeout
    · exact stuck h k
  · obtain ⟨-, -, ⟨u, hu, rfl⟩ | k⟩ := callWrite_next (exec_writeForm hi s ▸ e)
    · exact hu.not_timeout
    · exact stuck (x := { s with opWdata := v }) h k
  · obtain ⟨-, -, ⟨u, hu, rfl⟩ | k⟩ := execLineReset_next e
    · exact hu.not_timeout
    · exact stuck h k
  · obtain ⟨-, -, ⟨u, hu, -, rfl⟩ | ⟨u, w, -, -, hw, rfl⟩ | k | ⟨u, hu, -, k⟩⟩ := execRdap_next e
    · exact hu.not_timeout
    · exact hw.not_timeout
    · exact stuck h k
    · exact stuck (x := u.reports) hu.not_timeout k
  · obtain ⟨-, -, k⟩ := callOnWire_next e
    cases k; exact h
  · simp only [exec, execInit] at e
    split at e <;> cases e
    exact fun k => by cases k
  · simp only [exec, execEngage] at e
    split at e <;> cases e; exact h
  · simp only [exec, execDisengage] at e
    split at e <;> cases e; exact h

theorem initStep_not_timeout {p : Params} {s t : State} (e : (initStep p s).outcome = .next t)
    (h : s.result ≠ some .timeout) : t.result ≠ some .timeout := by
  rcases initStep_next e with ⟨-, rfl⟩ | ⟨-, rfl⟩ | ⟨-, rfl⟩ | ⟨w, u, hu, ha⟩ | ⟨w, hs⟩
  · exact h
  · simp
  · exact h
  · rw [ha.rest]; exact hu.not_timeout
  · exact hs.result ▸ h

/-- This block never produces Timeout (R252). -/
theorem step_not_timeout {s t : State} (e : step s = .next t) (h : s.result ≠ some .timeout) :
    t.result ≠ some .timeout := by
  rcases step_cases e with ⟨-, -, rfl⟩ | ⟨-, c, rest, i, -, -, e⟩ | ⟨-, e⟩ | ⟨-, -, rfl⟩
  · exact h
  · exact exec_not_timeout e h
  · exact initStep_not_timeout e h
  · exact h

/-- `dp_init` comes back to Idle from Done and Failed alone: with OK, or with the result of the transaction that failed
(R220, R221). -/
theorem initStep_returns {p : Params} {s t : State} (hq : s.seq = [.dpInit]) (hi : s.initState ≠ .idle)
    (e : (initStep p s).outcome = .next t) (ht : t.seq = []) :
    s.initState = .done ∧ t.result = some .ok ∨ s.initState = .failed ∧ t.result = s.result := by
  rcases initStep_next e with ⟨k, -⟩ | ⟨k, rfl⟩ | ⟨k, rfl⟩ | ⟨w, u, hu, ha⟩ | ⟨w, hs⟩
  · exact absurd k hi
  · exact .inl ⟨k, rfl⟩
  · exact .inr ⟨k, rfl⟩
  · have hseq : t.seq = [.dpInit] := by rw [ha.rest]; exact hu.seq.trans hq
    simp [hseq] at ht
  · obtain ⟨l, -, -, hseq⟩ := hs.seq
    simp [hseq, hq] at ht

/-- Settles O59: a call that has come back to Idle has ended a transaction, of which a write never answers Parity; the
session operations run none. -/
theorem resultTable : Obligations.ResultTable := by
  refine ⟨fun i s t hi e hq => ?read, fun i s t hi e hq => ?write, fun s t e => ?init, fun s t e => ?engage,
    fun s t e => ?disengage, fun s t hq hi e ht => initStep_returns hq hi (step_inDpInit hq ▸ e) ht,
    fun s t e h => step_not_timeout e h⟩
  case read =>
    have k : (∃ u, ReadEnded s u ∧ t = u.reports) ∨ Stuck s [] t := by
      rcases hi with hi | rfl
      · obtain ⟨⟨port, slot⟩, hi⟩ := Option.ne_none_iff_exists'.mp hi
        exact (callRead_next (exec_readForm hi s ▸ e)).2.2
      · exact (execLineReset_next e).2.2
    rcases k with ⟨u, hu, rfl⟩ | k
    · exact hu.result_cases
    · exact absurd hq k.seq_ne_nil
  case write =>
    obtain ⟨⟨port, slot, v⟩, hi⟩ := Option.ne_none_iff_exists'.mp hi
    obtain ⟨-, -, ⟨u, hu, rfl⟩ | k⟩ := callWrite_next (exec_writeForm hi s ▸ e)
    · simpa [hu.parity] using hu.result_cases
    · exact absurd hq k.seq_ne_nil
  case init => exact (sessionCall_keeps (.inl rfl) e).2.1
  case engage =>
    simp only [exec, execEngage] at e
    split at e <;> cases e
    exact ⟨rfl, rfl⟩
  case disengage =>
    simp only [exec, execDisengage] at e
    split at e <;> cases e
    exact ⟨rfl, rfl⟩

end Sys2Proof.Machine
end

section
/-! R187, R204, R259, R303 and R307: what a conforming target does with an access it refuses, with one that does not
reach its domain, and with a write word whose parity bit arrives wrong. -/

namespace Sys2Proof.Machine

/-! ### Sticky errors -/

/-- A bit of STAT that is a sticky error sets one. -/
theorem Target.sticky_of_or {t : Target} {x k : Word} (h : t.stat = x ||| k) (hk : statSticky &&& k ≠ 0) :
    t.sticky = true := by
  rw [Target.sticky, h, BitVec.and_comm, bne_iff_ne, ne_eq, and_or_eq_zero_iff]
  exact fun hzero => hk hzero.2

/-- ABORT of 0x1E clears every sticky error (R46). -/
theorem Target.sticky_aborted {t : Target} {x : Word} (h : t.stat = x &&& ~~~(abortClears 0x1E)) :
    t.sticky = false := by
  rw [Target.sticky, h, BitVec.and_assoc, show ~~~(abortClears 0x1E) &&& statSticky = 0#32 by decide, BitVec.and_zero]
  rfl

section
variable {i : Instr} {s : State} {c : Choice} {rest : List Reply} {port : Port} {slot : Slot} {v : Word}

/-! ### Accesses answered FAULT -/

/-- A read whose header is answered FAULT ends there, and of the target no more is heard (R256). -/
theorem exec_read_fault (hi : readForm i = some (port, slot)) (h : ReadyIdle s) {u : Target}
    (hu : (s.targetHears (req (mkRef port .read slot))).target = { u with out := none :: ackLevels .fault }) :
    ∃ t, exec i s = .next t ∧ t.result = some .fault ∧ t.value = none ∧ t.target = { u with out := [] } := by
  have hans := answered_fault (congrArg Target.out hu)
  rw [exec_read_ready hi h, readEnds_error (by rw [hans]; decide)]
  refine ⟨_, rfl, by rw [State.reports_result, hans]; rfl, rfl, ?_⟩
  simp only [State.reports_target, State.afterCycles]
  rw [hu]
  rfl

/-- So does a write. -/
theorem exec_write_fault (hi : writeForm i = some (port, slot, v)) (h : ReadyIdle s) {u : Target}
    (hu : (s.targetHears (req (mkRef port .write slot))).target = { u with out := none :: ackLevels .fault }) :
    ∃ t, exec i s = .next t ∧ t.result = some .fault ∧ t.value = none ∧ t.target = { u with out := [] } := by
  have hans := answered_fault (congrArg Target.out hu)
  rw [exec_write_ready hi h, writeEnds_error (by rw [hans]; decide)]
  refine ⟨_, rfl, by rw [State.reports_result, hans]; rfl, rfl, ?_⟩
  simp only [State.reports_target, State.afterCycles]
  rw [hu]
  rfl

/-- The target that has answered an AP access FAULT with no sticky error set: STICKYERR is (R250, R259). -/
def Target.faulted (fresh : Nat → Word) (c : Choice) (rest : List Reply) (r : RegRef) (t : Target) : Target :=
  { (t.meets c rest).losesBuffer fresh c r with stat := (t.meets c rest).stat ||| 0x20 }

/-- An AP access that a conforming target chooses to answer FAULT. -/
theorem conforming_fault {d : Dir} (hs : s.target.script = .conforming c :: rest) (hk : s.target.sticky = false)
    (ha : c.ack = .fault) : (s.targetHears (req (mkRef .ap d slot))).target =
      { s.target.faulted (Config.freeWord s.draws) c rest (mkRef .ap d slot) with
        out := none :: ackLevels .fault } := by
  have hm : (s.target.meets c rest).sticky = false := by simpa using hk
  have hf : (s.target.meets c rest).ackFor c (mkRef .ap d slot) = .fault := (ackFor_ap rfl hm).trans ha
  rw [State.targetHears_target, Target.hears_conforming _ _ (Target.coming_script _ hs), Target.answer, hf]
  simp only [hm, mkRef, and_self, if_true]
  rfl

/-- What a refusal leaves of the target that has met its header: all but an unread buffer (R302). -/
theorem Target.meets_losesBuffer (fresh : Nat → Word) (t : Target) {r : RegRef} (h : ¬ c.spares r) {u : Target}
    (hu : u = { (t.meets c rest).losesBuffer fresh c r with out := [] }) :
    u = { t.meets c rest with buf := u.buf, unread := false } ∧ (t.unread = false → u.buf = t.buf) := by
  subst hu
  rw [Target.with_out_nil (by simp)]
  obtain ⟨hform, hbuf⟩ := (t.meets c rest).losesBuffer_buffered fresh h
  exact ⟨hform, by simpa using hbuf⟩

/-! ### Accesses that do not reach their domain -/

/-- The registers and the memory an AP access may change, and the posted write. -/
structure KeepsAp (t u : Target) : Prop where
  select : u.select = t.select
  csw    : u.csw = t.csw
  tar    : u.tar = t.tar
  cfg    : u.cfg = t.cfg
  base   : u.base = t.base
  idr    : u.idr = t.idr
  mem    : u.mem = t.mem
  posted : u.posted = t.posted

/-- The header that a target meets and the loss of its buffer leave them. -/
theorem KeepsAp.losesBuffer (fresh : Nat → Word) (c : Choice) (rest : List Reply) (r : RegRef) (t : Target) :
    KeepsAp t ((t.meets c rest).losesBuffer fresh c r) := by
  constructor <;> simp

/-- A FAULT sets STICKYERR and leaves them too. -/
theorem Target.faulted_keepsAp {fresh : Nat → Word} {r : RegRef} {t u : Target}
    (h : u = { t.faulted fresh c rest r with out := [] }) : u.sticky = true ∧ KeepsAp t u := by
  subst h
  exact ⟨Target.sticky_of_or rfl (by decide), { KeepsAp.losesBuffer fresh c rest r t with }⟩

/-- A read without power sends a free word and has no effect (R303). -/
theorem Target.readWord_unreached (fresh : Nat → Word) {t : Target} (h : t.apReached c = false) :
    t.readWord fresh c (mkRef .ap .read slot) =
      (fresh 0, { t.losesBuffer fresh c (mkRef .ap .read slot) with resent := fresh 0 }) := by
  simp only [Target.readWord, mkRef, h, Bool.false_eq_true, if_false]

/-- A write without power has none (R303). -/
theorem Target.apTakes_unreached (fresh : Nat → Word) {t : Target} (h : t.apReached c = false) :
    t.apTakes fresh c slot v = t := by
  simp only [Target.apTakes, h, Bool.false_eq_true, if_false]

/-- An AP read without power is answered OK or FAULT, to no other effect than STICKYERR (R303). -/
theorem exec_apRead_unreached (hi : readForm i = some (.ap, slot)) (h : ReadyIdle s)
    (hs : s.target.script = .conforming c :: rest) (hk : s.target.sticky = false) (hp : s.target.posted = none)
    (hreach : (s.target.meets c rest).apReached c = false) (ha : c.ack = .ok ∨ c.ack = .fault)
    (hf : c.flipParity = false) :
    ∃ t, exec i s = .next t ∧ t.result = some (resultOf c.ack) ∧ (c.ack = .fault → t.target.sticky = true) ∧
      KeepsAp s.target t.target := by
  rcases ha with ha | ha
  · obtain ⟨t, e, hresult, -, htarget⟩ := exec_read_answered hi h hs ha hf hp fun _ => hk
    rw [Target.readWord_unreached _ hreach] at htarget
    refine ⟨t, e, by rw [hresult, ha]; rfl, by simp [ha], ?_⟩
    rw [htarget]
    exact { KeepsAp.losesBuffer (Config.freeWord s.draws) c rest (mkRef .ap .read slot) s.target with }
  · obtain ⟨t, e, hresult, -, htarget⟩ := exec_read_fault hi h (conforming_fault hs hk ha)
    obtain ⟨hsticky, kept⟩ := Target.faulted_keepsAp htarget
    exact ⟨t, e, by rw [hresult, ha]; rfl, fun _ => hsticky, kept⟩

/-- And so is an AP write. -/
theorem exec_apWrite_unreached (hi : writeForm i = some (.ap, slot, v)) (h : ReadyIdle s)
    (hs : s.target.script = .conforming c :: rest) (hk : s.target.sticky = false) (hp : s.target.posted = none)
    (hreach : (s.target.meets c rest).apReached c = false) (ha : c.ack = .ok ∨ c.ack = .fault)
    (hf : c.flipParity = false) :
    ∃ t, exec i s = .next t ∧ t.result = some (resultOf c.ack) ∧ (c.ack = .fault → t.target.sticky = true) ∧
      KeepsAp s.target t.target := by
  rcases ha with ha | ha
  · obtain ⟨t, lost, fresh, e, -, hresult, -, htarget⟩ := exec_write_taken hi h hs ha hf hp fun _ => hk
    simp only at htarget
    rw [Target.apTakes_unreached fresh (by exact hreach)] at htarget
    refine ⟨t, e, by rw [hresult, ha]; rfl, by simp [ha], ?_⟩
    rw [htarget]
    constructor <;> simp [Target.metLosing]
  · obtain ⟨t, e, hresult, -, htarget⟩ := exec_write_fault hi h (conforming_fault hs hk ha)
    obtain ⟨hsticky, kept⟩ := Target.faulted_keepsAp htarget
    exact ⟨t, e, by rw [hresult, ha]; rfl, fun _ => hsticky, kept⟩

/-! ### A write word that arrives wrong -/

/-- A write answered OK whose parity bit arrives wrong: WDATAERR is set, and the posted write is performed, before the
header is answered or, where that is an ABORT write's, as its word is dropped (R187, R308). -/
theorem exec_write_broken (hi : writeForm i = some (port, slot, v)) (h : ReadyIdle s)
    (hs : s.target.script = .conforming c :: rest) (hf : c.flipParity = true)
    (hok : (s.target.meets c rest).ackFor c (mkRef port .write slot) = .ok) :
    ∃ t fresh lost, exec i s = .next t ∧ t.result = some .ok ∧
      t.target = { ((s.target.meets c rest).performPosted fresh).losesBuffer lost c (mkRef port .write slot) with
        out := [], taking := none, stat := (s.target.meets c rest).stat ||| 0x80 } := by
  obtain ⟨t, e, -, hresult, htarget⟩ := exec_write_conforming hi h hs hok
  have spares : ¬ c.spares (mkRef port .write slot) := by simp [Choice.spares, mkRef]
  rw [takes_broken rfl hf] at htarget
  refine ⟨t, Config.freeWord (if port = .dp ∧ slot = .a0 then s.draws + 5 else s.draws), Config.freeWord s.draws, e,
    hresult, htarget.trans ?_⟩
  refine (Target.performPosted_losing _ _ _ spares _).trans ?_
  by_cases habort : port = .dp ∧ slot = .a0
  · simp only [if_pos habort, Target.losesBuffer_stat]
  · simp only [if_neg habort, Target.losesBuffer_stat, Target.performPosted_twice, Target.performPosted_stat]

end

/-- Settles O51: an AP access is refused at its header, does not reach its domain, or has its word dropped; DPIDR and
ABORT are answered all the same. -/
theorem stickyErrorRefusesAp : Obligations.StickyErrorRefusesAp := by
  intro s c rest h hs refused noEffect
  have hcoming := Target.coming_script s.target hs
  have refuses {t : State} {d : Dir} {slot : Slot} (hk : s.target.sticky = true) (hresult : t.result = some .fault)
      (hvalue : t.value = none) (htarget : t.target =
        { (s.target.meets c rest).losesBuffer (Config.freeWord s.draws) c (mkRef .ap d slot) with out := [] }) :
      refused t := by
    obtain ⟨hform, hbuf⟩ := Target.meets_losesBuffer _ _ (by simp [Choice.spares, mkRef]) htarget
    refine ⟨hresult, hvalue, ?_, hform, hbuf⟩
    rw [Target.sticky_of_stat (congrArg Target.stat hform), ← hk]
    exact Target.meets_sticky _ _ _
  have unaffected {t : State} (hp : s.target.posted = none) (hresult : t.result = some (resultOf c.ack))
      (hfault : c.ack = .fault → t.target.sticky = true) (k : KeepsAp s.target t.target) : noEffect t :=
    ⟨hresult, hfault, k.select, k.csw, k.tar, k.cfg, k.base, k.idr, k.mem, k.posted.trans hp⟩
  refine ⟨fun hk => ⟨fun i slot hi => ?apRead, fun i slot v hi => ?apWrite, fun ha hf => ?dpidr⟩, fun ha hf => ?abort,
    fun hk hp hreach ha hf => ⟨fun i slot hi => ?unreachedRead, fun i slot v hi => ?unreachedWrite⟩,
    fun hf i port slot v hi hok => ?broken⟩
  case apRead =>
    obtain ⟨t, e, hresult, hvalue, htarget⟩ := exec_read_fault hi h (conforming_sticky hcoming hk)
    exact ⟨t, e, refuses hk hresult hvalue htarget⟩
  case apWrite =>
    obtain ⟨t, e, hresult, hvalue, htarget⟩ := exec_write_fault hi h (conforming_sticky hcoming hk)
    exact ⟨t, e, refuses hk hresult hvalue htarget⟩
  case dpidr =>
    obtain ⟨t, e, hvalue, hresult, -⟩ := exec_read_conforming (j := .rdDpDpidr) rfl h hs (ackFor_dpidr ha)
    refine ⟨t, e, by simpa [hf] using hresult, ?_⟩
    simpa [Target.readWord, mkRef, Target.dpidrRead] using hvalue
  case abort =>
    obtain ⟨t, e, -, hresult, htarget⟩ := exec_write_conforming (j := .wrDpAbort 0x1E) rfl h hs (ackFor_abort ha)
    rw [Target.takes_abort _ rfl (by decide)] at htarget
    refine ⟨t, e, hresult, Target.sticky_aborted (x := (s.target.meets c rest).stat) ?_⟩
    simp [htarget, hf]
  case unreachedRead =>
    obtain ⟨t, e, hresult, hfault, k⟩ := exec_apRead_unreached hi h hs hk hp hreach ha hf
    exact ⟨t, e, unaffected hp hresult hfault k⟩
  case unreachedWrite =>
    obtain ⟨t, e, hresult, hfault, k⟩ := exec_apWrite_unreached hi h hs hk hp hreach ha hf
    exact ⟨t, e, unaffected hp hresult hfault k⟩
  case broken =>
    obtain ⟨t, fresh, lost, e, hresult, htarget⟩ := exec_write_broken hi h hs hf hok
    have spares : ¬ c.spares (mkRef port .write slot) := by simp [Choice.spares, mkRef]
    refine ⟨t, fresh, e, hresult, ?_, fun hu => ?_, Target.sticky_of_or (congrArg Target.stat htarget) (by decide)⟩
    · rw [htarget, Target.losesBuffer_form lost _ spares]
      simp
    · rw [htarget, Target.losesBuffer_form lost _ spares]
      simp [hu]

end Sys2Proof.Machine
end

section
/-! R291: the power-on state and the phase Off, which every operation but `INIT` refuses and no step leads back to. -/

namespace Sys2Proof.Machine

/-- The operations that do not use the wire are those of the session (R131, R137, R138). -/
theorem onWire_eq_false {i : Instr} : onWire i = false ↔ i = .init ∨ i = .engage ∨ i = .disengage := by
  cases i <;> simp [onWire]

section
variable {i : Instr} {s t : State}

/-- `INIT` alone leaves Off: the operations on the wire and `DISENGAGE` need Engaged, `ENGAGE` needs Released. -/
theorem exec_off_refused (h : s.phase = .off) (hi : i ≠ .init) : ∃ e, exec i s = .refused e := by
  have notEngaged : s.phase ≠ .engaged := by simp [h]
  cases hw : onWire i with
  | true => exact ⟨.notEngaged, (wirePrecondition i s hw).1 notEngaged⟩
  | false =>
    rcases onWire_eq_false.mp hw with rfl | rfl | rfl
    · exact absurd rfl hi
    · exact ⟨.engageNotReleased, exec_engage_not_released (by simp [h])⟩
    · exact ⟨.disengageNotEngaged, exec_disengage_not_idle (.inl notEngaged)⟩

/-- Every transaction a caller calls keeps the phase, and so does the call of `DPINIT`. -/
theorem exec_onWire_keeps_phase (hw : onWire i = true) (e : exec i s = .next t) : t.phase = s.phase := by
  rcases instr_forms i with ⟨port, slot, hi⟩ | ⟨port, slot, v, hi⟩ | rfl | ⟨ref, rfl⟩ | rfl | rfl | rfl | rfl
  · obtain ⟨k, -⟩ := callRead_keeps (exec_readForm hi s ▸ e)
    exact k.phase
  · obtain ⟨k, -⟩ := callWrite_keeps (exec_writeForm hi s ▸ e)
    exact k.phase
  · obtain ⟨k, -⟩ := execLineReset_keeps e
    exact k.phase
  · obtain ⟨k, -⟩ := execRdap_keeps e
    exact k.phase
  · obtain ⟨-, -, k⟩ := callOnWire_next e
    cases k; rfl
  all_goals cases hw

/-- An operation on the wire that goes through was called while Engaged (R161), and Engaged it stays. -/
theorem exec_onWire_phase (hw : onWire i = true) (e : exec i s = .next t) : t.phase = .engaged := by
  obtain ⟨body, hbody⟩ := exec_onWire hw
  have engaged : s.phase = .engaged := (callOnWire_next (hbody s ▸ e)).1
  rw [exec_onWire_keeps_phase hw e, engaged]

/-- No call leads to Off: `INIT` and `DISENGAGE` lead to Released, the others to Engaged. -/
theorem exec_phase_ne_off (e : exec i s = .next t) : t.phase ≠ .off := by
  cases hw : onWire i with
  | true => simp [exec_onWire_phase hw e]
  | false =>
    rcases onWire_eq_false.mp hw with rfl | rfl | rfl
    · by_cases h : s.phase = .off
      · cases exec_init_off h ▸ e
        simp [State.initialised]
      · cases exec_init_not_off h ▸ e
    · by_cases h : s.phase = .released
      · cases exec_engage_released h ▸ e
        simp
      · cases exec_engage_not_released h ▸ e
    · by_cases h : s.phase = .engaged ∧ s.seq = []
      · cases exec_disengage_idle h.1 h.2 ▸ e
        simp
      · cases exec_disengage_not_idle (not_and_or.mp h) ▸ e

/-- A step that is not a call leaves the phase. -/
theorem step_phase_ne_off (e : step s = .next t) (h : s.phase ≠ .off) : t.phase ≠ .off := by
  rcases step_cases e with ⟨-, -, rfl⟩ | ⟨-, c, rest, i, -, -, e⟩ | ⟨-, e⟩ | ⟨-, -, rfl⟩
  · exact h
  · exact exec_phase_ne_off e
  · exact (initStep_keeps e).phase ▸ h
  · exact h

end

/-- Settles O8: no call leads to Off, and the steps that are not calls keep the phase. -/
theorem powerOnState : Obligations.PowerOnState :=
  ⟨rfl, rfl, rfl, fun _ hi => exec_off_refused rfl hi, fun _ _ e h => step_phase_ne_off e h,
    fun _ h => exec_init_not_off h⟩

end Sys2Proof.Machine
end
